-- ==== Sys2Proof/Word.lean ====
section
/-! DEFINITION. The widths of the block's values (00_scope.md section 6): bytes, 16-bit fields, 32-bit operation words.
Every value is unsigned. -/

namespace Sys2Proof

/-- A byte: 8 bits (00_scope.md section 6). -/
abbrev Byte := BitVec 8

/-- A 16-bit field: a command id, a length, a buffer index, a register value (30_encoding.md R69, R74). -/
abbrev Half := BitVec 16

/-- An operation word, and the data part of a response (30_encoding.md R73, R77). -/
abbrev Word := BitVec 32

end Sys2Proof
end

