-- ==== Sys2Proof/Config.lean ====
section
/-! DEFINITION. What one block instance fixes (00_scope.md R5, R6) and the free values: the content of the buffer bytes
that nothing has written since the block reset (93_implementation_defined.md U6). -/

namespace Sys2Proof

/-- The two parameters of a block: `IN_CAP` (00_scope.md R5) and `OUT_CAP` (R6). -/
structure Config where
  inCap  : Nat
  outCap : Nat
  deriving DecidableEq, Repr

/-- The default parameters: `IN_CAP = 192` (R5), `OUT_CAP = 512` (R6). -/
def Config.standard : Config := { inCap := 192, outCap := 512 }

/-- The legal parameters: `0 <= IN_CAP <= 254` (R5), `512 <= OUT_CAP <= 65529` (R6). -/
abbrev Config.Legal (c : Config) : Prop := c.inCap ≤ 254 ∧ 512 ≤ c.outCap ∧ c.outCap ≤ 65529

/-- The byte arrays whose content the block reset leaves unspecified (10_state.md R19, R23, R31). -/
inductive Space where
  | header
  | inBuf
  | outBuf
  deriving DecidableEq, Repr

/-- FREE VALUE (assumption 3): the byte at an index of an array that nothing has written since the reset that drew
the array's content as its `draw`-th. It has no body, so no proof can use a particular value. It depends on the array,
the draw and the index only, so reading an unwritten byte twice gives one value (20_memory.md R44). -/
opaque Config.unwrittenByte (space : Space) (draw index : Nat) : Byte

end Sys2Proof
end

