-- ==== Sys2Proof/Syntax.lean ====
section
/-! DEFINITION. The instructions: one constructor per row of spec/opcode_table.json (12 operations, 4 reserved opcodes,
5 wire frames), and the two forms in which an instruction is presented to the block. -/

namespace Sys2Proof

/-- The direction byte of a frame: `'<'`, `'>'`, `'!'` (30_encoding.md R61). -/
inductive Direction where
  | request
  | replySuccess
  | replyError
  deriving DecidableEq, Repr

/-- One constructor per row of the opcode table. Operands have the widths of 30_encoding.md R74. A reserved opcode
carries its other 28 bits. A wire frame carries what its layout leaves free (R63 to R68): lengths that the layout
fixes by the payload are not repeated, the V1-level size of a V2-over-V1 frame is an operand because nothing ties it
to the V2 size on receive (41_deframer.md R129), and the checksum bytes are operands because a frame may be corrupt. -/
inductive Instr where
  | rd (reg : BitVec 8)
  | wr (reg : BitVec 8) (val : Half)
  | ibr (addr : Half)
  | plr (addr : Half)
  | plw (addr : Half) (data : Byte)
  | xorb (byte : Byte)
  | crcb (byte : Byte)
  | rxb (byte : Byte)
  | rxack
  | rxrst
  | txgo
  | txb
  | reserved0 (rest : BitVec 28)
  | reservedD (rest : BitVec 28)
  | reservedE (rest : BitVec 28)
  | reservedF (rest : BitVec 28)
  | frameV1 (dir : Direction) (cmd : Byte) (payload : List Byte) (checksum : Byte)
  | frameV1Jumbo (dir : Direction) (cmd : Byte) (payload : List Byte) (checksum : Byte)
  | frameV2Native (dir : Direction) (flags : Byte) (cmd : Half) (payload : List Byte) (crc : Byte)
  | frameV2OverV1 (dir : Direction) (v1Size : Byte) (flags : Byte) (cmd : Half) (payload : List Byte)
      (crc checksum : Byte)
  | frameV2OverV1Jumbo (dir : Direction) (v1Size : Half) (flags : Byte) (cmd : Half) (payload : List Byte)
      (crc checksum : Byte)
  deriving DecidableEq, Repr

/-- How an instruction reaches the block: an operation word (30_encoding.md R73), or the bytes of a wire frame in
stream order (R60, 20_memory.md R42). -/
inductive Encoding where
  | word (w : Word)
  | wire (bytes : List Byte)
  deriving DecidableEq, Repr

end Sys2Proof
end

