-- ==== Sys2Proof/WellFormed.lean ====
section
/-! DEFINITION. Which instructions the encodings of 30_encoding.md can write. Operations and reserved opcodes always:
their operands have exactly the widths of their fields. A wire frame has to fit the layout it names. -/

namespace Sys2Proof

/-- An instruction that its layout can carry: a V1 frame has at most 254 payload bytes and a command other than the
sentinel 255 (30_encoding.md R63); a V1 jumbo frame has 255 to 65535 payload bytes and a command other than 255 (R64,
R70); a V2 payload length fits 16 bits (R66); the V1 size of a V2-over-V1 frame is 6 to 254 (R67, `V2_OVER_V1_MIN` of
00_scope.md R7), in the jumbo layout at least 255 (R68). -/
def Instr.wf : Instr → Bool
  | .rd _ | .wr _ _ | .ibr _ | .plr _ | .plw _ _ => true
  | .xorb _ | .crcb _ => true
  | .rxb _ | .rxack | .rxrst => true
  | .txgo | .txb => true
  | .reserved0 _ | .reservedD _ | .reservedE _ | .reservedF _ => true
  | .frameV1 _ cmd payload _ => decide (payload.length ≤ 254) && decide (cmd ≠ 255)
  | .frameV1Jumbo _ cmd payload _ =>
      decide (255 ≤ payload.length) && decide (payload.length ≤ 65535) && decide (cmd ≠ 255)
  | .frameV2Native _ _ _ payload _ => decide (payload.length ≤ 65535)
  | .frameV2OverV1 _ v1Size _ _ payload _ _ =>
      decide (6 ≤ v1Size.toNat) && decide (v1Size.toNat ≤ 254) && decide (payload.length ≤ 65535)
  | .frameV2OverV1Jumbo _ v1Size _ _ payload _ _ =>
      decide (255 ≤ v1Size.toNat) && decide (payload.length ≤ 65535)

end Sys2Proof
end

