-- ==== Sys2Proof/Decode.lean ====
section
/-! DEFINITION. Decoding and encoding (30_encoding.md): operation words of 32 bits (part B) and wire frames (part A).
The decoder is total and rejects by name; the encoder is written from the same tables. -/

namespace Sys2Proof

/-! ### Bytes of the wire -/

/-- `'$'` (30_encoding.md R62). -/
def chDollar : Byte := 0x24
/-- `'M'` (R62). -/
def chM : Byte := 0x4D
/-- `'X'` (R62). -/
def chX : Byte := 0x58
/-- `'<'` (R62). -/
def chLess : Byte := 0x3C
/-- `'>'` (R62). -/
def chGreater : Byte := 0x3E
/-- `'!'` (R62). -/
def chBang : Byte := 0x21

/-- `V2_SENTINEL` and the size byte of a jumbo layout, both 255 (00_scope.md R7). -/
def sentinel : Byte := 0xFF

/-- `lo8(v) = v[7:0]` (00_scope.md section 6). -/
def lo8 (v : Half) : Byte := v.extractLsb' 0 8

/-- `hi8(v) = v[15:8]` (00_scope.md section 6). -/
def hi8 (v : Half) : Byte := v.extractLsb' 8 8

/-- `u16le(b0, b1) = b0 | (b1 << 8)` (00_scope.md section 6): the low byte first (20_memory.md R41). -/
def u16le (b0 b1 : Byte) : Half := b0.setWidth 16 ||| b1.setWidth 16 <<< 8

/-- The direction byte (30_encoding.md R61, R62). -/
def dirByte : Direction → Byte
  | .request      => chLess
  | .replySuccess => chGreater
  | .replyError   => chBang

/-- The direction a byte stands for, if any (R61). -/
def dirOfByte (b : Byte) : Option Direction :=
  if b = chLess then some .request
  else if b = chGreater then some .replySuccess
  else if b = chBang then some .replyError
  else none

/-! ### Why a presentation is no instruction -/

/-- The names of the decoder's rejections. -/
inductive Reject where
  /-- A legal opcode with a non-zero bit outside the fields of its format (30_encoding.md R74, R76). -/
  | strayBits
  /-- The first wire byte is not `'$'` (R61). -/
  | noStart
  /-- The second wire byte is neither `'M'` nor `'X'` (R61). -/
  | badMagic
  /-- The third wire byte is no direction byte (R61). -/
  | badDirection
  /-- The bytes end before the fixed-length head of the layout does (R63 to R68). -/
  | truncatedHead
  /-- A V2-over-V1 frame whose V1 size is below 6 (R67, 00_scope.md R7). -/
  | shortV2OverV1
  /-- A jumbo layout whose 16-bit size is below 255 (R64, R68). -/
  | shortJumbo
  /-- The number of bytes after the head is not payload length plus trailer (R63 to R68). -/
  | wrongLength
  deriving DecidableEq, Repr

/-! ### Operation words -/

/-- The opcode field, bits 31:28 (30_encoding.md R73). -/
def opcodeOf (w : Word) : BitVec 4 := w.extractLsb' 28 4

/-- Accept `i` when the bits of `w` that its format leaves unnamed are zero (R74), else reject by name (R76). -/
def whenClear (w unnamed : Word) (i : Instr) : Except Reject Instr :=
  if w &&& unnamed = 0#32 then .ok i else .error .strayBits

/-- The opcode map of 30_encoding.md R75 with the formats of R74. -/
def decodeWord (w : Word) : Except Reject Instr :=
  match (opcodeOf w).toNat with
  | 0x0 => .ok (.reserved0 (w.extractLsb' 0 28))
  | 0x1 => whenClear w 0x000FFFFF#32 (.rd (w.extractLsb' 20 8))
  | 0x2 => whenClear w 0x000F0000#32 (.wr (w.extractLsb' 20 8) (w.extractLsb' 0 16))
  | 0x3 => whenClear w 0x0F0000FF#32 (.ibr (w.extractLsb' 8 16))
  | 0x4 => whenClear w 0x0F0000FF#32 (.plr (w.extractLsb' 8 16))
  | 0x5 => whenClear w 0x0F000000#32 (.plw (w.extractLsb' 8 16) (w.extractLsb' 0 8))
  | 0x6 => whenClear w 0x0FFFFF00#32 (.xorb (w.extractLsb' 0 8))
  | 0x7 => whenClear w 0x0FFFFF00#32 (.crcb (w.extractLsb' 0 8))
  | 0x8 => whenClear w 0x0FFFFF00#32 (.rxb (w.extractLsb' 0 8))
  | 0x9 => whenClear w 0x0FFFFFFF#32 .rxack
  | 0xA => whenClear w 0x0FFFFFFF#32 .rxrst
  | 0xB => whenClear w 0x0FFFFFFF#32 .txgo
  | 0xC => whenClear w 0x0FFFFFFF#32 .txb
  | 0xD => .ok (.reservedD (w.extractLsb' 0 28))
  | 0xE => .ok (.reservedE (w.extractLsb' 0 28))
  | _   => .ok (.reservedF (w.extractLsb' 0 28))

/-! ### Wire frames -/

/-- The payload and a one-byte trailer (30_encoding.md R63, R64, R66). -/
def decodeTail1 (len : Nat) (rest : List Byte) (mk : List Byte → Byte → Instr) : Except Reject Instr :=
  match rest.drop len with
  | [x] => .ok (mk (rest.take len) x)
  | _   => .error .wrongLength

/-- The payload and a two-byte trailer, the CRC byte first (30_encoding.md R67, R68). -/
def decodeTail2 (len : Nat) (rest : List Byte) (mk : List Byte → Byte → Byte → Instr) : Except Reject Instr :=
  match rest.drop len with
  | [k, x] => .ok (mk (rest.take len) k x)
  | _      => .error .wrongLength

/-- After `$ X dir`: the V2 header (30_encoding.md R65) and the rest of a V2-native frame (R66). -/
def decodeNative (dir : Direction) : List Byte → Except Reject Instr
  | flags :: c0 :: c1 :: l0 :: l1 :: rest =>
      decodeTail1 (u16le l0 l1).toNat rest (.frameV2Native dir flags (u16le c0 c1))
  | _ => .error .truncatedHead

/-- After `$ M dir` and a V1 header whose command is 255: the V2 header and the rest of a V2-over-V1 frame (R67). -/
def decodeV2OverV1 (dir : Direction) (v1Size : Byte) : List Byte → Except Reject Instr
  | flags :: c0 :: c1 :: l0 :: l1 :: rest =>
      if v1Size.toNat < 6 then .error .shortV2OverV1
      else decodeTail2 (u16le l0 l1).toNat rest (.frameV2OverV1 dir v1Size flags (u16le c0 c1))
  | _ => .error .truncatedHead

/-- After `$ M dir 255 255` and the jumbo field: the rest of a V2-over-V1 jumbo frame (R68). -/
def decodeV2OverV1Jumbo (dir : Direction) (v1Size : Half) : List Byte → Except Reject Instr
  | flags :: c0 :: c1 :: l0 :: l1 :: rest =>
      if v1Size.toNat < 255 then .error .shortJumbo
      else decodeTail2 (u16le l0 l1).toNat rest (.frameV2OverV1Jumbo dir v1Size flags (u16le c0 c1))
  | _ => .error .truncatedHead

/-- After `$ M dir 255 cmd`: the jumbo field, then one of the two jumbo layouts (R64, R68, R70). -/
def decodeJumbo (dir : Direction) (cmd : Byte) : List Byte → Except Reject Instr
  | j0 :: j1 :: rest =>
      if cmd = sentinel then decodeV2OverV1Jumbo dir (u16le j0 j1) rest
      else if (u16le j0 j1).toNat < 255 then .error .shortJumbo
      else decodeTail1 (u16le j0 j1).toNat rest (.frameV1Jumbo dir cmd)
  | _ => .error .truncatedHead

/-- After `$ M dir`: one of the four M-layouts, told apart by the size and command bytes (30_encoding.md R70). -/
def decodeM (dir : Direction) : List Byte → Except Reject Instr
  | size :: cmd :: rest =>
      if size = sentinel then decodeJumbo dir cmd rest
      else if cmd = sentinel then decodeV2OverV1 dir size rest
      else decodeTail1 size.toNat rest (.frameV1 dir cmd)
  | _ => .error .truncatedHead

/-- One whole wire frame, its layout decided in the order of 30_encoding.md R70. -/
def decodeWire : List Byte → Except Reject Instr
  | start :: magic :: d :: rest =>
      if start ≠ chDollar then .error .noStart
      else if magic ≠ chM ∧ magic ≠ chX then .error .badMagic
      else match dirOfByte d with
        | none     => .error .badDirection
        | some dir => if magic = chX then decodeNative dir rest else decodeM dir rest
  | _ => .error .truncatedHead

/-- The instruction that a presentation stands for. -/
def decode : Encoding → Except Reject Instr
  | .word w     => decodeWord w
  | .wire bytes => decodeWire bytes

/-! ### The encoder -/

/-- The V2 header, five bytes (30_encoding.md R65). -/
def v2Header (flags : Byte) (cmd : Half) (len : Half) : List Byte :=
  [flags, lo8 cmd, hi8 cmd, lo8 len, hi8 len]

/-- The bytes of a V1 frame (30_encoding.md R63). -/
def frameV1Bytes (dir : Direction) (cmd : Byte) (payload : List Byte) (checksum : Byte) : List Byte :=
  [chDollar, chM, dirByte dir, BitVec.ofNat 8 payload.length, cmd] ++ payload ++ [checksum]

/-- The bytes of a V1 jumbo frame (30_encoding.md R64). -/
def frameV1JumboBytes (dir : Direction) (cmd : Byte) (payload : List Byte) (checksum : Byte) : List Byte :=
  let len := BitVec.ofNat 16 payload.length
  [chDollar, chM, dirByte dir, sentinel, cmd, lo8 len, hi8 len] ++ payload ++ [checksum]

/-- The bytes of a V2-native frame (30_encoding.md R66). -/
def frameV2NativeBytes (dir : Direction) (flags : Byte) (cmd : Half) (payload : List Byte) (crc : Byte) :
    List Byte :=
  [chDollar, chX, dirByte dir] ++ v2Header flags cmd (BitVec.ofNat 16 payload.length) ++ payload ++ [crc]

/-- The bytes of a V2-over-V1 frame (30_encoding.md R67). -/
def frameV2OverV1Bytes (dir : Direction) (v1Size : Byte) (flags : Byte) (cmd : Half) (payload : List Byte)
    (crc checksum : Byte) : List Byte :=
  [chDollar, chM, dirByte dir, v1Size, sentinel] ++ v2Header flags cmd (BitVec.ofNat 16 payload.length) ++
    payload ++ [crc, checksum]

/-- The bytes of a V2-over-V1 jumbo frame (30_encoding.md R68). -/
def frameV2OverV1JumboBytes (dir : Direction) (v1Size : Half) (flags : Byte) (cmd : Half) (payload : List Byte)
    (crc checksum : Byte) : List Byte :=
  [chDollar, chM, dirByte dir, sentinel, sentinel, lo8 v1Size, hi8 v1Size] ++
    v2Header flags cmd (BitVec.ofNat 16 payload.length) ++ payload ++ [crc, checksum]

/-- A field of an operation word with its least significant bit at bit `lo` (30_encoding.md R74). -/
def field {n : Nat} (lo : Nat) (v : BitVec n) : Word := v.setWidth 32 <<< lo

/-- The presentation of an instruction: its operation word (30_encoding.md R74, R75) or its frame's bytes. -/
def encode : Instr → Encoding
  | .rd reg          => .word (field 28 0x1#4 ||| field 20 reg)
  | .wr reg val      => .word (field 28 0x2#4 ||| field 20 reg ||| field 0 val)
  | .ibr addr        => .word (field 28 0x3#4 ||| field 8 addr)
  | .plr addr        => .word (field 28 0x4#4 ||| field 8 addr)
  | .plw addr data   => .word (field 28 0x5#4 ||| field 8 addr ||| field 0 data)
  | .xorb byte       => .word (field 28 0x6#4 ||| field 0 byte)
  | .crcb byte       => .word (field 28 0x7#4 ||| field 0 byte)
  | .rxb byte        => .word (field 28 0x8#4 ||| field 0 byte)
  | .rxack           => .word (field 28 0x9#4)
  | .rxrst           => .word (field 28 0xA#4)
  | .txgo            => .word (field 28 0xB#4)
  | .txb             => .word (field 28 0xC#4)
  | .reserved0 rest  => .word (field 28 0x0#4 ||| field 0 rest)
  | .reservedD rest  => .word (field 28 0xD#4 ||| field 0 rest)
  | .reservedE rest  => .word (field 28 0xE#4 ||| field 0 rest)
  | .reservedF rest  => .word (field 28 0xF#4 ||| field 0 rest)
  | .frameV1 dir cmd payload checksum            => .wire (frameV1Bytes dir cmd payload checksum)
  | .frameV1Jumbo dir cmd payload checksum       => .wire (frameV1JumboBytes dir cmd payload checksum)
  | .frameV2Native dir flags cmd payload crc     => .wire (frameV2NativeBytes dir flags cmd payload crc)
  | .frameV2OverV1 dir v1Size flags cmd payload crc checksum =>
      .wire (frameV2OverV1Bytes dir v1Size flags cmd payload crc checksum)
  | .frameV2OverV1Jumbo dir v1Size flags cmd payload crc checksum =>
      .wire (frameV2OverV1JumboBytes dir v1Size flags cmd payload crc checksum)

/-! ### Words as spec/opcode_table.json numbers them -/

/-- The first `n` bytes of a number, the least significant first. -/
def leBytes (n w : Nat) : List Byte := (List.range n).map fun i => BitVec.ofNat 8 (w >>> (8 * i))

/-- How many bytes the frame that begins with these bytes has, by the size field of its innermost header
(30_encoding.md R70 and the totals of R63 to R68). -/
def frameLength (head : List Byte) : Nat :=
  let at8 (i : Nat) : Byte := head.getD i 0
  let at16 (i : Nat) : Nat := (u16le (at8 i) (at8 (i + 1))).toNat
  if at8 1 = chX then 9 + at16 6
  else if at8 3 = sentinel then
    if at8 4 = sentinel then 14 + at16 10 else 8 + at16 5
  else if at8 4 = sentinel then 12 + at16 8
  else 6 + (at8 3).toNat

/-- The presentation that an opcode-table word of `nbits` bits stands for: an operation word up to 32 bits, else the
bytes of a frame, first wire byte least significant, with zeros for the payload and trailer the table leaves out. -/
def tableEncoding (nbits w : Nat) : Encoding :=
  if nbits ≤ 32 then .word (BitVec.ofNat 32 (w % 2 ^ nbits))
  else
    let head := leBytes (nbits / 8) w
    .wire (head ++ List.replicate (frameLength head - head.length) 0)

/-- The instruction the decoder reads from a word of the opcode table. -/
def decodeTableWord (nbits w : Nat) : Option Instr :=
  match decode (tableEncoding nbits w) with
  | .ok i    => some i
  | .error _ => none

end Sys2Proof
end

