-- ==== Sys2Proof/Machine/State.lean ====
section
/-! DEFINITION. The state of one block instance as plain data (10_state.md R10): the three units, which share nothing
(00_scope.md R1), the fixed parameters, and the operation port with its inputs, responses and byte streams. -/

namespace Sys2Proof.Machine

/-! ### Enumerations -/

/-- The 14 receive states (10_state.md R13), in the order of 30_encoding.md R81. -/
inductive RxState where
  | idle
  | headerStart
  | headerM
  | headerX
  | headerV1
  | headerV2Native
  | headerV2OverV1
  | payloadV1
  | payloadV2OverV1
  | payloadV2Native
  | checksumV1
  | checksumV2OverV1
  | checksumV2Native
  | commandReceived
  deriving DecidableEq, Repr

/-- The wire version (10_state.md R14, R24; 30_encoding.md R82). The value 3 can never be held. -/
inductive WireVersion where
  | v1
  | v2OverV1
  | v2Native
  deriving DecidableEq, Repr

/-- The packet type of a received frame (10_state.md R15; 30_encoding.md R84). -/
inductive PacketType where
  | command
  | reply
  deriving DecidableEq, Repr

/-- The result of a reply (10_state.md R25; 30_encoding.md R83). -/
inductive ReplyResult where
  | ack
  | error
  | noReply
  | unknown
  deriving DecidableEq, Repr

/-! ### Buffers -/

/-- A byte array: the bytes written since the block reset, by index, in the canonical form of `Memory.Wf`. An index
that is not listed holds unspecified content (`Config.unwrittenByte`, assumption 3). -/
abbrev Memory := List Host.Cell

/-- The canonical form: indices strictly rising. An unlisted index reads as 'not written', which no entry equals. -/
abbrev Memory.Wf (m : Memory) : Prop := m.Pairwise fun a b => a.1 < b.1

/-- Every listed index lies inside an array of `n` bytes. -/
abbrev Memory.Below (n : Nat) (m : Memory) : Prop := ∀ c ∈ m, c.1 < n

/-! ### The three units -/

/-- The checksum unit: `ck_xor` (10_state.md R11) and `ck_crc` (R12). -/
structure ChecksumUnit where
  xor : Byte
  crc : Byte
  deriving DecidableEq, Repr

/-- The deframer: `rx_state` .. `in_buf` (10_state.md R13 to R23). `draw` is the model's own field (assumption 3): it
names the unspecified content of `rx_hdr` and `in_buf`. -/
structure Deframer where
  state   : RxState
  version : WireVersion
  ptype   : PacketType
  offset  : Half
  ck1     : Byte
  ck2     : Byte
  hdr     : Memory
  size    : Half
  cmd     : Half
  flags   : Byte
  inBuf   : Memory
  draw    : Nat
  deriving DecidableEq, Repr

/-- The reply encoder: `tx_version` .. `out_buf` (10_state.md R24 to R31). `draw` is the model's own field
(assumption 3): it names the unspecified content of `out_buf`. -/
structure Encoder where
  version : WireVersion
  result  : ReplyResult
  cmd     : Half
  flags   : Byte
  len     : Half
  busy    : Bool
  pos     : BitVec 17
  outBuf  : Memory
  draw    : Nat
  deriving DecidableEq, Repr

/-! ### The port -/

/-- Why an operation is refused (60_exceptions.md R202). The cause is kept for the reader; it is not visible at the
port (30_encoding.md R77) and no operation reads it. -/
inductive RefusalCause where
  | illegalOp
  | badRegister
  | readOnly
  | badValue
  | badAddress
  | txBusy
  | txIdle
  | rxPacketPending
  | rxNoPacket
  deriving DecidableEq, Repr

/-- Why the deframer aborts a frame, E1 to E7 (60_exceptions.md R201). Names for the reader: the block neither stores
nor reports them. -/
inductive AbortCause where
  | badMagic
  | badDirection
  | v1SizeOverCapacity
  | v2OverV1TooShort
  | v2SizeOverCapacity
  | xorMismatch
  | crcMismatch
  deriving DecidableEq, Repr

/-- The response to one operation (30_encoding.md R77). -/
inductive Response where
  | ok (data : Word)
  | refused (cause : RefusalCause)
  deriving DecidableEq, Repr

/-- What the outside presents next: an instruction (an operation word, or the bytes of a wire frame one after another,
the pseudo-operation `RXFRAME` of 30_encoding.md R79), or the block reset, which is an input of the block's
environment applied between operations (70_reset_and_hazards.md R220). -/
inductive Input where
  | present (e : Encoding)
  | blockReset
  deriving DecidableEq, Repr

/-! ### The whole state -/

/-- The state of one block instance. `cfg` is fixed: no step writes it (10_state.md R10). `pending` is what the
outside presents, oldest first; `responses`, `rxs` and `txs` are the port's outputs so far, oldest first: the responses
(30_encoding.md R77), the received bytes consumed and the frame bytes produced (20_memory.md R40). -/
structure State where
  cfg       : Config
  ck        : ChecksumUnit
  rx        : Deframer
  tx        : Encoder
  pending   : List Input
  responses : List Response
  rxs       : List Byte
  txs       : List Byte
  deriving DecidableEq, Repr

/-! ### Reset values -/

/-- The checksum unit after the block reset (10_state.md R11, R12). -/
def ChecksumUnit.reset : ChecksumUnit := { xor := 0x00, crc := 0x00 }

/-- The deframer after the block reset (10_state.md R13 to R23): `rx_hdr` and `in_buf` unspecified. -/
def Deframer.reset (draw : Nat) : Deframer :=
  { state := .idle, version := .v1, ptype := .command, offset := 0, ck1 := 0x00, ck2 := 0x00, hdr := [], size := 0,
    cmd := 0, flags := 0, inBuf := [], draw := draw }

/-- The encoder after the block reset (10_state.md R24 to R31): `out_buf` unspecified. -/
def Encoder.reset (draw : Nat) : Encoder :=
  { version := .v1, result := .noReply, cmd := 0, flags := 0, len := 0, busy := false, pos := 0, outBuf := [],
    draw := draw }

/-- A block with the given parameters right after its first block reset (70_reset_and_hazards.md R220): nothing is
presented yet and nothing has been answered. -/
def State.resetWith (cfg : Config) : State :=
  { cfg := cfg, ck := ChecksumUnit.reset, rx := Deframer.reset 0, tx := Encoder.reset 0, pending := [],
    responses := [], rxs := [], txs := [] }

/-- A block with the default parameters (00_scope.md R5, R6) right after reset. -/
def State.reset : State := State.resetWith Config.standard

/-! ### How a step can stop -/

/-- What stops the machine. The spec has no such event (60_exceptions.md R200): each constructor is a bounds check of
the model on a state that no run reaches (assumption 7), so each is safe. -/
inductive Fault where
  /-- Raised by `RXB` in a header state when `rx_offset` lies outside `rx_hdr[0..4]`. Safe. -/
  | headerOverrun
  /-- Raised by `RXB` in a payload state when `rx_offset` lies outside `in_buf[0..IN_CAP-1]`. Safe. -/
  | inBufOverrun
  /-- Raised by `TXB` when `tx_pos` lies outside the frame. Safe. -/
  | frameOverrun
  deriving DecidableEq, Repr

/-- Why the model gives no meaning. A refusal in the spec's sense (60_exceptions.md R202) is NOT one of these: it is a
next state whose response is `Response.refused`. -/
inductive Refusal where
  /-- Raised by `exec` alone, for an instruction whose arm has no meaning yet. Safe. No arm uses it. -/
  | notModelled (mnemonic : String)
  deriving DecidableEq, Repr

/-- The outcome of a step of this machine. -/
abbrev Outcome := Host.Outcome State Fault Refusal

end Sys2Proof.Machine
end

