-- ==== Sys2Proof/Machine/Ops.lean ====
section
/-! DEFINITION. The named operations: reading and writing the byte arrays, answering an operation, and the two abnormal
events of 60_exceptions.md, the operation refusal (R202) and the framing abort (R205), each as one shared operation. -/

namespace Sys2Proof.Machine

/-! ### Byte arrays -/

/-- The byte written at an index since the block reset, if any. -/
def memLookup : Memory → Nat → Option Byte
  | [], _ => none
  | (k, x) :: m, a => if a = k then some x else memLookup m a

/-- Write one byte (`MemWrite(space, addr, 1, v)`, 00_scope.md section 7), keeping the indices strictly rising. -/
def memStore : Memory → Nat → Byte → Memory
  | [], a, v => [(a, v)]
  | (k, x) :: m, a, v =>
      if a < k then (a, v) :: (k, x) :: m
      else if a = k then (a, v) :: m
      else (k, x) :: memStore m a v

/-- Read one byte (`MemRead(space, addr, 1)`): the byte written there, else the array's unspecified content
(93_implementation_defined.md U6; assumption 3). That a byte written there reads back beyond the current length too is
assumption 14. -/
def memRead (space : Space) (draw : Nat) (m : Memory) (a : Nat) : Byte :=
  (memLookup m a).getD (Config.unwrittenByte space draw a)

/-- `rx_hdr[i]` (10_state.md R19). -/
def hdrByte (d : Deframer) (i : Nat) : Byte := memRead .header d.draw d.hdr i

/-- `in_buf[i]` (10_state.md R23). DESIGN CHOICE (assumption 14): a byte at `rx_size` and above is the one an earlier
frame left there, as R23 says, where 93_implementation_defined.md U6 and 92_eei_decisions.md D23 allow any value. -/
def inByte (d : Deframer) (i : Nat) : Byte := memRead .inBuf d.draw d.inBuf i

/-- `out_buf[i]` (10_state.md R31). DESIGN CHOICE (assumption 14): a byte at `tx_len` and above is the one last written
there, where 93_implementation_defined.md U6 and 92_eei_decisions.md D23 allow any value. -/
def outByte (e : Encoder) (i : Nat) : Byte := memRead .outBuf e.draw e.outBuf i

/-! ### Updates of the state -/

def State.setCk (s : State) (c : ChecksumUnit) : State := { s with ck := c }
def State.setRx (s : State) (d : Deframer) : State := { s with rx := d }
def State.setTx (s : State) (e : Encoder) : State := { s with tx := e }

/-- Put the response of one operation on the port. -/
def State.answer (s : State) (r : Response) : State := { s with responses := s.responses ++ [r] }

/-- One byte of the received stream is consumed (20_memory.md R40, `RXS`). -/
def State.consume (s : State) (b : Byte) : State := { s with rxs := s.rxs ++ [b] }

/-- One byte of the transmitted stream is produced (20_memory.md R40, `TXS`). -/
def State.produce (s : State) (b : Byte) : State := { s with txs := s.txs ++ [b] }

/-- Replace what the outside presents. -/
def State.setPending (s : State) (p : List Input) : State := { s with pending := p }

/-! ### Completing, refusing, aborting -/

/-- `respond(data)` (00_scope.md section 7): the operation completes with `ok = 1`. -/
def respond (data : Word) (s : State) : Outcome := .next (s.answer (.ok data))

/-- `raise Refused(cause)` (00_scope.md section 7; 60_exceptions.md R202): no register or buffer changes, the response
has `ok = 0`, and the machine goes on (R206). -/
def refuse (cause : RefusalCause) (s : State) : Outcome := .next (s.answer (.refused cause))

/-- `abort(cause)` (00_scope.md section 7; 60_exceptions.md R205): `rx_state <- Idle`, nothing else. -/
def abortEntry (d : Deframer) : Deframer := { d with state := .idle }

/-- Go on with the next state of an outcome, or stop as it stops. -/
def andThen (o : Outcome) (f : State → Outcome) : Outcome :=
  match o with
  | .next s    => f s
  | .fault r   => .fault r
  | .refused r => .refused r

/-! ### The block reset -/

/-- The block reset (70_reset_and_hazards.md R220): every register at its reset value, the content of `rx_hdr`,
`in_buf` and `out_buf` unspecified anew. The parameters and the port's history are not registers and stay. -/
def blockReset (s : State) : State :=
  { s with
    ck := ChecksumUnit.reset
    rx := Deframer.reset (s.rx.draw + 1)
    tx := Encoder.reset (s.tx.draw + 1) }

end Sys2Proof.Machine
end

