-- ==== Sys2Proof/Machine/Operands.lean ====
section
/-! DEFINITION. The operands of the access operations: the numbers of the enumerations (30_encoding.md R81 to R84) and
the numbered register file (10_state.md R32): numbers, access rights, legal values, reading and writing. -/

namespace Sys2Proof.Machine

/-! ### Enumerations -/

/-- The numbers of the receive states (30_encoding.md R81). -/
def rxStateNumber : RxState → Nat
  | .idle => 0
  | .headerStart => 1
  | .headerM => 2
  | .headerX => 3
  | .headerV1 => 4
  | .headerV2Native => 5
  | .headerV2OverV1 => 6
  | .payloadV1 => 7
  | .payloadV2OverV1 => 8
  | .payloadV2Native => 9
  | .checksumV1 => 10
  | .checksumV2OverV1 => 11
  | .checksumV2Native => 12
  | .commandReceived => 13

/-- The numbers of the wire versions (30_encoding.md R82). -/
def versionNumber : WireVersion → Nat
  | .v1 => 0
  | .v2OverV1 => 1
  | .v2Native => 2

/-- The wire version a number stands for; 3 and above stand for none (R82). -/
def versionOf : Nat → Option WireVersion
  | 0 => some .v1
  | 1 => some .v2OverV1
  | 2 => some .v2Native
  | _ => none

/-- The numbers of the results (30_encoding.md R83). -/
def resultNumber : ReplyResult → Nat
  | .ack => 0
  | .error => 1
  | .noReply => 2
  | .unknown => 3

/-- The result a number stands for (R83). -/
def resultOf : Nat → Option ReplyResult
  | 0 => some .ack
  | 1 => some .error
  | 2 => some .noReply
  | 3 => some .unknown
  | _ => none

/-- The numbers of the packet types (30_encoding.md R84). -/
def packetTypeNumber : PacketType → Nat
  | .command => 0
  | .reply => 1

/-! ### The register file -/

/-- The mapped registers (10_state.md R32). -/
inductive Reg where
  | ckXor
  | ckCrc
  | cfgInCap
  | cfgOutCap
  | rxState
  | rxVersion
  | rxPtype
  | rxCmd
  | rxFlags
  | rxSize
  | rxOffset
  | rxCk1
  | rxCk2
  | txVersion
  | txResult
  | txCmd
  | txFlags
  | txLen
  | txBusy
  | txPos
  deriving DecidableEq, Repr

/-- The register numbers (10_state.md R32). -/
def regNumber : Reg → BitVec 8
  | .ckXor => 0x00
  | .ckCrc => 0x01
  | .cfgInCap => 0x02
  | .cfgOutCap => 0x03
  | .rxState => 0x10
  | .rxVersion => 0x11
  | .rxPtype => 0x12
  | .rxCmd => 0x13
  | .rxFlags => 0x14
  | .rxSize => 0x15
  | .rxOffset => 0x16
  | .rxCk1 => 0x17
  | .rxCk2 => 0x18
  | .txVersion => 0x20
  | .txResult => 0x21
  | .txCmd => 0x22
  | .txFlags => 0x23
  | .txLen => 0x24
  | .txBusy => 0x25
  | .txPos => 0x26

/-- Every mapped register, in the order of the table of 10_state.md R32. -/
def allRegs : List Reg :=
  [.ckXor, .ckCrc, .cfgInCap, .cfgOutCap, .rxState, .rxVersion, .rxPtype, .rxCmd, .rxFlags, .rxSize, .rxOffset,
    .rxCk1, .rxCk2, .txVersion, .txResult, .txCmd, .txFlags, .txLen, .txBusy, .txPos]

/-- The register a number is mapped to; "every number not in the table is unmapped" (10_state.md R32). -/
def regOf (n : BitVec 8) : Option Reg := allRegs.find? fun r => regNumber r == n

/-- Access `RO` of the table of 10_state.md R32. -/
def regReadOnly : Reg → Bool
  | .ckXor | .ckCrc | .txVersion | .txResult | .txCmd | .txFlags | .txLen => false
  | .cfgInCap | .cfgOutCap | .rxState | .rxVersion | .rxPtype | .rxCmd | .rxFlags | .rxSize | .rxOffset | .rxCk1
  | .rxCk2 | .txBusy | .txPos => true

/-- The descriptor registers, which `tx_busy` freezes (10_state.md R32 "not while tx_busy"; 42_encoder.md R160). -/
def regDescriptor : Reg → Bool
  | .txVersion | .txResult | .txCmd | .txFlags | .txLen => true
  | .ckXor | .ckCrc | .cfgInCap | .cfgOutCap | .rxState | .rxVersion | .rxPtype | .rxCmd | .rxFlags | .rxSize
  | .rxOffset | .rxCk1 | .rxCk2 | .txBusy | .txPos => false

/-- The value of a register, zero-extended to 32 bits (10_state.md R32). -/
def regRead (r : Reg) (s : State) : Word :=
  match r with
  | .ckXor => s.ck.xor.setWidth 32
  | .ckCrc => s.ck.crc.setWidth 32
  | .cfgInCap => BitVec.ofNat 32 s.cfg.inCap
  | .cfgOutCap => BitVec.ofNat 32 s.cfg.outCap
  | .rxState => BitVec.ofNat 32 (rxStateNumber s.rx.state)
  | .rxVersion => BitVec.ofNat 32 (versionNumber s.rx.version)
  | .rxPtype => BitVec.ofNat 32 (packetTypeNumber s.rx.ptype)
  | .rxCmd => s.rx.cmd.setWidth 32
  | .rxFlags => s.rx.flags.setWidth 32
  | .rxSize => s.rx.size.setWidth 32
  | .rxOffset => s.rx.offset.setWidth 32
  | .rxCk1 => s.rx.ck1.setWidth 32
  | .rxCk2 => s.rx.ck2.setWidth 32
  | .txVersion => BitVec.ofNat 32 (versionNumber s.tx.version)
  | .txResult => BitVec.ofNat 32 (resultNumber s.tx.result)
  | .txCmd => s.tx.cmd.setWidth 32
  | .txFlags => s.tx.flags.setWidth 32
  | .txLen => s.tx.len.setWidth 32
  | .txBusy => (BitVec.ofBool s.tx.busy).setWidth 32
  | .txPos => s.tx.pos.setWidth 32

/-- An 8-bit register takes a value up to 255 and is never given a truncated one (43_host_access.md R181). -/
def byteValue (val : Half) : Option Byte := if val.toNat ≤ 255 then some (lo8 val) else none

/-- `REG[reg] <- val` when `val` is a legal value of `reg`, else nothing (43_host_access.md R181, legal values).
A read-only register takes no value. -/
def regWrite (r : Reg) (val : Half) (s : State) : Option State :=
  match r with
  | .ckXor     => (byteValue val).map fun v => s.setCk { s.ck with xor := v }
  | .ckCrc     => (byteValue val).map fun v => s.setCk { s.ck with crc := v }
  | .txVersion => (versionOf val.toNat).map fun v => s.setTx { s.tx with version := v }
  | .txResult  => (resultOf val.toNat).map fun v => s.setTx { s.tx with result := v }
  | .txCmd     => some (s.setTx { s.tx with cmd := val })
  | .txFlags   => (byteValue val).map fun v => s.setTx { s.tx with flags := v }
  | .txLen     => if val.toNat ≤ s.cfg.outCap then some (s.setTx { s.tx with len := val }) else none
  | .cfgInCap | .cfgOutCap | .rxState | .rxVersion | .rxPtype | .rxCmd | .rxFlags | .rxSize | .rxOffset | .rxCk1
  | .rxCk2 | .txBusy | .txPos => none

end Sys2Proof.Machine
end

