-- ==== Sys2Proof/Machine/Flags.lean ====
section
/-! DEFINITION. The block has no status flags or condition codes (10_state.md R35). What a host tests instead: the two
polled conditions of R35, and the fields of a response as the port shows them (30_encoding.md R77). -/

namespace Sys2Proof.Machine

/-- "a packet is ready": `rx_state = CommandReceived` (10_state.md R35, R37). -/
def packetReady (s : State) : Bool := s.rx.state == .commandReceived

/-- "a frame is being sent": `tx_busy` (10_state.md R35, R29). -/
def sending (s : State) : Bool := s.tx.busy

/-- The `ok` bit of a response (30_encoding.md R77). -/
def okBit : Response → Bool
  | .ok _      => true
  | .refused _ => false

/-- The `data` field of a response; a refusal shows 0 and hides its cause (30_encoding.md R77). -/
def dataField : Response → Word
  | .ok data   => data
  | .refused _ => 0

/-- `data[8]` of the response of `TXB`: 1 with the last byte of a frame (42_encoder.md R158). -/
def lastBit (r : Response) : Bool := (dataField r).getLsbD 8

end Sys2Proof.Machine
end

