-- ==== Sys2Proof/Machine/Checksum.lean ====
section
/-! DEFINITION. The checksum unit (40_checksum.md): the three functions, used by all units (R99), and the operations
`XORB` and `CRCB` on the stand-alone accumulators. -/

namespace Sys2Proof.Machine

/-- `xorChecksum(seed, bytes)`: running XOR fold (40_checksum.md R90). -/
def xorChecksum : Byte → List Byte → Byte
  | seed, []      => seed
  | seed, b :: bs => xorChecksum (seed ^^^ b) bs

/-- `POLY`, the CRC-8 polynomial x^8 + x^7 + x^6 + x^4 + x^2 + 1 without its leading term (00_scope.md R7). -/
def crcPoly : Byte := 0xD5

/-- One shift step of the CRC: the bit leaving position 7 decides whether the polynomial is XORed in (40_checksum.md
R91). -/
def crcShift (c : Byte) : Byte := if c.getLsbD 7 then (c <<< 1) ^^^ crcPoly else c <<< 1

/-- `n` shift steps. -/
def crcShifts : Nat → Byte → Byte
  | 0, c     => c
  | n + 1, c => crcShifts n (crcShift c)

/-- `crc8Dvb(seed, byte)`: 8 shift steps on `seed ^ byte` (40_checksum.md R91). -/
def crc8Dvb (seed byte : Byte) : Byte := crcShifts 8 (seed ^^^ byte)

/-- `crc8DvbUpdate(seed, bytes)`: folds a byte range (40_checksum.md R92). -/
def crc8DvbUpdate : Byte → List Byte → Byte
  | seed, []      => seed
  | seed, b :: bs => crc8DvbUpdate (crc8Dvb seed b) bs

/-- `XORB byte` (40_checksum.md R96). -/
def execXorb (byte : Byte) (s : State) : Outcome :=
  let new := s.ck.xor ^^^ byte
  respond (new.setWidth 32) (s.setCk { s.ck with xor := new })

/-- `CRCB byte` (40_checksum.md R97). -/
def execCrcb (byte : Byte) (s : State) : Outcome :=
  let new := crc8Dvb s.ck.crc byte
  respond (new.setWidth 32) (s.setCk { s.ck with crc := new })

end Sys2Proof.Machine
end

