-- ==== Sys2Proof/Machine/Deframer.lean ====
section
/-! DEFINITION. The deframer (41_deframer.md): one rule per receive state (R111 to R123), the operation `RXB` (R110,
R124), `RXACK` (R125) and `RXRST` (R126). -/

namespace Sys2Proof.Machine

/-- What a state's rule does with one byte: the deframer after it, or a framing abort by name with the deframer as the
rule's earlier statements left it (60_exceptions.md R205), or an index that no reachable state has (assumption 7). -/
inductive RxMove where
  | go (d : Deframer)
  | abort (cause : AbortCause) (d : Deframer)
  | overrun (f : Fault)
  deriving DecidableEq, Repr

/-- `rx_state = Idle` (41_deframer.md R111). -/
def rxIdle (b : Byte) (d : Deframer) : RxMove :=
  if b = chDollar then .go { d with state := .headerStart } else .go { d with state := .idle }

/-- `rx_state = HeaderStart` (41_deframer.md R112). -/
def rxHeaderStart (b : Byte) (d : Deframer) : RxMove :=
  if b = chM then .go { d with version := .v1, state := .headerM }
  else if b = chX then .go { d with version := .v2Native, state := .headerX }
  else .abort .badMagic d

/-- The expect-direction rule of R113 and R114, which differ in the state they enter. -/
def rxDirection (next : RxState) (b : Byte) (d : Deframer) : RxMove :=
  if b = chLess ∨ b = chGreater then
    .go { d with
      ptype := if b = chLess then .command else .reply
      offset := 0
      ck1 := 0
      ck2 := 0
      state := next }
  else .abort .badDirection d

/-- `rx_state = HeaderM` (41_deframer.md R113). -/
def rxHeaderM (b : Byte) (d : Deframer) : RxMove := rxDirection .headerV1 b d

/-- `rx_state = HeaderX` (41_deframer.md R114). -/
def rxHeaderX (b : Byte) (d : Deframer) : RxMove := rxDirection .headerV2Native b d

/-- `rx_hdr[rx_offset] <- b;  rx_offset <- rx_offset + 1` (R115 to R117), inside `rx_hdr[0..4]`. -/
def stageHeader (b : Byte) (d : Deframer) : Option Deframer :=
  if d.offset.toNat < 5 then
    some { d with hdr := memStore d.hdr d.offset.toNat b, offset := d.offset + 1 }
  else none

/-- `MemWrite(IN, rx_offset, 1, b);  rx_offset <- rx_offset + 1` (R118 to R120), inside `in_buf[0..IN_CAP-1]`. -/
def stagePayload (cap : Nat) (b : Byte) (d : Deframer) : Option Deframer :=
  if d.offset.toNat < cap then
    some { d with inBuf := memStore d.inBuf d.offset.toNat b, offset := d.offset + 1 }
  else none

/-- Fold a byte into checksum-1 (10_state.md R17). -/
def foldCk1 (b : Byte) (d : Deframer) : Deframer := { d with ck1 := d.ck1 ^^^ b }

/-- Fold a byte into checksum-2 (10_state.md R18). -/
def foldCk2 (b : Byte) (d : Deframer) : Deframer := { d with ck2 := crc8Dvb d.ck2 b }

/-- The V1 header is complete (41_deframer.md R115): over-capacity, then sentinel, then plain V1. -/
def v1HeaderDone (cap : Nat) (d : Deframer) : RxMove :=
  let size := hdrByte d 0
  let cmd := hdrByte d 1
  if cap < size.toNat then .abort .v1SizeOverCapacity d
  else if cmd = sentinel then
    if 6 ≤ size.toNat then .go { d with version := .v2OverV1, offset := 0, state := .headerV2OverV1 }
    else .abort .v2OverV1TooShort d
  else
    .go { d with
      size := size.setWidth 16
      cmd := cmd.setWidth 16
      flags := 0
      offset := 0
      state := if 0 < size.toNat then .payloadV1 else .checksumV1 }

/-- `rx_state = HeaderV1` (41_deframer.md R115). -/
def rxHeaderV1 (cap : Nat) (b : Byte) (d : Deframer) : RxMove :=
  match stageHeader b d with
  | none => .overrun .headerOverrun
  | some d' => if d'.offset = 2 then v1HeaderDone cap (foldCk1 b d') else .go (foldCk1 b d')

/-- The V2 header is complete (41_deframer.md R116, R117): over-capacity, else record flags, command and size. -/
def v2HeaderDone (cap : Nat) (payload checksum : RxState) (d : Deframer) : RxMove :=
  let size := u16le (hdrByte d 3) (hdrByte d 4)
  if cap < size.toNat then .abort .v2SizeOverCapacity d
  else
    .go { d with
      flags := hdrByte d 0
      cmd := u16le (hdrByte d 1) (hdrByte d 2)
      size := size
      offset := 0
      state := if 0 < size.toNat then payload else checksum }

/-- `rx_state = HeaderV2OverV1` (41_deframer.md R116). -/
def rxHeaderV2OverV1 (cap : Nat) (b : Byte) (d : Deframer) : RxMove :=
  match stageHeader b d with
  | none => .overrun .headerOverrun
  | some d' =>
      let d'' := foldCk2 b (foldCk1 b d')
      if d''.offset = 5 then v2HeaderDone cap .payloadV2OverV1 .checksumV2OverV1 d'' else .go d''

/-- `rx_state = HeaderV2Native` (41_deframer.md R117): no XOR layer. -/
def rxHeaderV2Native (cap : Nat) (b : Byte) (d : Deframer) : RxMove :=
  match stageHeader b d with
  | none => .overrun .headerOverrun
  | some d' =>
      let d'' := foldCk2 b d'
      if d''.offset = 5 then v2HeaderDone cap .payloadV2Native .checksumV2Native d'' else .go d''

/-- After a payload byte: the checksum state when the declared length is reached (R118 to R120). -/
def payloadDone (checksum : RxState) (d : Deframer) : RxMove :=
  if d.offset = d.size then .go { d with state := checksum } else .go d

/-- `rx_state = PayloadV1` (41_deframer.md R118). -/
def rxPayloadV1 (cap : Nat) (b : Byte) (d : Deframer) : RxMove :=
  match stagePayload cap b d with
  | none => .overrun .inBufOverrun
  | some d' => payloadDone .checksumV1 (foldCk1 b d')

/-- `rx_state = PayloadV2OverV1` (41_deframer.md R119). -/
def rxPayloadV2OverV1 (cap : Nat) (b : Byte) (d : Deframer) : RxMove :=
  match stagePayload cap b d with
  | none => .overrun .inBufOverrun
  | some d' => payloadDone .checksumV2OverV1 (foldCk2 b (foldCk1 b d'))

/-- `rx_state = PayloadV2Native` (41_deframer.md R120): no XOR layer. -/
def rxPayloadV2Native (cap : Nat) (b : Byte) (d : Deframer) : RxMove :=
  match stagePayload cap b d with
  | none => .overrun .inBufOverrun
  | some d' => payloadDone .checksumV2Native (foldCk2 b d')

/-- `rx_state = ChecksumV1` (41_deframer.md R121). -/
def rxChecksumV1 (b : Byte) (d : Deframer) : RxMove :=
  if b = d.ck1 then .go { d with state := .commandReceived } else .abort .xorMismatch d

/-- `rx_state = ChecksumV2OverV1`, the inner CRC check (41_deframer.md R122): the XOR is done on both paths. -/
def rxChecksumV2OverV1 (b : Byte) (d : Deframer) : RxMove :=
  if b = d.ck2 then .go { foldCk1 b d with state := .checksumV1 } else .abort .crcMismatch (foldCk1 b d)

/-- `rx_state = ChecksumV2Native` (41_deframer.md R123). -/
def rxChecksumV2Native (b : Byte) (d : Deframer) : RxMove :=
  if b = d.ck2 then .go { d with state := .commandReceived } else .abort .crcMismatch d

/-- The one rule that matches `rx_state`. In `CommandReceived` there is none: the byte is refused before this
(41_deframer.md R110, R124). -/
def rxRule (cap : Nat) (b : Byte) (d : Deframer) : Option RxMove :=
  match d.state with
  | .idle             => some (rxIdle b d)
  | .headerStart      => some (rxHeaderStart b d)
  | .headerM          => some (rxHeaderM b d)
  | .headerX          => some (rxHeaderX b d)
  | .headerV1         => some (rxHeaderV1 cap b d)
  | .headerV2Native   => some (rxHeaderV2Native cap b d)
  | .headerV2OverV1   => some (rxHeaderV2OverV1 cap b d)
  | .payloadV1        => some (rxPayloadV1 cap b d)
  | .payloadV2OverV1  => some (rxPayloadV2OverV1 cap b d)
  | .payloadV2Native  => some (rxPayloadV2Native cap b d)
  | .checksumV1       => some (rxChecksumV1 b d)
  | .checksumV2OverV1 => some (rxChecksumV2OverV1 b d)
  | .checksumV2Native => some (rxChecksumV2Native b d)
  | .commandReceived  => none

/-- The deframer takes a byte: it is consumed and the response shows the new receive state (41_deframer.md R110). -/
def acceptByte (b : Byte) (d : Deframer) (s : State) : Outcome :=
  respond (BitVec.ofNat 32 (rxStateNumber d.state)) ((s.setRx d).consume b)

/-- Present one received byte to the state machine (41_deframer.md R110): refused while a packet is pending (R124),
else one transition. An abort completes with `ok = 1` (60_exceptions.md R205). -/
def presentByte (b : Byte) (s : State) : Outcome :=
  match rxRule s.cfg.inCap b s.rx with
  | none              => refuse .rxPacketPending s
  | some (.go d)      => acceptByte b d s
  | some (.abort _ d) => acceptByte b (abortEntry d) s
  | some (.overrun f) => .fault f

/-- Present bytes one after another: the pseudo-operation `RXFRAME` (30_encoding.md R79). -/
def presentBytes : List Byte → State → Outcome
  | [], s      => .next s
  | b :: bs, s => andThen (presentByte b s) (presentBytes bs)

/-- `RXB byte` (41_deframer.md R110 to R124). -/
def execRxb (byte : Byte) (s : State) : Outcome := presentByte byte s

/-- `RXACK` (41_deframer.md R125): nothing but `rx_state` changes. -/
def execRxack (s : State) : Outcome :=
  if packetReady s then respond 0 (s.setRx { s.rx with state := .idle }) else refuse .rxNoPacket s

/-- `RXRST` (41_deframer.md R126): nothing but `rx_state` changes; never refused. -/
def execRxrst (s : State) : Outcome := respond 0 (s.setRx { s.rx with state := .idle })

end Sys2Proof.Machine
end

