-- ==== Sys2Proof/Machine/Encoder.lean ====
section
/-! DEFINITION. The reply encoder (42_encoder.md): the frame function (R150 to R155) and the operations `TXGO` (R157)
and `TXB` (R158). -/

namespace Sys2Proof.Machine

/-- The direction byte of a reply (42_encoder.md R151); `NoReply` and `Unknown` send nothing (R152). -/
def replyDirection : ReplyResult → Option Byte
  | .ack     => some chGreater
  | .error   => some chBang
  | .noReply => none
  | .unknown => none

/-- The V1 serializer (42_encoder.md R153): the plain layout below 255 payload bytes, else the jumbo layout. -/
def frameV1Of (dir : Byte) (cmd : Half) (payload : List Byte) : List Byte :=
  let len := payload.length
  let c8 := lo8 cmd
  let hdr :=
    if len < 255 then [chDollar, chM, dir, BitVec.ofNat 8 len, c8]
    else [chDollar, chM, dir, sentinel, c8, lo8 (BitVec.ofNat 16 len), hi8 (BitVec.ofNat 16 len)]
  let ck1 := xorChecksum 0 (hdr.drop 3 ++ payload)
  hdr ++ payload ++ [ck1]

/-- The V2-over-V1 serializer (42_encoder.md R154): the jumbo threshold is on `T = 6 + L`. -/
def frameV2OverV1Of (dir : Byte) (cmd : Half) (flags : Byte) (payload : List Byte) : List Byte :=
  let len := payload.length
  let total := 6 + len
  let v2h := v2Header flags cmd (BitVec.ofNat 16 len)
  let hdr :=
    (if total < 255 then [chDollar, chM, dir, BitVec.ofNat 8 total, sentinel]
     else [chDollar, chM, dir, sentinel, sentinel, lo8 (BitVec.ofNat 16 total), hi8 (BitVec.ofNat 16 total)]) ++ v2h
  let ck2 := crc8DvbUpdate 0 (v2h ++ payload)
  let ck1 := xorChecksum 0 (hdr.drop 3 ++ payload ++ [ck2])
  hdr ++ payload ++ [ck2, ck1]

/-- The V2-native serializer (42_encoder.md R155). -/
def frameV2NativeOf (dir : Byte) (cmd : Half) (flags : Byte) (payload : List Byte) : List Byte :=
  let v2h := v2Header flags cmd (BitVec.ofNat 16 payload.length)
  let ck2 := crc8DvbUpdate 0 (v2h ++ payload)
  [chDollar, chX, dir] ++ v2h ++ payload ++ [ck2]

/-- `frame(version, result, cmd, flags, payload)` (42_encoder.md R150, R152). -/
def frame (version : WireVersion) (result : ReplyResult) (cmd : Half) (flags : Byte) (payload : List Byte) :
    List Byte :=
  match replyDirection result with
  | none => []
  | some dir =>
      match version with
      | .v1       => frameV1Of dir cmd payload
      | .v2OverV1 => frameV2OverV1Of dir cmd flags payload
      | .v2Native => frameV2NativeOf dir cmd flags payload

/-- `out_buf[0 .. tx_len)`, the payload of the reply (10_state.md R28). -/
def replyPayload (e : Encoder) : List Byte := (List.range e.len.toNat).map (outByte e)

/-- `FRAME`: the frame the descriptor and the payload buffer describe (42_encoder.md R150). -/
def replyFrame (e : Encoder) : List Byte := frame e.version e.result e.cmd e.flags (replyPayload e)

/-- `TXGO` (42_encoder.md R157). -/
def execTxgo (s : State) : Outcome :=
  if sending s then refuse .txBusy s
  else match replyDirection s.tx.result with
    | none => respond 0 s
    | some _ =>
        respond (BitVec.ofNat 32 (replyFrame s.tx).length) (s.setTx { s.tx with busy := true, pos := 0 })

/-- `TXB` (42_encoder.md R158): `data[7:0]` is the byte, `data[8]` is `last`. -/
def execTxb (s : State) : Outcome :=
  if sending s then
    let whole := replyFrame s.tx
    match whole[s.tx.pos.toNat]? with
    | none => .fault .frameOverrun
    | some byte =>
        let last := s.tx.pos.toNat + 1 == whole.length
        respond (byte.setWidth 32 ||| (BitVec.ofBool last).setWidth 32 <<< 8)
          ((s.setTx { s.tx with pos := s.tx.pos + 1, busy := !last }).produce byte)
  else refuse .txIdle s

end Sys2Proof.Machine
end

