-- ==== Sys2Proof/Machine/Access.lean ====
section
/-! DEFINITION. Register and buffer access (43_host_access.md): `RD`, `WR`, `IBR`, `PLR`, `PLW`. -/

namespace Sys2Proof.Machine

/-- `RD reg` (43_host_access.md R180). -/
def execRd (reg : BitVec 8) (s : State) : Outcome :=
  match regOf reg with
  | none   => refuse .badRegister s
  | some r => respond (regRead r s) s

/-- `WR reg, val` (43_host_access.md R181): unmapped, read-only, busy, bad value, in this order (60_exceptions.md
R203 d). -/
def execWr (reg : BitVec 8) (val : Half) (s : State) : Outcome :=
  match regOf reg with
  | none => refuse .badRegister s
  | some r =>
      if regReadOnly r then refuse .readOnly s
      else if regDescriptor r && sending s then refuse .txBusy s
      else match regWrite r val s with
        | none    => refuse .badValue s
        | some s' => respond 0 s'

/-- `IBR addr` (43_host_access.md R182). -/
def execIbr (addr : Half) (s : State) : Outcome :=
  if addr.toNat < s.cfg.inCap then respond ((inByte s.rx addr.toNat).setWidth 32) s else refuse .badAddress s

/-- `PLR addr` (43_host_access.md R183). -/
def execPlr (addr : Half) (s : State) : Outcome :=
  if addr.toNat < s.cfg.outCap then respond ((outByte s.tx addr.toNat).setWidth 32) s else refuse .badAddress s

/-- `PLW addr, data` (43_host_access.md R184): busy before bad address (60_exceptions.md R203 e). -/
def execPlw (addr : Half) (data : Byte) (s : State) : Outcome :=
  if sending s then refuse .txBusy s
  else if s.cfg.outCap ≤ addr.toNat then refuse .badAddress s
  else respond 0 (s.setTx { s.tx with outBuf := memStore s.tx.outBuf addr.toNat data })

end Sys2Proof.Machine
end

