-- ==== Sys2Proof/Machine/Reserved.lean ====
section
/-! DEFINITION. The reserved opcodes 0x0, 0xD, 0xE, 0xF (30_encoding.md R76): an illegal word is refused, nothing
changes and the machine goes on. -/

namespace Sys2Proof.Machine

/-- An illegal operation word (30_encoding.md R76): refused with cause `IllegalOp` (60_exceptions.md R202). -/
def illegalWord (s : State) : Outcome := refuse .illegalOp s

/-- Opcode 0x0 (30_encoding.md R76). -/
def execReserved0 (_rest : BitVec 28) (s : State) : Outcome := illegalWord s

/-- Opcode 0xD (30_encoding.md R76). -/
def execReservedD (_rest : BitVec 28) (s : State) : Outcome := illegalWord s

/-- Opcode 0xE (30_encoding.md R76). -/
def execReservedE (_rest : BitVec 28) (s : State) : Outcome := illegalWord s

/-- Opcode 0xF (30_encoding.md R76). -/
def execReservedF (_rest : BitVec 28) (s : State) : Outcome := illegalWord s

end Sys2Proof.Machine
end

