-- ==== Sys2Proof/Machine/Wire.lean ====
section
/-! DEFINITION. Wire frames as instructions (30_encoding.md R63 to R68): the arrival of a frame is the pseudo-operation
`RXFRAME` of R79 on its bytes, one `RXB` per byte in stream order (20_memory.md R42; assumption 5). -/

namespace Sys2Proof.Machine

/-- A V1 frame arrives (30_encoding.md R63; received by 41_deframer.md R115, R118, R121). -/
def execFrameV1 (dir : Direction) (cmd : Byte) (payload : List Byte) (checksum : Byte) (s : State) : Outcome :=
  presentBytes (frameV1Bytes dir cmd payload checksum) s

/-- A V1 jumbo frame arrives (30_encoding.md R64): the deframer rejects it at its command byte and scans the rest as
noise (41_deframer.md R130). -/
def execFrameV1Jumbo (dir : Direction) (cmd : Byte) (payload : List Byte) (checksum : Byte) (s : State) : Outcome :=
  presentBytes (frameV1JumboBytes dir cmd payload checksum) s

/-- A V2-native frame arrives (30_encoding.md R66; received by 41_deframer.md R117, R120, R123). -/
def execFrameV2Native (dir : Direction) (flags : Byte) (cmd : Half) (payload : List Byte) (crc : Byte) (s : State) :
    Outcome :=
  presentBytes (frameV2NativeBytes dir flags cmd payload crc) s

/-- A V2-over-V1 frame arrives (30_encoding.md R67; received by 41_deframer.md R115, R116, R119, R122, R121). -/
def execFrameV2OverV1 (dir : Direction) (v1Size : Byte) (flags : Byte) (cmd : Half) (payload : List Byte)
    (crc checksum : Byte) (s : State) : Outcome :=
  presentBytes (frameV2OverV1Bytes dir v1Size flags cmd payload crc checksum) s

/-- A V2-over-V1 jumbo frame arrives (30_encoding.md R68): rejected at its V1 command byte, the rest scanned as noise
(41_deframer.md R130). -/
def execFrameV2OverV1Jumbo (dir : Direction) (v1Size : Half) (flags : Byte) (cmd : Half) (payload : List Byte)
    (crc checksum : Byte) (s : State) : Outcome :=
  presentBytes (frameV2OverV1JumboBytes dir v1Size flags cmd payload crc checksum) s

end Sys2Proof.Machine
end

