-- ==== Sys2Proof/Machine/Dispatch.lean ====
section
/-! DEFINITION. One arm per constructor of `Instr`, each one direct call of the instruction's meaning. -/

namespace Sys2Proof.Machine

def exec (i : Instr) (s : State) : Host.Outcome State Fault Refusal :=
  match i with
  | .rd reg => Sys2Proof.Machine.execRd reg s
  | .wr reg val => Sys2Proof.Machine.execWr reg val s
  | .ibr addr => Sys2Proof.Machine.execIbr addr s
  | .plr addr => Sys2Proof.Machine.execPlr addr s
  | .plw addr data => Sys2Proof.Machine.execPlw addr data s
  | .xorb byte => Sys2Proof.Machine.execXorb byte s
  | .crcb byte => Sys2Proof.Machine.execCrcb byte s
  | .rxb byte => Sys2Proof.Machine.execRxb byte s
  | .rxack => Sys2Proof.Machine.execRxack s
  | .rxrst => Sys2Proof.Machine.execRxrst s
  | .txgo => Sys2Proof.Machine.execTxgo s
  | .txb => Sys2Proof.Machine.execTxb s
  | .reserved0 rest => Sys2Proof.Machine.execReserved0 rest s
  | .reservedD rest => Sys2Proof.Machine.execReservedD rest s
  | .reservedE rest => Sys2Proof.Machine.execReservedE rest s
  | .reservedF rest => Sys2Proof.Machine.execReservedF rest s
  | .frameV1 dir cmd payload checksum => Sys2Proof.Machine.execFrameV1 dir cmd payload checksum s
  | .frameV1Jumbo dir cmd payload checksum => Sys2Proof.Machine.execFrameV1Jumbo dir cmd payload checksum s
  | .frameV2Native dir flags cmd payload crc => Sys2Proof.Machine.execFrameV2Native dir flags cmd payload crc s
  | .frameV2OverV1 dir v1Size flags cmd payload crc checksum => Sys2Proof.Machine.execFrameV2OverV1 dir v1Size flags cmd payload crc checksum s
  | .frameV2OverV1Jumbo dir v1Size flags cmd payload crc checksum => Sys2Proof.Machine.execFrameV2OverV1Jumbo dir v1Size flags cmd payload crc checksum s

end Sys2Proof.Machine
end

