-- ==== Sys2Proof/Machine/Fetch.lean ====
section
/-! DEFINITION. What one input does. The block fetches no instructions (10_state.md R34): the outside presents them. -/

namespace Sys2Proof.Machine

/-- What a presentation that stands for no instruction does: an illegal operation word is refused before any other
test (30_encoding.md R76, 60_exceptions.md R203 f); bytes that are no whole frame go to the deframer one by one all
the same (41_deframer.md R110). -/
def runUndecoded (e : Encoding) (s : State) : Outcome :=
  match e with
  | .word _     => illegalWord s
  | .wire bytes => presentBytes bytes s

/-- The instruction that a presentation stands for is executed. -/
def runEncoding (e : Encoding) (s : State) : Outcome :=
  match decode e with
  | .ok i    => exec i s
  | .error _ => runUndecoded e s

/-- One input of the port or of the block's environment (70_reset_and_hazards.md R220). -/
def runInput (input : Input) (s : State) : Outcome :=
  match input with
  | .present e  => runEncoding e s
  | .blockReset => .next (blockReset s)

/-- Place an input where the next step takes it. -/
def presentNext (input : Input) (s : State) : State := s.setPending (input :: s.pending)

end Sys2Proof.Machine
end

