-- ==== Sys2Proof/Machine/Step.lean ====
section
/-! DEFINITION. One step of the machine: the oldest input presented is executed to completion (00_scope.md R3); with
nothing presented the block keeps all state (R2, 60_exceptions.md R212). -/

namespace Sys2Proof.Machine

/-- One step. -/
def step (s : State) : Host.Outcome State Fault Refusal :=
  match s.pending with
  | []            => .next s
  | input :: rest => runInput input (s.setPending rest)

/-- `s` with the instruction that an opcode-table word stands for presented next. -/
def State.withFetchWord (s : State) (nbits w : Nat) : State := presentNext (.present (tableEncoding nbits w)) s

end Sys2Proof.Machine
end

