-- ==== Sys2Proof/Machine/Pseudo.lean ====
section
/-! DEFINITION. The pseudo-operations of 30_encoding.md R79, each as the sequence of operations it stands for, and
running a sequence of instructions one after another. -/

namespace Sys2Proof.Machine

/-- Execute instructions in order (20_memory.md R47), stopping where one stops. -/
def execAll : List Instr → State → Outcome
  | [], s      => .next s
  | i :: is, s => andThen (exec i s) (execAll is)

/-- `XORSEED s` (30_encoding.md R79). -/
def xorSeed (seed : Half) : List Instr := [.wr (regNumber .ckXor) seed]

/-- `CRCSEED s` (30_encoding.md R79). -/
def crcSeed (seed : Half) : List Instr := [.wr (regNumber .ckCrc) seed]

/-- `XORFOLD [b0, .., bn-1]` (30_encoding.md R79). -/
def xorFold (bytes : List Byte) : List Instr := bytes.map .xorb

/-- `CRCFOLD [b0, .., bn-1]` (30_encoding.md R79). -/
def crcFold (bytes : List Byte) : List Instr := bytes.map .crcb

/-- `RXFRAME [b0, .., bn-1]` (30_encoding.md R79). -/
def rxFrame (bytes : List Byte) : List Instr := bytes.map .rxb

/-- `TXDRAIN` for a frame of `n` bytes (30_encoding.md R79): the `n`-th response is the first with `data[8] = 1`. -/
def txDrain (n : Nat) : List Instr := List.replicate n .txb

/-- `PLW k, p0`; `PLW k+1, p1`; .. -/
def plwFrom (k : Nat) : List Byte → List Instr
  | []      => []
  | p :: ps => .plw (BitVec.ofNat 16 k) p :: plwFrom (k + 1) ps

/-- `PLFILL [p0, .., pn-1]` (30_encoding.md R79). -/
def plFill (payload : List Byte) : List Instr :=
  plwFrom 0 payload ++ [.wr (regNumber .txLen) (BitVec.ofNat 16 payload.length)]

end Sys2Proof.Machine
end

