-- ==== Sys2Proof/Safety.lean ====
section
/-! DEFINITION. What a good state is, in the terms the statements use: the invariant of reachable states, the checksum
invariant of the deframer, and what an operation leaves unchanged. -/

namespace Sys2Proof.Machine

/-! ### What the deframer has taken so far -/

/-- The first `n` staged header bytes. -/
def hdrBytes (d : Deframer) (n : Nat) : List Byte := (List.range n).map (hdrByte d)

/-- The first `n` bytes of the input buffer. -/
def inBytes (d : Deframer) (n : Nat) : List Byte := (List.range n).map (inByte d)

/-- The first `n` bytes of an array have been written since the block reset. -/
abbrev WrittenTo (m : Memory) (n : Nat) : Prop := ∀ i < n, (memLookup m i).isSome

/-- The payload counters of a payload state (41_deframer.md R118): `rx_offset < rx_size`, the bytes so far stored. -/
def Deframer.InPayload (d : Deframer) : Prop := d.offset.toNat < d.size.toNat ∧ WrittenTo d.inBuf d.offset.toNat

/-- A whole payload is in the buffer: `rx_offset = rx_size` (10_state.md R16, 41_deframer.md R127). -/
def Deframer.HasPayload (d : Deframer) : Prop := d.offset = d.size ∧ WrittenTo d.inBuf d.size.toNat

/-- A recorded plain V1 packet: command 0..254, flags 0 (10_state.md R21, R22). -/
def Deframer.V1Packet (d : Deframer) : Prop := d.cmd.toNat ≤ 254 ∧ d.flags = 0

/-- What each receive state says about the other deframer registers (41_deframer.md R112 to R123). -/
def Deframer.StateInv (d : Deframer) : Prop :=
  match d.state with
  | .idle | .headerStart => True
  | .headerM          => d.version = .v1
  | .headerX          => d.version = .v2Native
  | .headerV1         => d.version = .v1 ∧ d.offset.toNat < 2 ∧ WrittenTo d.hdr d.offset.toNat
  | .headerV2OverV1   => d.version = .v2OverV1 ∧ d.offset.toNat < 5 ∧ WrittenTo d.hdr d.offset.toNat
  | .headerV2Native   => d.version = .v2Native ∧ d.offset.toNat < 5 ∧ WrittenTo d.hdr d.offset.toNat
  | .payloadV1        => d.version = .v1 ∧ d.V1Packet ∧ d.InPayload
  | .payloadV2OverV1  => d.version = .v2OverV1 ∧ d.InPayload
  | .payloadV2Native  => d.version = .v2Native ∧ d.InPayload
  | .checksumV1       => (d.version = .v1 ∧ d.V1Packet ∨ d.version = .v2OverV1) ∧ d.HasPayload
  | .checksumV2OverV1 => d.version = .v2OverV1 ∧ d.HasPayload
  | .checksumV2Native => d.version = .v2Native ∧ d.HasPayload
  | .commandReceived  => (d.version = .v1 → d.V1Packet) ∧ d.HasPayload

/-- The deframer's invariant: canonical arrays inside their bounds, `rx_size <= IN_CAP` (10_state.md R20), and what the
receive state says. -/
structure Deframer.Inv (cap : Nat) (d : Deframer) : Prop where
  hdrWf    : Memory.Wf d.hdr
  hdrBound : Memory.Below 5 d.hdr
  inWf     : Memory.Wf d.inBuf
  inBound  : Memory.Below cap d.inBuf
  size     : d.size.toNat ≤ cap
  state    : d.StateInv

/-- The encoder's invariant: a canonical buffer inside its bounds, `tx_len <= OUT_CAP` (10_state.md R28), and while
`tx_busy` is 1 a frame with a byte at `tx_pos` (R29, R30). -/
structure Encoder.Inv (cap : Nat) (e : Encoder) : Prop where
  outWf    : Memory.Wf e.outBuf
  outBound : Memory.Below cap e.outBuf
  len      : e.len.toNat ≤ cap
  pos      : e.busy = true → e.pos.toNat < (replyFrame e).length

/-- The invariant of reachable states. -/
structure State.Inv (s : State) : Prop where
  cfg : s.cfg.Legal
  rx  : s.rx.Inv s.cfg.inCap
  tx  : s.tx.Inv s.cfg.outCap

/-! ### The checksums of a frame in progress -/

/-- Both checksums of a V1 frame after its header and `n` payload bytes: checksum-1 over exactly those, checksum-2 over
none (30_encoding.md R71, row V1; 10_state.md R18). -/
def Deframer.CksOfV1 (d : Deframer) (n : Nat) : Prop :=
  d.ck1 = xorChecksum 0 ([lo8 d.size, lo8 d.cmd] ++ inBytes d n) ∧ d.ck2 = 0

/-- checksum-2 over the V2 header and `n` payload bytes (30_encoding.md R71, rows V2). -/
def Deframer.Ck2OfV2 (d : Deframer) (n : Nat) : Prop :=
  d.ck2 = crc8DvbUpdate 0 (v2Header d.flags d.cmd d.size ++ inBytes d n)

/-- checksum-1 of a V2-over-V1 frame after its V1 header and `rest`: some V1 size byte that passed the two checks of
41_deframer.md R115, and the sentinel, were folded first. -/
def Deframer.Ck1OfV2OverV1 (cap : Nat) (d : Deframer) (rest : List Byte) : Prop :=
  ∃ v1Size : Byte, 6 ≤ v1Size.toNat ∧ v1Size.toNat ≤ cap ∧ d.ck1 = xorChecksum 0 ([v1Size, sentinel] ++ rest)

/-- The V2 header and `n` payload bytes as the registers record them. -/
def Deframer.v2Taken (d : Deframer) (n : Nat) : List Byte := v2Header d.flags d.cmd d.size ++ inBytes d n

/-- The running checksums cover exactly what 30_encoding.md R71 says they cover, in every receive state. -/
def Deframer.Checked (cap : Nat) (d : Deframer) : Prop :=
  match d.state with
  | .idle | .headerStart | .headerM | .headerX => True
  | .headerV1         => d.ck1 = xorChecksum 0 (hdrBytes d d.offset.toNat) ∧ d.ck2 = 0
  | .headerV2OverV1   =>
      d.Ck1OfV2OverV1 cap (hdrBytes d d.offset.toNat) ∧ d.ck2 = crc8DvbUpdate 0 (hdrBytes d d.offset.toNat)
  | .headerV2Native   => d.ck1 = 0 ∧ d.ck2 = crc8DvbUpdate 0 (hdrBytes d d.offset.toNat)
  | .payloadV1        => d.CksOfV1 d.offset.toNat
  | .payloadV2OverV1  => d.Ck1OfV2OverV1 cap (d.v2Taken d.offset.toNat) ∧ d.Ck2OfV2 d.offset.toNat
  | .payloadV2Native  => d.ck1 = 0 ∧ d.Ck2OfV2 d.offset.toNat
  | .checksumV1       =>
      (d.version = .v1 → d.CksOfV1 d.size.toNat) ∧
      (d.version = .v2OverV1 →
        d.Ck1OfV2OverV1 cap (d.v2Taken d.size.toNat ++ [d.ck2]) ∧ d.Ck2OfV2 d.size.toNat)
  | .checksumV2OverV1 => d.Ck1OfV2OverV1 cap (d.v2Taken d.size.toNat) ∧ d.Ck2OfV2 d.size.toNat
  | .checksumV2Native => d.ck1 = 0 ∧ d.Ck2OfV2 d.size.toNat
  | .commandReceived  =>
      (d.version = .v1 → d.CksOfV1 d.size.toNat) ∧
      (d.version = .v2OverV1 →
        d.Ck1OfV2OverV1 cap (d.v2Taken d.size.toNat ++ [d.ck2]) ∧ d.Ck2OfV2 d.size.toNat) ∧
      (d.version = .v2Native → d.ck1 = 0 ∧ d.Ck2OfV2 d.size.toNat)

/-! ### What an operation leaves unchanged -/

/-- Every numbered register but the listed ones reads as before. -/
def RegsKept (except : List Reg) (s t : State) : Prop := ∀ r, r ∉ except → regRead r t = regRead r s

/-- Every byte of the input buffer but those at the listed indices reads as before. -/
def InBufKept (except : List Nat) (s t : State) : Prop := ∀ a, a ∉ except → inByte t.rx a = inByte s.rx a

/-- Every byte of the payload buffer but those at the listed indices reads as before. -/
def OutBufKept (except : List Nat) (s t : State) : Prop := ∀ a, a ∉ except → outByte t.tx a = outByte s.tx a

/-- Every staged header byte but those at the listed indices reads as before. -/
def HdrKept (except : List Nat) (s t : State) : Prop := ∀ a, a ∉ except → hdrByte t.rx a = hdrByte s.rx a

/-- `t` comes from `s` by one operation that was answered with `r`, consumed `rx` and produced `tx` on the streams, and
left what the outside presents alone. -/
def Answered (r : Response) (rx tx : List Byte) (s t : State) : Prop :=
  t.responses = s.responses ++ [r] ∧ t.rxs = s.rxs ++ rx ∧ t.txs = s.txs ++ tx ∧ t.pending = s.pending

/-- The observable content of a block is the same: every register, every buffer byte, every staged header byte. -/
def SameContent (s t : State) : Prop := RegsKept [] s t ∧ InBufKept [] s t ∧ OutBufKept [] s t ∧ HdrKept [] s t

/-- The state after the deframer took byte `b` and became `d`: the byte is consumed, the response shows the new receive
state (41_deframer.md R110), and nothing else changes. -/
def Took (b : Byte) (d : Deframer) (s : State) : State :=
  { s with
    rx := d
    rxs := s.rxs ++ [b]
    responses := s.responses ++ [.ok (BitVec.ofNat 32 (rxStateNumber d.state))] }

/-! ### Delivered packets -/

/-- The payload of the pending packet, `in_buf[0 .. rx_size)` (10_state.md R37). -/
def packetPayload (d : Deframer) : List Byte := inBytes d d.size.toNat

/-- The deframer holds exactly this packet (10_state.md R37, 41_deframer.md R127). -/
def Delivered (version : WireVersion) (ptype : PacketType) (cmd : Half) (flags : Byte) (payload : List Byte)
    (d : Deframer) : Prop :=
  d.state = .commandReceived ∧ d.version = version ∧ d.ptype = ptype ∧ d.cmd = cmd ∧ d.flags = flags ∧
    d.size.toNat = payload.length ∧ packetPayload d = payload

/-! ### Tables of the spec that statements compare the model with -/

/-- Mask and match of the 12 operations (spec/opcode_table.json, rows of kind operation; 30_encoding.md R74, R75). -/
def operationRows : List (Word × Word) :=
  [(0xF00FFFFF, 0x10000000), (0xF00F0000, 0x20000000), (0xFF0000FF, 0x30000000), (0xFF0000FF, 0x40000000),
   (0xFF000000, 0x50000000), (0xFFFFFF00, 0x60000000), (0xFFFFFF00, 0x70000000), (0xFFFFFF00, 0x80000000),
   (0xFFFFFFFF, 0x90000000), (0xFFFFFFFF, 0xA0000000), (0xFFFFFFFF, 0xB0000000), (0xFFFFFFFF, 0xC0000000)]

/-- One of the 12 operations of 30_encoding.md R75. -/
def isOperation : Instr → Bool
  | .rd _ | .wr _ _ | .ibr _ | .plr _ | .plw _ _ | .xorb _ | .crcb _ | .rxb _ | .rxack | .rxrst | .txgo | .txb => true
  | .reserved0 _ | .reservedD _ | .reservedE _ | .reservedF _ => false
  | .frameV1 _ _ _ _ | .frameV1Jumbo _ _ _ _ | .frameV2Native _ _ _ _ _ | .frameV2OverV1 _ _ _ _ _ _ _
  | .frameV2OverV1Jumbo _ _ _ _ _ _ _ => false

/-- The mapped register numbers (10_state.md R32). -/
def mappedNumbers : List (BitVec 8) :=
  [0x00, 0x01, 0x02, 0x03, 0x10, 0x11, 0x12, 0x13, 0x14, 0x15, 0x16, 0x17, 0x18, 0x20, 0x21, 0x22, 0x23, 0x24, 0x25,
    0x26]

/-- The numbers of the registers of access `RW` or `RW-legal`, with their largest legal value (10_state.md R32,
43_host_access.md R181). -/
def writableNumbers (cfg : Config) : List (BitVec 8 × Nat) :=
  [(0x00, 255), (0x01, 255), (0x20, 2), (0x21, 3), (0x22, 65535), (0x23, 255), (0x24, cfg.outCap)]

/-- The numbers of the descriptor registers (43_host_access.md R181). -/
def descriptorNumbers : List (BitVec 8) := [0x20, 0x21, 0x22, 0x23, 0x24]

/-- When an operation or a reserved word is refused, and why (60_exceptions.md R202, in the order of R203 and
43_host_access.md R181, R184). Frames are sequences of `RXB` and have no refusal of their own. -/
def refusalOf (i : Instr) (s : State) : Option RefusalCause :=
  match i with
  | .rd reg => if reg ∈ mappedNumbers then none else some .badRegister
  | .wr reg val =>
      if reg ∉ mappedNumbers then some .badRegister
      else match (writableNumbers s.cfg).find? fun p => p.1 == reg with
        | none => some .readOnly
        | some p =>
            if reg ∈ descriptorNumbers ∧ s.tx.busy = true then some .txBusy
            else if p.2 < val.toNat then some .badValue else none
  | .ibr addr => if addr.toNat < s.cfg.inCap then none else some .badAddress
  | .plr addr => if addr.toNat < s.cfg.outCap then none else some .badAddress
  | .plw addr _ => if s.tx.busy = true then some .txBusy else if addr.toNat < s.cfg.outCap then none else some .badAddress
  | .xorb _ | .crcb _ => none
  | .rxb _ => if s.rx.state = .commandReceived then some .rxPacketPending else none
  | .rxack => if s.rx.state = .commandReceived then none else some .rxNoPacket
  | .rxrst => none
  | .txgo => if s.tx.busy = true then some .txBusy else none
  | .txb => if s.tx.busy = true then none else some .txIdle
  | .reserved0 _ | .reservedD _ | .reservedE _ | .reservedF _ => some .illegalOp
  | .frameV1 _ _ _ _ | .frameV1Jumbo _ _ _ _ | .frameV2Native _ _ _ _ _ | .frameV2OverV1 _ _ _ _ _ _ _
  | .frameV2OverV1Jumbo _ _ _ _ _ _ _ => none

/-- When the deframer aborts a frame on byte `b` for a cause (60_exceptions.md R201). -/
def abortsFor (cause : AbortCause) (b : Byte) (cap : Nat) (d : Deframer) : Prop :=
  match cause with
  | .badMagic => d.state = .headerStart ∧ b ≠ 0x4D ∧ b ≠ 0x58
  | .badDirection => (d.state = .headerM ∨ d.state = .headerX) ∧ b ≠ 0x3C ∧ b ≠ 0x3E
  | .v1SizeOverCapacity => d.state = .headerV1 ∧ d.offset = 1 ∧ cap < (hdrByte d 0).toNat
  | .v2OverV1TooShort =>
      d.state = .headerV1 ∧ d.offset = 1 ∧ (hdrByte d 0).toNat ≤ cap ∧ b = 255 ∧ (hdrByte d 0).toNat < 6
  | .v2SizeOverCapacity =>
      (d.state = .headerV2OverV1 ∨ d.state = .headerV2Native) ∧ d.offset = 4 ∧ cap < (u16le (hdrByte d 3) b).toNat
  | .xorMismatch => d.state = .checksumV1 ∧ b ≠ d.ck1
  | .crcMismatch => (d.state = .checksumV2OverV1 ∨ d.state = .checksumV2Native) ∧ b ≠ d.ck2

/-- The arrows of the transition summary (41_deframer.md R133, rows of `RXB`). -/
def rxArrows : List (RxState × RxState) :=
  [(.idle, .headerStart), (.idle, .idle), (.headerStart, .headerM), (.headerStart, .headerX), (.headerStart, .idle),
   (.headerM, .headerV1), (.headerM, .idle), (.headerX, .headerV2Native), (.headerX, .idle),
   (.headerV1, .headerV1), (.headerV1, .idle), (.headerV1, .headerV2OverV1), (.headerV1, .payloadV1),
   (.headerV1, .checksumV1), (.headerV2OverV1, .headerV2OverV1), (.headerV2OverV1, .idle),
   (.headerV2OverV1, .payloadV2OverV1), (.headerV2OverV1, .checksumV2OverV1), (.headerV2Native, .headerV2Native),
   (.headerV2Native, .idle), (.headerV2Native, .payloadV2Native), (.headerV2Native, .checksumV2Native),
   (.payloadV1, .payloadV1), (.payloadV1, .checksumV1), (.payloadV2OverV1, .payloadV2OverV1),
   (.payloadV2OverV1, .checksumV2OverV1), (.payloadV2Native, .payloadV2Native), (.payloadV2Native, .checksumV2Native),
   (.checksumV1, .commandReceived), (.checksumV1, .idle), (.checksumV2OverV1, .checksumV1),
   (.checksumV2OverV1, .idle), (.checksumV2Native, .commandReceived), (.checksumV2Native, .idle)]

/-! ### Units -/

/-- The three units (00_scope.md R1). -/
inductive UnitName where
  | checksum
  | deframer
  | encoder
  deriving DecidableEq, Repr

/-- The unit whose state an instruction works on (20_memory.md R50). `RD` may read any unit's registers and works on
none; so do words that are refused whatever the state. -/
def unitOf (i : Instr) : Option UnitName :=
  match i with
  | .rd _ => none
  | .wr reg _ =>
      if reg = 0x00 ∨ reg = 0x01 then some .checksum
      else if reg ∈ descriptorNumbers then some .encoder
      else none
  | .xorb _ | .crcb _ => some .checksum
  | .ibr _ | .rxb _ | .rxack | .rxrst => some .deframer
  | .plr _ | .plw _ _ | .txgo | .txb => some .encoder
  | .reserved0 _ | .reservedD _ | .reservedE _ | .reservedF _ => none
  | .frameV1 _ _ _ _ | .frameV1Jumbo _ _ _ _ | .frameV2Native _ _ _ _ _ | .frameV2OverV1 _ _ _ _ _ _ _
  | .frameV2OverV1Jumbo _ _ _ _ _ _ _ => some .deframer

/-! ### Frames -/

/-- The response of `TXB` for byte `k` of a frame (42_encoder.md R158). -/
def txbResponse (whole : List Byte) (k : Nat) : Response :=
  .ok (((whole.getD k 0).setWidth 32) + (if k + 1 = whole.length then 256 else 0))

/-- A byte sequence that the deframer accepts as one frame, forms (a), (b) and (c) of 41_deframer.md R128. -/
def AcceptedFrame (cap : Nat) (bytes : List Byte) : Prop :=
  ∃ d : Byte, (d = 0x3C ∨ d = 0x3E) ∧ ∃ p : List Byte, p.length ≤ cap ∧
    ((∃ c : Byte, c ≠ 255 ∧
        bytes = [0x24, 0x4D, d, BitVec.ofNat 8 p.length, c] ++ p ++
          [xorChecksum 0 ([BitVec.ofNat 8 p.length, c] ++ p)]) ∨
     (∃ f c0 c1 l0 l1 : Byte, (u16le l0 l1).toNat = p.length ∧
        bytes = [0x24, 0x58, d, f, c0, c1, l0, l1] ++ p ++ [crc8DvbUpdate 0 ([f, c0, c1, l0, l1] ++ p)]) ∨
     (∃ v f c0 c1 l0 l1 k : Byte, 6 ≤ v.toNat ∧ v.toNat ≤ cap ∧ (u16le l0 l1).toNat = p.length ∧
        k = crc8DvbUpdate 0 ([f, c0, c1, l0, l1] ++ p) ∧
        bytes = [0x24, 0x4D, d, v, 255, f, c0, c1, l0, l1] ++ p ++
          [k, xorChecksum 0 ([v, 255, f, c0, c1, l0, l1] ++ p ++ [k])]))

end Sys2Proof.Machine
end

