-- ==== Sys2Proof/Certificates/Slice0/Obligations.lean ====
section
/-! DEFINITION. The statements for the provers. Each docstring names the rules of spec/ it formalises. -/

section

open Sys2Proof Sys2Proof.Machine

/-! ### Encoding -/

/-- Decoding the presentation of any well-formed instruction gives that instruction, with every operand (30_encoding.md
R63 to R68, R74, R75). (That whole wire frames are instructions, and which frames are well-formed as syntax, are the
model's choices: notes/assumptions/5.md and notes/assumptions/12.md.) -/
def Obligations.DecodeOfEncodeIsIdentity : Prop :=
  ∀ i : Instr, i.wf = true → decode (encode i) = .ok i

/-- What the decoder accepts is the presentation of exactly one well-formed instruction: no word and no frame has two
meanings and no accepted bit is dropped. (That whole wire frames are instructions, and which frames are well-formed as
syntax, are the model's choices: notes/assumptions/5.md and notes/assumptions/12.md.) -/
def Obligations.EncodeOfDecodeIsIdentity : Prop :=
  ∀ (e : Encoding) (i : Instr), decode e = .ok i → i.wf = true ∧ encode i = e

/-- 30_encoding.md R76: a word that matches no operation row is illegal; it is refused with cause `IllegalOp`, shown as
`ok = 0`, `data = 0`, and nothing else changes. A word that matches a row is one of the 12 operations. (That the word is
the oldest of a list of inputs is the model's choice: notes/assumptions/1.md. That the refusal is a next state whose
response keeps the cause is the model's reading: notes/assumptions/4.md.) -/
def Obligations.IllegalWordsAreRefused : Prop :=
  ∀ (s : State) (w : Word) (rest : List Input), s.pending = .present (.word w) :: rest →
    ((∀ row ∈ operationRows, w &&& row.1 ≠ row.2) →
      step s = .next ((s.setPending rest).answer (.refused .illegalOp)) ∧
      okBit (.refused .illegalOp) = false ∧ dataField (.refused .illegalOp) = 0) ∧
    ((∃ row ∈ operationRows, w &&& row.1 = row.2) →
      ∃ i, isOperation i = true ∧ decode (.word w) = .ok i ∧ step s = exec i (s.setPending rest))

/-- 30_encoding.md R76: the four reserved opcodes are refused in every state, whatever their other bits, and nothing
else changes. -/
def Obligations.ReservedOpcodesAreRefused : Prop :=
  ∀ (s : State) (rest : BitVec 28),
    (∀ i ∈ [Instr.reserved0 rest, .reservedD rest, .reservedE rest, .reservedF rest],
      exec i s = .next (s.answer (.refused .illegalOp))) ∧
    (∀ p ∈ [(Instr.reserved0 rest, 0x0#4), (.reservedD rest, 0xD#4), (.reservedE rest, 0xE#4), (.reservedF rest, 0xF#4)],
      ∃ w, encode p.1 = .word w ∧ w.extractLsb' 28 4 = p.2 ∧ w.extractLsb' 0 28 = rest)

/-- Operation words and a frame written out from 95_test_vectors.md decode to what they are listed as. -/
def Obligations.SampleWordsDecodeAsListed : Prop :=
  decodeTableWord 32 0x12100000 = some (.rd 0x21) ∧
  decodeTableWord 32 0x2220FFFF = some (.wr 0x22 0xFFFF) ∧
  decodeTableWord 32 0x3000BF00 = some (.ibr 191) ∧
  decodeTableWord 32 0x5001FFAB = some (.plw 511 0xAB) ∧
  decodeTableWord 32 0x60000069 = some (.xorb 0x69) ∧
  decodeTableWord 32 0x80000024 = some (.rxb 0x24) ∧
  decodeTableWord 32 0xB0000000 = some .txgo ∧
  decodeTableWord 32 0x00000000 = some (.reserved0 0) ∧
  decodeTableWord 32 0x90000001 = none ∧
  decode (.wire [0x24, 0x4D, 0x3C, 0x00, 0x01, 0x01]) = .ok (.frameV1 .request 0x01 [] 0x01)

/-! ### Steps and inputs -/

/-- The model's choice (notes/assumptions/1.md, 5.md and 12.md): inputs stand in a list, one step takes the oldest and
runs it to completion, and a whole wire frame is one input. When that input decodes to an instruction, the step is the
instruction's meaning on the state without the input. The spec's part is that operations take effect one at a time in
the order presented (20_memory.md R47) and that the block executes an operation word and answers (30_encoding.md R73);
neither speaks of frames. -/
def Obligations.StepRunsTheDecodedInstruction : Prop :=
  ∀ (s : State) (e : Encoding) (rest : List Input) (i : Instr),
    s.pending = .present e :: rest → decode e = .ok i → step s = exec i (s.setPending rest)

/-- The model's choice (notes/assumptions/1.md and 12.md): a stretch of received bytes, also one that is no frame, is one
input and one step. No rule of the spec gives that step; the statement says that it does what 41_deframer.md R110 gives
for the bytes one by one: the `RXB` of each, in stream order. (30_encoding.md R79 only lends the sequence its name,
`RXFRAME`.) -/
def Obligations.WireBytesActAsRxframe : Prop :=
  ∀ (s : State) (bytes : List Byte) (rest : List Input),
    s.pending = .present (.wire bytes) :: rest → step s = execAll (rxFrame bytes) (s.setPending rest)

/-- Each of the five wire frames of the opcode table acts as the `RXB` of its bytes, one after another (the model's reading of
those rows, notes/assumptions/5.md; 30_encoding.md R79 only names the sequence), and completes in every state that meets
the invariant, whatever its direction, sizes and checksums: only the deframer and the port's outputs change. -/
def Obligations.FrameInstructionsActAsRxframe : Prop :=
  ∀ (i : Instr) (bytes : List Byte) (s : State), encode i = .wire bytes →
    exec i s = execAll (rxFrame bytes) s ∧
    (s.Inv → ∃ t, exec i s = .next t ∧ t.Inv ∧ t.ck = s.ck ∧ t.tx = s.tx ∧ t.txs = s.txs ∧ t.pending = s.pending ∧
      t.responses.length = s.responses.length + bytes.length)

/-- 00_scope.md R2, 60_exceptions.md R212: with nothing presented the block keeps all state. 70_reset_and_hazards.md
R220: the block reset puts every register at the reset value of 10_state.md R32 and leaves no byte of `rx_hdr`,
`in_buf`, `out_buf` known. That the parameters and the port's history stay is the model's (notes/assumptions/2.md).
(That the reset is one of a list of inputs is the model's choice: notes/assumptions/1.md. So are the kept reset values,
which 70_reset_and_hazards.md R221 lets a model leave open: notes/assumptions/8.md.) -/
def Obligations.IdleStepAndBlockReset : Prop :=
  ∀ s : State,
    (s.pending = [] → step s = .next s) ∧
    ∀ rest, s.pending = .blockReset :: rest →
      ∃ t, step s = .next t ∧
        (∀ p ∈ [(Reg.ckXor, 0x00), (.ckCrc, 0x00), (.cfgInCap, s.cfg.inCap), (.cfgOutCap, s.cfg.outCap), (.rxState, 0),
            (.rxVersion, 0), (.rxPtype, 0), (.rxCmd, 0), (.rxFlags, 0), (.rxSize, 0), (.rxOffset, 0), (.rxCk1, 0x00),
            (.rxCk2, 0x00), (.txVersion, 0), (.txResult, 2), (.txCmd, 0), (.txFlags, 0), (.txLen, 0), (.txBusy, 0),
            (.txPos, 0)], regRead p.1 t = BitVec.ofNat 32 p.2) ∧
        (∀ a, memLookup t.rx.hdr a = none ∧ memLookup t.rx.inBuf a = none ∧ memLookup t.tx.outBuf a = none) ∧
        t.pending = rest ∧ t.responses = s.responses ∧ t.rxs = s.rxs ∧ t.txs = s.txs

/-- 10_state.md R32, column reset, read through `RD` on the machine right after reset with the default parameters
(00_scope.md R5, R6). The other clauses are the model's choice: nothing is presented after reset
(notes/assumptions/1.md), and no buffer byte is listed, so that each reads as a free value (notes/assumptions/3.md).
That the registers have R32's values where 70_reset_and_hazards.md R221 lets a model leave them open is
notes/assumptions/8.md. -/
def Obligations.ResetRegistersReadAsSpecified : Prop :=
  (∀ p ∈ [(0x00, 0x00), (0x01, 0x00), (0x02, 192), (0x03, 512), (0x10, 0), (0x11, 0), (0x12, 0), (0x13, 0), (0x14, 0),
      (0x15, 0), (0x16, 0), (0x17, 0x00), (0x18, 0x00), (0x20, 0), (0x21, 2), (0x22, 0), (0x23, 0), (0x24, 0), (0x25, 0),
      (0x26, 0)],
    exec (.rd (BitVec.ofNat 8 p.1)) State.reset = .next (State.reset.answer (.ok (BitVec.ofNat 32 p.2)))) ∧
  State.reset.rx.hdr = [] ∧ State.reset.rx.inBuf = [] ∧ State.reset.tx.outBuf = [] ∧ State.reset.pending = []

/-! ### Invariants -/

/-- The block right after reset, with any legal parameters, meets the invariant of reachable states and the checksum
invariant. (The parameters are fields of the model's State: notes/assumptions/6.md.) -/
def Obligations.ResetMeetsTheInvariants : Prop :=
  State.reset.Inv ∧
  ∀ c : Config, c.Legal → (State.resetWith c).Inv ∧ (State.resetWith c).rx.Checked c.inCap

/-- Every step keeps the invariant: arrays canonical and inside their bounds, `rx_size <= IN_CAP` (10_state.md R20),
`rx_offset` below the count of its state (R16), the version that fits the receive state (R14), `tx_len <= OUT_CAP`
(R28), `tx_pos` inside the frame while busy (R30). (The legal parameters are part of it: notes/assumptions/6.md.) -/
def Obligations.StepKeepsTheInvariant : Prop :=
  ∀ s t : State, s.Inv → step s = .next t → t.Inv

/-- 60_exceptions.md R200: no event stops the block. From a state that meets the invariant every step answers a next
state: the deframer never stores outside `rx_hdr` or `in_buf` (20_memory.md R45) and the encoder never reads outside the
frame. (The bounds checks that could stop it are the model's own: notes/assumptions/7.md. That a refusal is a next
state: notes/assumptions/4.md.) -/
def Obligations.NoStepStopsTheBlock : Prop :=
  ∀ s : State, s.Inv → ∃ t, step s = .next t

/-- 30_encoding.md R71 as an invariant: in every receive state `rx_ck1` and `rx_ck2` are the checksums of exactly the
bytes taken so far that R71 says they cover, and 0 where they cover none (`rx_ck2` in a V1 frame, `rx_ck1` in a V2-native
one); so a delivered packet is one whose checksums were right (41_deframer.md R127). -/
def Obligations.StepKeepsTheRunningChecksums : Prop :=
  ∀ s t : State, s.Inv → s.rx.Checked s.cfg.inCap → step s = .next t → t.rx.Checked t.cfg.inCap

/-- The model's choice (notes/assumptions/2.md, unsafe): the responses and the bytes consumed and produced are kept in
State, over a block reset too, and no step takes one back. The parameters stand in State as fields that no step changes
(notes/assumptions/6.md). The spec says less: the parameters are configuration, not state (10_state.md R10), and the two
streams are sequences that `RXB` consumes and `TXB` produces (20_memory.md R40). -/
def Obligations.ParametersStayAndOutputsOnlyGrow : Prop :=
  ∀ s t : State, step s = .next t →
    t.cfg = s.cfg ∧ s.responses <+: t.responses ∧ s.rxs <+: t.rxs ∧ s.txs <+: t.txs

/-! ### Units -/

/-- 00_scope.md R1: the units share no state. An instruction of one unit leaves the state of the two others, the
parameters and what the outside presents unchanged. (What is presented and the parameters are fields of the model's
State: notes/assumptions/1.md and notes/assumptions/6.md.) -/
def Obligations.InstructionsTouchOnlyTheirUnit : Prop :=
  ∀ (i : Instr) (s t : State), exec i s = .next t →
    (unitOf i ≠ some .checksum → t.ck = s.ck) ∧ (unitOf i ≠ some .deframer → t.rx = s.rx) ∧
    (unitOf i ≠ some .encoder → t.tx = s.tx) ∧ t.cfg = s.cfg ∧ t.pending = s.pending

/-- 20_memory.md R50: operations of different units commute on the state of the units. -/
def Obligations.OperationsOfDifferentUnitsCommute : Prop :=
  ∀ (i j : Instr) (a b : UnitName), unitOf i = some a → unitOf j = some b → a ≠ b →
    ∀ s t u t' u' : State, exec i s = .next t → exec j t = .next u → exec j s = .next t' → exec i t' = .next u' →
      u.ck = u'.ck ∧ u.rx = u'.rx ∧ u.tx = u'.tx

/-! ### Refusals -/

/-- 60_exceptions.md R202 in the order of R203: an operation or reserved word is refused exactly when R202 says so, for
that cause, and a refusal changes nothing. Otherwise, if it goes on, it completes with `ok = 1`. (That a refusal is a
next state whose response keeps the cause is the model's reading: notes/assumptions/4.md.) -/
def Obligations.RefusedExactlyWhenSpecified : Prop :=
  ∀ (i : Instr) (s : State),
    (∀ c, refusalOf i s = some c → exec i s = .next (s.answer (.refused c))) ∧
    (isOperation i = true → refusalOf i s = none → ∀ t, exec i s = .next t →
      ∃ data, t.responses = s.responses ++ [.ok data])

/-- 20_memory.md R44: a read has no side effect and is idempotent: `RD`, `IBR` and `PLR` change nothing but the port's
responses, and the same read straight after gives the same response. -/
def Obligations.ReadsChangeNothingAndRepeat : Prop :=
  ∀ (i : Instr) (s t : State),
    ((∃ reg, i = .rd reg) ∨ (∃ addr, i = .ibr addr) ∨ ∃ addr, i = .plr addr) → exec i s = .next t →
      ∃ r, t = s.answer r ∧ SameContent s t ∧ exec i t = .next (t.answer r)

/-! ### Access -/

/-- 43_host_access.md R180: `RD` of each mapped number answers that register, zero-extended, in every state; `RD` of any
other number is refused. Nothing changes either way. -/
def Obligations.RdReadsTheNumberedRegister : Prop :=
  ∀ s : State,
    (∀ p ∈ [(0x00#8, s.ck.xor.toNat), (0x01#8, s.ck.crc.toNat), (0x02#8, s.cfg.inCap), (0x03#8, s.cfg.outCap),
        (0x10#8, rxStateNumber s.rx.state), (0x11#8, versionNumber s.rx.version), (0x12#8, packetTypeNumber s.rx.ptype),
        (0x13#8, s.rx.cmd.toNat), (0x14#8, s.rx.flags.toNat), (0x15#8, s.rx.size.toNat), (0x16#8, s.rx.offset.toNat),
        (0x17#8, s.rx.ck1.toNat), (0x18#8, s.rx.ck2.toNat), (0x20#8, versionNumber s.tx.version),
        (0x21#8, resultNumber s.tx.result), (0x22#8, s.tx.cmd.toNat), (0x23#8, s.tx.flags.toNat),
        (0x24#8, s.tx.len.toNat), (0x25#8, s.tx.busy.toNat), (0x26#8, s.tx.pos.toNat)],
      exec (.rd p.1) s = .next (s.answer (.ok (BitVec.ofNat 32 p.2)))) ∧
    (∀ n, n ∉ mappedNumbers → exec (.rd n) s = .next (s.answer (.refused .badRegister))) ∧
    (∀ n, encode (.rd n) = .word (BitVec.ofNat 32 (0x10000000 + n.toNat * 0x100000))) ∧
    ∀ (n : BitVec 8) (v : Half), v ≠ 0 →
      decode (.word (BitVec.ofNat 32 (0x10000000 + n.toNat * 0x100000 + v.toNat))) = .error .strayBits

/-- 43_host_access.md R181: the tests of `WR` in their order, then the write: the register reads the value written,
every other register and every buffer byte reads as before, the response is 0. -/
def Obligations.WrTestsThenWritesOneRegister : Prop :=
  ∀ (s : State) (reg : BitVec 8) (val : Half),
    (reg ∉ mappedNumbers → exec (.wr reg val) s = .next (s.answer (.refused .badRegister))) ∧
    (reg ∈ mappedNumbers → (∀ p ∈ writableNumbers s.cfg, p.1 ≠ reg) →
      exec (.wr reg val) s = .next (s.answer (.refused .readOnly))) ∧
    (reg ∈ descriptorNumbers → s.tx.busy = true → exec (.wr reg val) s = .next (s.answer (.refused .txBusy))) ∧
    (∀ bound, (reg, bound) ∈ writableNumbers s.cfg → (reg ∈ descriptorNumbers → s.tx.busy = false) →
      (bound < val.toNat → exec (.wr reg val) s = .next (s.answer (.refused .badValue))) ∧
      (val.toNat ≤ bound → ∃ t r, exec (.wr reg val) s = .next t ∧ regNumber r = reg ∧
        regRead r t = val.setWidth 32 ∧ RegsKept [r] s t ∧ InBufKept [] s t ∧ OutBufKept [] s t ∧ HdrKept [] s t ∧
        Answered (.ok 0) [] [] s t)) ∧
    encode (.wr reg val) = .word (BitVec.ofNat 32 (0x20000000 + reg.toNat * 0x100000 + val.toNat))

/-- 43_host_access.md R182, R183: inside its buffer a read answers the byte last written there and changes nothing;
outside it is refused. (A byte never written is a free value: notes/assumptions/3.md. That a byte written there is
answered at and above `rx_size` and `tx_len` too is the model's choice: notes/assumptions/14.md.) -/
def Obligations.BufferReadsAnswerTheByte : Prop :=
  ∀ (s : State) (addr : Half),
    (addr.toNat < s.cfg.inCap →
      exec (.ibr addr) s = .next (s.answer (.ok ((inByte s.rx addr.toNat).setWidth 32))) ∧
      ∀ b, memLookup s.rx.inBuf addr.toNat = some b → inByte s.rx addr.toNat = b) ∧
    (s.cfg.inCap ≤ addr.toNat → exec (.ibr addr) s = .next (s.answer (.refused .badAddress))) ∧
    (addr.toNat < s.cfg.outCap →
      exec (.plr addr) s = .next (s.answer (.ok ((outByte s.tx addr.toNat).setWidth 32))) ∧
      ∀ b, memLookup s.tx.outBuf addr.toNat = some b → outByte s.tx addr.toNat = b) ∧
    (s.cfg.outCap ≤ addr.toNat → exec (.plr addr) s = .next (s.answer (.refused .badAddress))) ∧
    encode (.ibr addr) = .word (BitVec.ofNat 32 (0x30000000 + addr.toNat * 0x100)) ∧
    encode (.plr addr) = .word (BitVec.ofNat 32 (0x40000000 + addr.toNat * 0x100)) ∧
    ∀ data : Byte, data ≠ 0 →
      decode (.word (BitVec.ofNat 32 (0x30000000 + addr.toNat * 0x100 + data.toNat))) = .error .strayBits ∧
      decode (.word (BitVec.ofNat 32 (0x40000000 + addr.toNat * 0x100 + data.toNat))) = .error .strayBits

/-- 43_host_access.md R184: busy before bad address; else exactly the byte at `addr` changes, a `PLR` of it answers the
byte written (at and above `tx_len` too: the model's choice, notes/assumptions/14.md), and `tx_len` and every register
keep their values. -/
def Obligations.PlwWritesOneByte : Prop :=
  ∀ (s : State) (addr : Half) (data : Byte),
    (s.tx.busy = true → exec (.plw addr data) s = .next (s.answer (.refused .txBusy))) ∧
    (s.tx.busy = false → s.cfg.outCap ≤ addr.toNat →
      exec (.plw addr data) s = .next (s.answer (.refused .badAddress))) ∧
    (s.tx.busy = false → addr.toNat < s.cfg.outCap →
      ∃ t, exec (.plw addr data) s = .next t ∧ exec (.plr addr) t = .next (t.answer (.ok (data.setWidth 32))) ∧
        OutBufKept [addr.toNat] s t ∧ RegsKept [] s t ∧ InBufKept [] s t ∧ HdrKept [] s t ∧ Answered (.ok 0) [] [] s t) ∧
    encode (.plw addr data) = .word (BitVec.ofNat 32 (0x50000000 + addr.toNat * 0x100 + data.toNat))

/-- 30_encoding.md R79, `PLFILL`: on an idle encoder the sequence makes the reply's payload exactly the bytes given, and
changes nothing of the other units. -/
def Obligations.PlfillBuildsThePayload : Prop :=
  ∀ (s : State) (payload : List Byte), s.cfg.Legal → s.tx.busy = false → payload.length ≤ s.cfg.outCap →
    ∃ t, execAll (plFill payload) s = .next t ∧ replyPayload t.tx = payload ∧ t.tx.len.toNat = payload.length ∧
      t.tx.version = s.tx.version ∧ t.tx.result = s.tx.result ∧ t.tx.cmd = s.tx.cmd ∧ t.tx.flags = s.tx.flags ∧
      t.tx.busy = false ∧ t.ck = s.ck ∧ t.rx = s.rx ∧
      t.responses = s.responses ++ List.replicate (payload.length + 1) (.ok 0)

/-! ### Checksums -/

/-- 40_checksum.md R96: `XORB` folds its byte into `ck_xor`, answers the new value and changes nothing else; it is
accepted in every state. -/
def Obligations.XorbFoldsOneByte : Prop :=
  ∀ (s : State) (byte : Byte),
    (∃ t, exec (.xorb byte) s = .next t ∧ t.ck.xor = s.ck.xor ^^^ byte ∧ RegsKept [.ckXor] s t ∧ InBufKept [] s t ∧
      OutBufKept [] s t ∧ HdrKept [] s t ∧ Answered (.ok ((s.ck.xor ^^^ byte).setWidth 32)) [] [] s t) ∧
    encode (.xorb byte) = .word (BitVec.ofNat 32 (0x60000000 + byte.toNat)) ∧
    (byte = 0 → s.ck.xor ^^^ byte = s.ck.xor) ∧ (byte = s.ck.xor → s.ck.xor ^^^ byte = 0)

/-- 40_checksum.md R97: `CRCB` folds its byte into `ck_crc`, answers the new value and changes nothing else; it is
accepted in every state. -/
def Obligations.CrcbFoldsOneByte : Prop :=
  ∀ (s : State) (byte : Byte),
    (∃ t, exec (.crcb byte) s = .next t ∧ t.ck.crc = crc8Dvb s.ck.crc byte ∧ RegsKept [.ckCrc] s t ∧ InBufKept [] s t ∧
      OutBufKept [] s t ∧ HdrKept [] s t ∧ Answered (.ok ((crc8Dvb s.ck.crc byte).setWidth 32)) [] [] s t) ∧
    encode (.crcb byte) = .word (BitVec.ofNat 32 (0x70000000 + byte.toNat)) ∧
    (byte = s.ck.crc → crc8Dvb s.ck.crc byte = 0) ∧ crc8Dvb 0 0 = 0 ∧ crc8Dvb 0 1 = 0xD5

/-- 30_encoding.md R79, `XORSEED` and `XORFOLD`, `CRCSEED` and `CRCFOLD`: seeding an accumulator and folding bytes into
it leaves the checksum function of 40_checksum.md R90 or R92 of that seed and those bytes, and nothing else changed. -/
def Obligations.FoldsComputeTheChecksumFunctions : Prop :=
  ∀ (s : State) (seed : Byte) (bytes : List Byte),
    (∃ t, execAll (xorSeed (seed.setWidth 16) ++ xorFold bytes) s = .next t ∧ t.ck.xor = xorChecksum seed bytes ∧
      t.ck.crc = s.ck.crc ∧ t.rx = s.rx ∧ t.tx = s.tx) ∧
    (∃ t, execAll (crcSeed (seed.setWidth 16) ++ crcFold bytes) s = .next t ∧ t.ck.crc = crc8DvbUpdate seed bytes ∧
      t.ck.xor = s.ck.xor ∧ t.rx = s.rx ∧ t.tx = s.tx)

/-- 40_checksum.md R94 item 3: the CRC is linear over XOR, for messages of equal length and their seeds; a CRC from seed
0 over zero bytes is 0, so leading zeros do not change it. -/
def Obligations.CrcIsLinearOverXor : Prop :=
  (∀ (s₁ s₂ : Byte) (m₁ m₂ : List Byte), m₁.length = m₂.length →
    crc8DvbUpdate (s₁ ^^^ s₂) (List.zipWith (· ^^^ ·) m₁ m₂) = crc8DvbUpdate s₁ m₁ ^^^ crc8DvbUpdate s₂ m₂) ∧
  ∀ (n : Nat) (m : List Byte), crc8DvbUpdate 0 (List.replicate n 0 ++ m) = crc8DvbUpdate 0 m

/-- 40_checksum.md R94 items 5 and 6: a message followed by its own checksum has residue 0, and the XOR checksum does not
depend on the order of the bytes. -/
def Obligations.ChecksumResiduesAndByteOrder : Prop :=
  ∀ (s : Byte) (m : List Byte),
    crc8DvbUpdate s (m ++ [crc8DvbUpdate s m]) = 0 ∧ xorChecksum s (m ++ [xorChecksum s m]) = 0 ∧
    ∀ m', m'.Perm m → xorChecksum s m' = xorChecksum s m

/-- 40_checksum.md R94 items 4 and 8: replacing one byte of a message changes both checksums of the message. -/
def Obligations.OneChangedByteChangesTheChecksum : Prop :=
  ∀ (s x y : Byte) (pre post : List Byte), x ≠ y →
    crc8DvbUpdate s (pre ++ x :: post) ≠ crc8DvbUpdate s (pre ++ y :: post) ∧
    xorChecksum s (pre ++ x :: post) ≠ xorChecksum s (pre ++ y :: post)

/-! ### Deframer, one rule per receive state -/

/-- 41_deframer.md R111, R112: only `'$'` leaves `Idle`; `HeaderStart` takes `'M'` or `'X'` and sets the version, and
aborts on any other byte. -/
def Obligations.RxbFindsTheFrameStart : Prop :=
  ∀ (s : State) (b : Byte),
    (s.rx.state = .idle →
      exec (.rxb b) s = .next (Took b { s.rx with state := if b = 0x24 then .headerStart else .idle } s)) ∧
    (s.rx.state = .headerStart →
      exec (.rxb b) s = .next (Took b
        (if b = 0x4D then { s.rx with version := .v1, state := .headerM }
         else if b = 0x58 then { s.rx with version := .v2Native, state := .headerX }
         else { s.rx with state := .idle }) s))

/-- 41_deframer.md R113, R114: `'<'` and `'>'` set the packet type, clear the counter and both checksums and enter the
header state of the magic; any other byte aborts and clears nothing. -/
def Obligations.RxbTakesTheDirection : Prop :=
  ∀ (s : State) (b : Byte) (next : RxState),
    (s.rx.state = .headerM ∧ next = .headerV1) ∨ (s.rx.state = .headerX ∧ next = .headerV2Native) →
    exec (.rxb b) s = .next (Took b
      (if b = 0x3C then { s.rx with ptype := .command, offset := 0, ck1 := 0, ck2 := 0, state := next }
       else if b = 0x3E then { s.rx with ptype := .reply, offset := 0, ck1 := 0, ck2 := 0, state := next }
       else { s.rx with state := .idle }) s)

/-- 41_deframer.md R115: the V1 header. The first byte is staged and folded; the second completes the header: a size
above `IN_CAP` aborts, then the sentinel 255 with size at least 6 starts a V2-over-V1 header and below 6 aborts, else the
plain V1 packet's size, command and flags are recorded. With the checksums of the frame so far in the registers,
`rx_ck1` then holds the XOR of the two header bytes and `rx_ck2` is still 0. -/
def Obligations.RxbTakesTheV1Header : Prop :=
  ∀ (s : State) (b : Byte), s.rx.state = .headerV1 →
    let d := { s.rx with
      hdr := memStore s.rx.hdr s.rx.offset.toNat b, offset := s.rx.offset + 1, ck1 := s.rx.ck1 ^^^ b }
    let size := hdrByte s.rx 0
    (s.rx.offset = 0 → exec (.rxb b) s = .next (Took b d s)) ∧
    (s.rx.offset = 1 →
      (s.rx.Checked s.cfg.inCap → d.ck1 = size ^^^ b ∧ d.ck2 = 0) ∧
      (s.cfg.inCap < size.toNat → exec (.rxb b) s = .next (Took b { d with state := .idle } s)) ∧
      (size.toNat ≤ s.cfg.inCap → b = 255 → 6 ≤ size.toNat →
        exec (.rxb b) s = .next (Took b { d with version := .v2OverV1, offset := 0, state := .headerV2OverV1 } s)) ∧
      (size.toNat ≤ s.cfg.inCap → b = 255 → size.toNat < 6 →
        exec (.rxb b) s = .next (Took b { d with state := .idle } s)) ∧
      (size.toNat ≤ s.cfg.inCap → b ≠ 255 →
        exec (.rxb b) s = .next (Took b { d with
          size := size.setWidth 16, cmd := b.setWidth 16, flags := 0, offset := 0,
          state := if size = 0 then .checksumV1 else .payloadV1 } s)))

/-- 41_deframer.md R116, R117: the V2 header inside a V1 frame (both checksums) and the V2-native header (CRC only). Four
bytes are staged; the fifth completes the header: a size above `IN_CAP` aborts, else flags, command and size are
recorded and an empty payload skips the payload state. -/
def Obligations.RxbTakesTheV2Header : Prop :=
  ∀ (s : State) (b : Byte) (payload checksum : RxState) (ck1 : Byte),
    (s.rx.state = .headerV2OverV1 ∧ payload = .payloadV2OverV1 ∧ checksum = .checksumV2OverV1 ∧ ck1 = s.rx.ck1 ^^^ b) ∨
      (s.rx.state = .headerV2Native ∧ payload = .payloadV2Native ∧ checksum = .checksumV2Native ∧ ck1 = s.rx.ck1) →
    let d := { s.rx with
      hdr := memStore s.rx.hdr s.rx.offset.toNat b, offset := s.rx.offset + 1, ck1 := ck1, ck2 := crc8Dvb s.rx.ck2 b }
    let size := u16le (hdrByte s.rx 3) b
    (s.rx.offset.toNat < 4 → exec (.rxb b) s = .next (Took b d s)) ∧
    (s.rx.offset = 4 →
      (s.cfg.inCap < size.toNat → exec (.rxb b) s = .next (Took b { d with state := .idle } s)) ∧
      (size.toNat ≤ s.cfg.inCap →
        exec (.rxb b) s = .next (Took b { d with
          flags := hdrByte s.rx 0, cmd := u16le (hdrByte s.rx 1) (hdrByte s.rx 2), size := size, offset := 0,
          state := if size = 0 then checksum else payload } s)))

/-- 41_deframer.md R118, R119, R120: each payload byte is stored at `in_buf[rx_offset]` and folded into the checksums of
its layout; the declared length reached, the checksum state follows. The clause that in a payload state that meets the
invariant `rx_size >= 1` and `rx_offset < rx_size <= IN_CAP` is an inference, which R118 itself marks '[derived: from rule R115]'
(41_deframer.md: "`rx_size >= 1` in this state and `rx_offset < rx_size <= IN_CAP` before the store, so the store is
always inside the buffer"); for the two V2 payload states the model infers it in the same way from R116 and R117. -/
def Obligations.RxbStoresThePayload : Prop :=
  ∀ (s : State) (b : Byte) (ck1 ck2 : Byte) (checksum : RxState),
    (s.rx.state = .payloadV1 ∧ ck1 = s.rx.ck1 ^^^ b ∧ ck2 = s.rx.ck2 ∧ checksum = .checksumV1) ∨
      (s.rx.state = .payloadV2OverV1 ∧ ck1 = s.rx.ck1 ^^^ b ∧ ck2 = crc8Dvb s.rx.ck2 b ∧ checksum = .checksumV2OverV1) ∨
      (s.rx.state = .payloadV2Native ∧ ck1 = s.rx.ck1 ∧ ck2 = crc8Dvb s.rx.ck2 b ∧ checksum = .checksumV2Native) →
    (s.Inv → 1 ≤ s.rx.size.toNat ∧ s.rx.offset.toNat < s.rx.size.toNat ∧ s.rx.size.toNat ≤ s.cfg.inCap) ∧
    (s.rx.offset.toNat < s.cfg.inCap →
      exec (.rxb b) s = .next (Took b { s.rx with
        inBuf := memStore s.rx.inBuf s.rx.offset.toNat b, offset := s.rx.offset + 1, ck1 := ck1, ck2 := ck2,
        state := if s.rx.offset + 1 = s.rx.size then checksum else s.rx.state } s))

/-- 41_deframer.md R121, R122, R123: the arriving byte against the running checksum. The inner CRC byte of a V2-over-V1
frame is folded into checksum-1 on both paths and leads to the outer check. -/
def Obligations.RxbVerifiesTheChecksum : Prop :=
  ∀ (s : State) (b : Byte),
    (s.rx.state = .checksumV1 →
      exec (.rxb b) s = .next (Took b { s.rx with state := if b = s.rx.ck1 then .commandReceived else .idle } s)) ∧
    (s.rx.state = .checksumV2OverV1 →
      exec (.rxb b) s = .next (Took b { s.rx with
        ck1 := s.rx.ck1 ^^^ b, state := if b = s.rx.ck2 then .checksumV1 else .idle } s)) ∧
    (s.rx.state = .checksumV2Native →
      exec (.rxb b) s = .next (Took b { s.rx with state := if b = s.rx.ck2 then .commandReceived else .idle } s))

/-- 41_deframer.md R124, R125, R126: in `CommandReceived` a byte is refused and not consumed; `RXACK` takes the packet
there and is refused elsewhere; `RXRST` is never refused; both change `rx_state` only. -/
def Obligations.PendingPacketIsHeldUntilReleased : Prop :=
  ∀ (s : State) (b : Byte),
    (s.rx.state = .commandReceived → exec (.rxb b) s = .next (s.answer (.refused .rxPacketPending))) ∧
    (s.rx.state = .commandReceived →
      exec .rxack s = .next ((s.setRx { s.rx with state := .idle }).answer (.ok 0))) ∧
    (s.rx.state ≠ .commandReceived → exec .rxack s = .next (s.answer (.refused .rxNoPacket))) ∧
    exec .rxrst s = .next ((s.setRx { s.rx with state := .idle }).answer (.ok 0)) ∧
    encode .rxack = .word 0x90000000 ∧ encode .rxrst = .word 0xA0000000

/-! ### Deframer, as a whole -/

/-- 41_deframer.md R110: outside `CommandReceived`, in every state that meets the invariant, `RXB` takes its byte: the
byte is consumed and the response is the number of the new receive state. The pair of states is an arrow of the
transition summary (R133). -/
def Obligations.RxbTakesEveryByte : Prop :=
  ∀ (s : State) (b : Byte), s.Inv → s.rx.state ≠ .commandReceived →
    ∃ d : Deframer, exec (.rxb b) s = .next (Took b d s) ∧ (s.rx.state, d.state) ∈ rxArrows ∧ d.draw = s.rx.draw

/-- 60_exceptions.md R201, R203, R205: a frame is aborted for a cause exactly under the condition of that cause, so for
at most one cause; the byte is consumed, the response is `ok` with 0, and the packet registers and `in_buf` keep their
values. (That the cause is named inside the rule and then dropped is the model's choice: notes/assumptions/10.md.) -/
def Obligations.AbortsExactlyWhenSpecified : Prop :=
  ∀ (s : State) (b : Byte), s.Inv →
    (∀ cause, (∃ d, rxRule s.cfg.inCap b s.rx = some (.abort cause d)) ↔ abortsFor cause b s.cfg.inCap s.rx) ∧
    (∀ cause, abortsFor cause b s.cfg.inCap s.rx →
      ∃ d, exec (.rxb b) s = .next (Took b d s) ∧ d.state = .idle ∧ d.version = s.rx.version ∧ d.ptype = s.rx.ptype ∧
        d.size = s.rx.size ∧ d.cmd = s.rx.cmd ∧ d.flags = s.rx.flags ∧ d.inBuf = s.rx.inBuf)

/-- 41_deframer.md R111, R131: bytes without `'$'` that arrive in `Idle` are discarded: the deframer keeps all its state
and every response is `ok` with 0. -/
def Obligations.NoiseIsDiscardedSilently : Prop :=
  ∀ (s : State) (bytes : List Byte), s.rx.state = .idle → (∀ b ∈ bytes, b ≠ 0x24) →
    ∃ t, execAll (rxFrame bytes) s = .next t ∧ t.rx = s.rx ∧ t.ck = s.ck ∧ t.tx = s.tx ∧ t.rxs = s.rxs ++ bytes ∧
      t.responses = s.responses ++ List.replicate bytes.length (.ok 0)

/-- 41_deframer.md R124: while a packet is pending no byte is taken, however many are presented. -/
def Obligations.NoByteIsTakenWhilePending : Prop :=
  ∀ (s : State) (bytes : List Byte), s.rx.state = .commandReceived →
    ∃ t, execAll (rxFrame bytes) s = .next t ∧ t.rx = s.rx ∧ t.rxs = s.rxs ∧
      t.responses = s.responses ++ List.replicate bytes.length (.refused .rxPacketPending)

/-- 41_deframer.md R128 (a), R127: a V1 frame with a right checksum that arrives in `Idle` is delivered. (That the
arrival of a whole frame is one instruction is the model's choice: notes/assumptions/5.md.) -/
def Obligations.GoodV1FrameIsDelivered : Prop :=
  ∀ (s : State) (dir : Direction) (cmd : Byte) (p : List Byte), s.Inv → s.rx.state = .idle → dir ≠ .replyError →
    p.length ≤ s.cfg.inCap → cmd ≠ 255 →
    ∃ t, exec (.frameV1 dir cmd p (xorChecksum 0 ([BitVec.ofNat 8 p.length, cmd] ++ p))) s = .next t ∧
      Delivered .v1 (if dir = .request then .command else .reply) (cmd.setWidth 16) 0 p t.rx ∧
      t.ck = s.ck ∧ t.tx = s.tx

/-- 41_deframer.md R128 (b), R127: a V2-native frame with a right CRC that arrives in `Idle` is delivered. (That the
arrival of a whole frame is one instruction is the model's choice: notes/assumptions/5.md.) -/
def Obligations.GoodV2NativeFrameIsDelivered : Prop :=
  ∀ (s : State) (dir : Direction) (flags : Byte) (cmd : Half) (p : List Byte), s.Inv → s.rx.state = .idle →
    dir ≠ .replyError → p.length ≤ s.cfg.inCap →
    ∃ t, exec (.frameV2Native dir flags cmd p
          (crc8DvbUpdate 0 ([flags, lo8 cmd, hi8 cmd, BitVec.ofNat 8 p.length, 0] ++ p))) s = .next t ∧
      Delivered .v2Native (if dir = .request then .command else .reply) cmd flags p t.rx ∧
      t.ck = s.ck ∧ t.tx = s.tx

/-- 41_deframer.md R128 (c), R127, R129: a V2-over-V1 frame with both checksums right that arrives in `Idle` is
delivered, whatever its V1 size byte from 6 to `IN_CAP` says. (That the arrival of a whole frame is one instruction is
the model's choice: notes/assumptions/5.md.) -/
def Obligations.GoodV2OverV1FrameIsDelivered : Prop :=
  ∀ (s : State) (dir : Direction) (v1Size flags : Byte) (cmd : Half) (p : List Byte) (k : Byte), s.Inv →
    s.rx.state = .idle → dir ≠ .replyError → p.length ≤ s.cfg.inCap → 6 ≤ v1Size.toNat → v1Size.toNat ≤ s.cfg.inCap →
    k = crc8DvbUpdate 0 ([flags, lo8 cmd, hi8 cmd, BitVec.ofNat 8 p.length, 0] ++ p) →
    ∃ t, exec (.frameV2OverV1 dir v1Size flags cmd p k
          (xorChecksum 0 ([v1Size, 255, flags, lo8 cmd, hi8 cmd, BitVec.ofNat 8 p.length, 0] ++ p ++ [k]))) s = .next t ∧
      Delivered .v2OverV1 (if dir = .request then .command else .reply) cmd flags p t.rx ∧
      t.ck = s.ck ∧ t.tx = s.tx

/-- 41_deframer.md R121, R122, R123 on whole frames (the source's corruption rejection): a frame whose last checksum
byte is wrong, or whose inner CRC is wrong, ends without a pending packet. (That the arrival of a whole frame is one
instruction is the model's choice: notes/assumptions/5.md.) -/
def Obligations.CorruptedFramesAreDropped : Prop :=
  ∀ (s : State) (dir : Direction) (v1Size flags : Byte) (cmd : Half) (p : List Byte) (k x : Byte), s.Inv →
    s.rx.state = .idle → dir ≠ .replyError → p.length ≤ s.cfg.inCap →
    let header := [flags, lo8 cmd, hi8 cmd, BitVec.ofNat 8 p.length, 0]
    (lo8 cmd ≠ 255 → x ≠ xorChecksum 0 ([BitVec.ofNat 8 p.length, lo8 cmd] ++ p) →
      ∃ t, exec (.frameV1 dir (lo8 cmd) p x) s = .next t ∧ t.rx.state = .idle) ∧
    (k ≠ crc8DvbUpdate 0 (header ++ p) →
      ∃ t, exec (.frameV2Native dir flags cmd p k) s = .next t ∧ t.rx.state = .idle) ∧
    (6 ≤ v1Size.toNat → v1Size.toNat ≤ s.cfg.inCap → k ≠ crc8DvbUpdate 0 (header ++ p) →
      ∃ t, exec (.frameV2OverV1 dir v1Size flags cmd p k x) s = .next t ∧
        t.rx.state = if x = 0x24 then .headerStart else .idle) ∧
    (6 ≤ v1Size.toNat → v1Size.toNat ≤ s.cfg.inCap → k = crc8DvbUpdate 0 (header ++ p) →
      x ≠ xorChecksum 0 ([v1Size, 255] ++ header ++ p ++ [k]) →
      ∃ t, exec (.frameV2OverV1 dir v1Size flags cmd p k x) s = .next t ∧ t.rx.state = .idle)

/-- 41_deframer.md R128, the other direction: bytes presented from `Idle` that end in `CommandReceived` on the last byte,
with no earlier visit to `Idle` or `CommandReceived` after the first byte, are one of the three forms. -/
def Obligations.OnlyWellFormedFramesAreDelivered : Prop :=
  ∀ (s t : State) (bytes : List Byte), s.Inv → s.rx.state = .idle →
    execAll (rxFrame bytes) s = .next t → t.rx.state = .commandReceived →
    (∀ k u, 0 < k → k < bytes.length → execAll (rxFrame (bytes.take k)) s = .next u →
      u.rx.state ≠ .idle ∧ u.rx.state ≠ .commandReceived) →
    AcceptedFrame s.cfg.inCap bytes

/-- 41_deframer.md R130: a jumbo frame that arrives in `Idle` is rejected at its command byte, and the bytes after it
are presented to the deframer in `Idle`; if none of them is `'$'`, nothing is delivered, `rx_size`, `rx_cmd`, `rx_flags`
and `in_buf` keep their values, `rx_version` is V1 (set at `'M'`, R112) and `rx_ptype` that of the direction byte
(R113). (That the arrival of a whole frame is one instruction is the model's choice: notes/assumptions/5.md.) -/
def Obligations.JumboFramesAreNotReceived : Prop :=
  ∀ (s : State) (dir : Direction) (i : Instr) (cmd : Byte) (rest : List Byte), s.Inv → s.rx.state = .idle →
    dir ≠ .replyError →
    ((∃ p x, i = .frameV1Jumbo dir cmd p x) ∨ (cmd = 255 ∧ ∃ t f c p k x, i = .frameV2OverV1Jumbo dir t f c p k x)) →
    encode i = .wire ([0x24, 0x4D, dirByte dir, 255, cmd] ++ rest) →
    ∃ u, execAll (rxFrame [0x24, 0x4D, dirByte dir, 255, cmd]) s = .next u ∧ u.rx.state = .idle ∧
      exec i s = execAll (rxFrame rest) u ∧
      ((∀ b ∈ rest, b ≠ 0x24) → ∃ t, exec i s = .next t ∧ t.rx = u.rx ∧ t.rx.size = s.rx.size ∧ t.rx.cmd = s.rx.cmd ∧
        t.rx.flags = s.rx.flags ∧ t.rx.inBuf = s.rx.inBuf ∧ t.rx.version = .v1 ∧
        t.rx.ptype = (if dir = .request then .command else .reply) ∧ t.ck = s.ck ∧ t.tx = s.tx)

/-- 70_reset_and_hazards.md R230: a rejected jumbo frame whose payload begins with a well-formed frame of any of the
three forms of 41_deframer.md R128 delivers that inner frame: the packet is the one the inner frame's bytes alone
deliver, and for a V1 inner frame it is written out. (That the arrival of a whole frame is one instruction is the
model's choice: notes/assumptions/5.md.) -/
def Obligations.InnerFrameOfARejectedFrameIsDelivered : Prop :=
  ∀ (s : State) (dir : Direction) (cmd x : Byte) (innerBytes more : List Byte), s.Inv → s.rx.state = .idle →
    dir ≠ .replyError → AcceptedFrame s.cfg.inCap innerBytes →
    let payload := innerBytes ++ more
    lo8 (BitVec.ofNat 16 payload.length) ≠ 0x24 → hi8 (BitVec.ofNat 16 payload.length) ≠ 0x24 →
    ∃ t, exec (.frameV1Jumbo dir cmd payload x) s = .next t ∧
      (∃ u, execAll (rxFrame innerBytes) s = .next u ∧ u.rx.state = .commandReceived ∧
        Delivered u.rx.version u.rx.ptype u.rx.cmd u.rx.flags (packetPayload u.rx) t.rx) ∧
      ∀ (inner : Direction) (c : Byte) (p : List Byte), inner ≠ .replyError → p.length ≤ s.cfg.inCap → c ≠ 255 →
        innerBytes = frameV1Bytes inner c p (xorChecksum 0 ([BitVec.ofNat 8 p.length, c] ++ p)) →
        Delivered .v1 (if inner = .request then .command else .reply) (c.setWidth 16) 0 p t.rx

/-- 30_encoding.md R61, R72: a frame whose direction byte is `'!'` is rejected on receive at that byte; if no later byte
is `'$'`, nothing is delivered and no packet register but the version changes. (That the arrival of a whole frame is one
instruction is the model's choice: notes/assumptions/5.md.) -/
def Obligations.ErrorDirectionIsNotReceived : Prop :=
  ∀ (s : State) (i : Instr) (magic : Byte) (rest : List Byte), s.rx.state = .idle →
    encode i = .wire ([0x24, magic, 0x21] ++ rest) → (magic = 0x4D ∨ magic = 0x58) → (∀ b ∈ rest, b ≠ 0x24) →
    ∃ t, exec i s = .next t ∧
      t.rx = { s.rx with version := if magic = 0x4D then .v1 else .v2Native } ∧ t.ck = s.ck ∧ t.tx = s.tx

/-- 10_state.md R19, 93_implementation_defined.md U6: the deframer never looks at a byte of `rx_hdr` or `in_buf` that
has not been written since the reset: with any other unspecified content `RXB` does the same. (That unspecified content
is a free value chosen by a counter of the model's is its own choice: notes/assumptions/3.md.) -/
def Obligations.DeframerIgnoresUnspecifiedContent : Prop :=
  ∀ (s t : State) (b : Byte) (n : Nat), s.Inv → exec (.rxb b) s = .next t →
    exec (.rxb b) (s.setRx { s.rx with draw := n }) = .next (t.setRx { t.rx with draw := n })

/-! ### Encoder -/

/-- 42_encoder.md R151 to R155: the bytes of every frame the encoder makes, layout by layout, with both jumbo
thresholds. -/
def Obligations.FrameBytesAreTheLayouts : Prop :=
  ∀ (cmd : Half) (flags : Byte) (p : List Byte) (result : ReplyResult) (dir : Byte),
    ((result = .ack ∧ dir = 0x3E) ∨ (result = .error ∧ dir = 0x21)) →
    let l8 := BitVec.ofNat 8 p.length
    let l16 := BitVec.ofNat 16 p.length
    let t16 := BitVec.ofNat 16 (6 + p.length)
    let v2h := [flags, lo8 cmd, hi8 cmd, lo8 l16, hi8 l16]
    let k := crc8DvbUpdate 0 (v2h ++ p)
    (p.length ≤ 254 → frame .v1 result cmd flags p =
      [0x24, 0x4D, dir, l8, lo8 cmd] ++ p ++ [xorChecksum 0 ([l8, lo8 cmd] ++ p)]) ∧
    (255 ≤ p.length → frame .v1 result cmd flags p =
      [0x24, 0x4D, dir, 255, lo8 cmd, lo8 l16, hi8 l16] ++ p ++
        [xorChecksum 0 ([255, lo8 cmd, lo8 l16, hi8 l16] ++ p)]) ∧
    (p.length ≤ 248 → frame .v2OverV1 result cmd flags p =
      [0x24, 0x4D, dir, BitVec.ofNat 8 (6 + p.length), 255] ++ v2h ++ p ++
        [k, xorChecksum 0 ([BitVec.ofNat 8 (6 + p.length), 255] ++ v2h ++ p ++ [k])]) ∧
    (249 ≤ p.length → frame .v2OverV1 result cmd flags p =
      [0x24, 0x4D, dir, 255, 255, lo8 t16, hi8 t16] ++ v2h ++ p ++
        [k, xorChecksum 0 ([255, 255, lo8 t16, hi8 t16] ++ v2h ++ p ++ [k])]) ∧
    frame .v2Native result cmd flags p = [0x24, 0x58, dir] ++ v2h ++ p ++ [k] ∧
    ∀ v, frame v .noReply cmd flags p = [] ∧ frame v .unknown cmd flags p = []

/-- The frames the encoder makes are the frame rows of the opcode table: decoding one gives the row of its layout with
the reply's command, flags and payload (30_encoding.md R63 to R68, R70; 42_encoder.md R153 to R155). (That the frame
rows are instructions is the model's choice: notes/assumptions/5.md.) -/
def Obligations.SentFramesDecodeToTheirLayout : Prop :=
  ∀ (cmd : Half) (flags : Byte) (p : List Byte) (result : ReplyResult) (dir : Direction), p.length ≤ 65529 →
    ((result = .ack ∧ dir = .replySuccess) ∨ (result = .error ∧ dir = .replyError)) →
    (p.length ≤ 254 → lo8 cmd ≠ 255 →
      ∃ x, decode (.wire (frame .v1 result cmd flags p)) = .ok (.frameV1 dir (lo8 cmd) p x)) ∧
    (255 ≤ p.length → lo8 cmd ≠ 255 →
      ∃ x, decode (.wire (frame .v1 result cmd flags p)) = .ok (.frameV1Jumbo dir (lo8 cmd) p x)) ∧
    (p.length ≤ 248 → ∃ k x, decode (.wire (frame .v2OverV1 result cmd flags p)) =
      .ok (.frameV2OverV1 dir (BitVec.ofNat 8 (6 + p.length)) flags cmd p k x)) ∧
    (249 ≤ p.length → ∃ k x, decode (.wire (frame .v2OverV1 result cmd flags p)) =
      .ok (.frameV2OverV1Jumbo dir (BitVec.ofNat 16 (6 + p.length)) flags cmd p k x)) ∧
    ∃ k, decode (.wire (frame .v2Native result cmd flags p)) = .ok (.frameV2Native dir flags cmd p k)

/-- 42_encoder.md R156: the frame lengths. -/
def Obligations.FrameLengthsAreAsTabled : Prop :=
  ∀ (cmd : Half) (flags : Byte) (p : List Byte) (result : ReplyResult), result = .ack ∨ result = .error →
    (p.length ≤ 254 → (frame .v1 result cmd flags p).length = 6 + p.length) ∧
    (255 ≤ p.length → (frame .v1 result cmd flags p).length = 8 + p.length) ∧
    (p.length ≤ 248 → (frame .v2OverV1 result cmd flags p).length = 12 + p.length) ∧
    (249 ≤ p.length → (frame .v2OverV1 result cmd flags p).length = 14 + p.length) ∧
    (frame .v2Native result cmd flags p).length = 9 + p.length

/-- 42_encoder.md R157: `TXGO` is refused while busy, sends nothing for `NoReply` and `Unknown`, and otherwise starts the
frame and answers its length; nothing else changes. -/
def Obligations.TxgoStartsTheFrame : Prop :=
  ∀ s : State,
    (s.tx.busy = true → exec .txgo s = .next (s.answer (.refused .txBusy))) ∧
    (s.tx.busy = false → (s.tx.result = .noReply ∨ s.tx.result = .unknown) →
      exec .txgo s = .next (s.answer (.ok 0))) ∧
    (s.tx.busy = false → (s.tx.result = .ack ∨ s.tx.result = .error) →
      ∃ t, exec .txgo s = .next t ∧ t.tx = { s.tx with busy := true, pos := 0 } ∧
        RegsKept [.txBusy, .txPos] s t ∧ InBufKept [] s t ∧ OutBufKept [] s t ∧ HdrKept [] s t ∧
        Answered (.ok (BitVec.ofNat 32 (replyFrame s.tx).length)) [] [] s t) ∧
    encode .txgo = .word 0xB0000000

/-- 42_encoder.md R158: `TXB` is refused while not busy; else it hands out the byte at `tx_pos` with the `last` bit,
advances `tx_pos` by one and clears `tx_busy` with the last byte; nothing else changes. -/
def Obligations.TxbHandsOutTheNextByte : Prop :=
  ∀ s : State,
    (s.tx.busy = false → exec .txb s = .next (s.answer (.refused .txIdle))) ∧
    (s.tx.busy = true → s.tx.pos.toNat < (replyFrame s.tx).length →
      ∃ t, exec .txb s = .next t ∧
        t.tx = { s.tx with
          pos := s.tx.pos + 1, busy := decide (s.tx.pos.toNat + 1 ≠ (replyFrame s.tx).length) } ∧
        RegsKept [.txBusy, .txPos] s t ∧ InBufKept [] s t ∧ OutBufKept [] s t ∧ HdrKept [] s t ∧
        Answered (txbResponse (replyFrame s.tx) s.tx.pos.toNat) [] [(replyFrame s.tx).getD s.tx.pos.toNat 0] s t) ∧
    encode .txb = .word 0xC0000000

/-- 42_encoder.md R157 to R159, 20_memory.md R47 (d): `TXGO` then one `TXB` per byte sends exactly the frame, in order
and complete; the last response and only it has `last = 1`; the encoder is then idle with `tx_pos` equal to the frame
length, and the other units are untouched. (That the bytes sent are kept in a list is the model's choice:
notes/assumptions/2.md.) -/
def Obligations.DrainSendsExactlyTheFrame : Prop :=
  ∀ s : State, s.Inv → s.tx.busy = false → (s.tx.result = .ack ∨ s.tx.result = .error) →
    let whole := replyFrame s.tx
    ∃ t, execAll (.txgo :: txDrain whole.length) s = .next t ∧ t.txs = s.txs ++ whole ∧
      t.responses = s.responses ++ .ok (BitVec.ofNat 32 whole.length) ::
        (List.range whole.length).map (txbResponse whole) ∧
      t.tx = { s.tx with busy := false, pos := BitVec.ofNat 17 whole.length } ∧ t.tx.pos.toNat = whole.length ∧
      t.ck = s.ck ∧ t.rx = s.rx ∧ t.rxs = s.rxs

/-- 42_encoder.md R160: while `tx_busy` is 1 no instruction changes the descriptor or `out_buf`, so the frame being sent
is constant. -/
def Obligations.BusyFreezesTheReply : Prop :=
  ∀ (i : Instr) (s t : State), s.tx.busy = true → exec i s = .next t →
    t.tx.version = s.tx.version ∧ t.tx.result = s.tx.result ∧ t.tx.cmd = s.tx.cmd ∧ t.tx.flags = s.tx.flags ∧
    t.tx.len = s.tx.len ∧ t.tx.outBuf = s.tx.outBuf ∧ replyFrame t.tx = replyFrame s.tx

/-- 42_encoder.md R162, R163: under V1 the frame does not depend on the flags nor on the high byte of the command.
(Sending the low byte of a command above 254, where R162 lets a model refuse instead, is the model's choice:
notes/assumptions/8.md.) -/
def Obligations.V1FrameIgnoresFlagsAndHighCommandByte : Prop :=
  ∀ (result : ReplyResult) (cmd cmd' : Half) (flags flags' : Byte) (p : List Byte), lo8 cmd = lo8 cmd' →
    frame .v1 result cmd flags p = frame .v1 result cmd' flags' p

/-- 42_encoder.md R164: a frame the encoder makes for `Ack`, with its direction byte replaced by `'<'` or left as `'>'`,
presented byte by byte to a deframer in `Idle`, is delivered on its last byte and not before, with the version, command,
flags and payload it was made from, within the bounds R164 gives. -/
def Obligations.SentFrameIsReceivedBack : Prop :=
  ∀ (s : State) (version : WireVersion) (cmd : Half) (flags : Byte) (p : List Byte) (dir : Byte), s.Inv →
    s.rx.state = .idle → (dir = 0x3C ∨ dir = 0x3E) →
    (version = .v2OverV1 → 6 + p.length ≤ s.cfg.inCap) → p.length ≤ s.cfg.inCap →
    (version = .v1 → cmd.toNat ≤ 254) →
    let bytes := (frame version .ack cmd flags p).set 2 dir
    (∃ t, execAll (rxFrame bytes) s = .next t ∧
      Delivered version (if dir = 0x3C then .command else .reply) cmd (if version = .v1 then 0 else flags) p t.rx) ∧
    ∀ k, k < bytes.length → ∃ u, execAll (rxFrame (bytes.take k)) s = .next u ∧ u.rx.state ≠ .commandReceived

/-- 93_implementation_defined.md U6: when the host has written every byte of the payload, unspecified content reaches no
frame byte: with any other unspecified content `TXB` hands out the same byte. (That unspecified content is a free value
chosen by a counter of the model's is its own choice: notes/assumptions/3.md.) -/
def Obligations.WrittenPayloadHidesUnspecifiedContent : Prop :=
  ∀ (s t : State) (n : Nat), WrittenTo s.tx.outBuf s.tx.len.toNat → exec .txb s = .next t →
    exec .txb (s.setTx { s.tx with draw := n }) = .next (t.setTx { t.tx with draw := n })

end
end

