-- ==== Sys2Proof/Laws/Checksum.lean ====
section
/-! SUPPORT. The checksum functions as folds (40_checksum.md R94 items 3 and 7). -/

namespace Sys2Proof.Machine

@[simp] theorem xorChecksum_nil (s : Byte) : xorChecksum s [] = s := rfl
@[simp] theorem xorChecksum_cons (s b : Byte) (bs : List Byte) :
    xorChecksum s (b :: bs) = xorChecksum (s ^^^ b) bs := rfl
@[simp] theorem crc8DvbUpdate_nil (s : Byte) : crc8DvbUpdate s [] = s := rfl
@[simp] theorem crc8DvbUpdate_cons (s b : Byte) (bs : List Byte) :
    crc8DvbUpdate s (b :: bs) = crc8DvbUpdate (crc8Dvb s b) bs := rfl

/-- Composition (40_checksum.md R94 item 7). -/
theorem xorChecksum_append (s : Byte) (xs ys : List Byte) :
    xorChecksum s (xs ++ ys) = xorChecksum (xorChecksum s xs) ys := by
  induction xs generalizing s with
  | nil => rfl
  | cons x xs ih => simp [ih]

/-- Composition (40_checksum.md R94 item 7). -/
theorem crc8DvbUpdate_append (s : Byte) (xs ys : List Byte) :
    crc8DvbUpdate s (xs ++ ys) = crc8DvbUpdate (crc8DvbUpdate s xs) ys := by
  induction xs generalizing s with
  | nil => rfl
  | cons x xs ih => simp [ih]

/-- The polynomial XORed into both operands cancels. -/
theorem xor_poly_cancel (x y p : Byte) : (x ^^^ p) ^^^ (y ^^^ p) = x ^^^ y := by
  have h : (x ^^^ p) ^^^ (y ^^^ p) = (x ^^^ y) ^^^ (p ^^^ p) := by ac_rfl
  simpa using h

/-- One shift step is linear over XOR: the step on which R94 item 3 rests. -/
theorem crcShift_xor (a b : Byte) : crcShift (a ^^^ b) = crcShift a ^^^ crcShift b := by
  unfold crcShift
  rw [BitVec.getLsbD_xor, BitVec.shiftLeft_xor_distrib]
  cases a.getLsbD 7 <;> cases b.getLsbD 7 <;>
    simp only [Bool.xor_false, Bool.xor_true, Bool.not_false, Bool.not_true, if_true, if_false, Bool.false_eq_true,
      xor_poly_cancel] <;> ac_rfl

theorem crcShifts_xor (n : Nat) (a b : Byte) : crcShifts n (a ^^^ b) = crcShifts n a ^^^ crcShifts n b := by
  induction n generalizing a b with
  | zero => rfl
  | succ n ih => simp [crcShifts, crcShift_xor, ih]

/-- A shift step that gives 0 started from 0: no two bytes are shifted to the same byte. -/
theorem crcShift_eq_zero_iff (a : Byte) : crcShift a = 0 ↔ a = 0 := by
  revert a
  decide

end Sys2Proof.Machine
end

