-- ==== Sys2Proof/Laws/Decode.lean ====
section
/-! SUPPORT. The fields of the encodings: 16-bit fields and their bytes, direction bytes, and the tails of wire frames. -/

namespace Sys2Proof

@[simp] theorem u16le_lo8_hi8 (v : Half) : u16le (lo8 v) (hi8 v) = v := by
  apply BitVec.eq_of_getLsbD_eq
  intro i hi
  interval_cases i <;> simp [u16le, lo8, hi8]

@[simp] theorem lo8_u16le (b0 b1 : Byte) : lo8 (u16le b0 b1) = b0 := by
  apply BitVec.eq_of_getLsbD_eq
  intro i hi
  interval_cases i <;> simp [u16le, lo8]

@[simp] theorem hi8_u16le (b0 b1 : Byte) : hi8 (u16le b0 b1) = b1 := by
  apply BitVec.eq_of_getLsbD_eq
  intro i hi
  interval_cases i <;> simp [u16le, hi8]

/-- A byte zero-extended to 16 bits has that byte as its low byte. -/
@[simp] theorem lo8_setWidth (b : Byte) : lo8 (b.setWidth 16) = b := by
  apply BitVec.eq_of_getLsbD_eq
  intro i hi
  interval_cases i <;> simp [lo8]

@[simp] theorem dirOfByte_dirByte (dir : Direction) : dirOfByte (dirByte dir) = some dir := by
  cases dir <;> rfl

theorem dirOfByte_eq_some_iff {b : Byte} {dir : Direction} : dirOfByte b = some dir ↔ b = dirByte dir := by
  constructor
  · intro h
    unfold dirOfByte at h
    split at h
    · next hb => cases h; exact hb
    · split at h
      · next hb => cases h; exact hb
      · split at h
        · next hb => cases h; exact hb
        · cases h
  · rintro rfl
    simp

@[simp] theorem toNat_ofNat_half {n : Nat} (h : n ≤ 65535) : (BitVec.ofNat 16 n).toNat = n := by
  rw [BitVec.toNat_ofNat]; omega

theorem toNat_ofNat_byte {n : Nat} (h : n ≤ 255) : (BitVec.ofNat 8 n).toNat = n := by
  rw [BitVec.toNat_ofNat]; omega

theorem ofNat_byte_ne_sentinel {n : Nat} (h : n ≤ 254) : BitVec.ofNat 8 n ≠ sentinel := by
  intro e
  have := congrArg BitVec.toNat e
  rw [toNat_ofNat_byte (by omega)] at this
  have hs : sentinel.toNat = 255 := rfl
  omega

@[simp] theorem decodeTail1_append (payload : List Byte) (x : Byte) (mk : List Byte → Byte → Instr) :
    decodeTail1 payload.length (payload ++ [x]) mk = .ok (mk payload x) := by
  simp [decodeTail1]

@[simp] theorem decodeTail2_append (payload : List Byte) (k x : Byte) (mk : List Byte → Byte → Byte → Instr) :
    decodeTail2 payload.length (payload ++ [k, x]) mk = .ok (mk payload k x) := by
  simp [decodeTail2]

/-- A word whose unnamed bits are zero is accepted (30_encoding.md R74). -/
theorem whenClear_of_clear {w unnamed : Word} (i : Instr) (h : w &&& unnamed = 0#32) :
    whenClear w unnamed i = .ok i := if_pos h

/-- A word with a non-zero unnamed bit is rejected by name (30_encoding.md R76). -/
theorem whenClear_of_stray {w unnamed : Word} (i : Instr) (h : w &&& unnamed ≠ 0#32) :
    whenClear w unnamed i = .error .strayBits := if_neg h

theorem whenClear_eq_ok_iff {w unnamed : Word} {i j : Instr} :
    whenClear w unnamed i = .ok j ↔ w &&& unnamed = 0#32 ∧ i = j := by
  unfold whenClear
  split <;> simp [*]

end Sys2Proof
end

