-- ==== Sys2Proof/Laws/Memory.lean ====
section
/-! SUPPORT. What the byte arrays do: a read after a write to the same index gives the value written, a write leaves
every other index alone, and every write keeps the canonical form and the bounds. -/

namespace Sys2Proof.Machine

@[simp] theorem memLookup_nil (a : Nat) : memLookup [] a = none := rfl

@[simp] theorem memLookup_memStore_self (m : Memory) (a : Nat) (v : Byte) :
    memLookup (memStore m a v) a = some v := by
  induction m with
  | nil => simp [memStore, memLookup]
  | cons c m ih =>
    obtain ⟨k, x⟩ := c
    unfold memStore
    split
    · simp [memLookup]
    · split
      · simp [memLookup]
      · simp [memLookup, *]

theorem memLookup_memStore_of_ne (m : Memory) {a b : Nat} (v : Byte) (h : b ≠ a) :
    memLookup (memStore m a v) b = memLookup m b := by
  induction m with
  | nil => simp [memStore, memLookup, h]
  | cons c m ih =>
    obtain ⟨k, x⟩ := c
    unfold memStore
    split
    · simp [memLookup, h]
    · split
      · next hk => subst hk; simp [memLookup, h]
      · simp [memLookup, ih]

@[simp] theorem memRead_memStore_self (space : Space) (draw : Nat) (m : Memory) (a : Nat) (v : Byte) :
    memRead space draw (memStore m a v) a = v := by
  simp [memRead]

theorem memRead_memStore_of_ne (space : Space) (draw : Nat) (m : Memory) {a b : Nat} (v : Byte) (h : b ≠ a) :
    memRead space draw (memStore m a v) b = memRead space draw m b := by
  simp [memRead, memLookup_memStore_of_ne m v h]

/-- Where a byte has been written, the free content of the array does not show. -/
theorem memRead_of_lookup {m : Memory} {a : Nat} {v : Byte} (h : memLookup m a = some v) (space : Space)
    (draw : Nat) : memRead space draw m a = v := by
  simp [memRead, h]

theorem mem_memStore {m : Memory} {a : Nat} {v : Byte} {c : Host.Cell} (h : c ∈ memStore m a v) :
    c = (a, v) ∨ c ∈ m := by
  induction m with
  | nil => simpa [memStore] using h
  | cons x m ih =>
    obtain ⟨k, y⟩ := x
    unfold memStore at h
    split at h
    · simpa using h
    · split at h
      · rcases List.mem_cons.1 h with h | h
        · exact .inl h
        · exact .inr (List.mem_cons_of_mem _ h)
      · rcases List.mem_cons.1 h with h | h
        · exact .inr (h ▸ List.mem_cons_self)
        · exact (ih h).imp id (List.mem_cons_of_mem _)

/-- A write keeps the canonical form. -/
theorem Memory.Wf.memStore {m : Memory} (h : m.Wf) (a : Nat) (v : Byte) : Memory.Wf (memStore m a v) := by
  induction m with
  | nil => simp [Machine.memStore, Memory.Wf]
  | cons x m ih =>
    obtain ⟨k, y⟩ := x
    obtain ⟨hk, hm⟩ := List.pairwise_cons.1 h
    unfold Machine.memStore
    split
    · next hlt =>
      refine List.pairwise_cons.2 ⟨fun c hc => ?_, h⟩
      rcases List.mem_cons.1 hc with rfl | hc
      · exact hlt
      · exact Nat.lt_trans hlt (hk c hc)
    · split
      · next heq => subst heq; exact List.pairwise_cons.2 ⟨hk, hm⟩
      · next hge hne =>
        refine List.pairwise_cons.2 ⟨fun c hc => ?_, ih hm⟩
        rcases mem_memStore hc with rfl | hc
        · show k < a; omega
        · exact hk c hc

/-- A write inside an array keeps every listed index inside it. -/
theorem Memory.Below.memStore {m : Memory} {n a : Nat} (h : m.Below n) (ha : a < n) (v : Byte) :
    Memory.Below n (memStore m a v) := fun c hc => by
  rcases mem_memStore hc with rfl | hc
  · exact ha
  · exact h c hc

end Sys2Proof.Machine
end

