-- ==== Sys2Proof/Laws/State.lean ====
section
/-! SUPPORT. One lemma per field per update of the state, true by `rfl`, so that no proof unfolds a record update. -/

namespace Sys2Proof.Machine

section
variable (s : State) (c : ChecksumUnit)
@[simp] theorem State.setCk_cfg : (s.setCk c).cfg = s.cfg := rfl
@[simp] theorem State.setCk_ck : (s.setCk c).ck = c := rfl
@[simp] theorem State.setCk_rx : (s.setCk c).rx = s.rx := rfl
@[simp] theorem State.setCk_tx : (s.setCk c).tx = s.tx := rfl
@[simp] theorem State.setCk_pending : (s.setCk c).pending = s.pending := rfl
@[simp] theorem State.setCk_responses : (s.setCk c).responses = s.responses := rfl
@[simp] theorem State.setCk_rxs : (s.setCk c).rxs = s.rxs := rfl
@[simp] theorem State.setCk_txs : (s.setCk c).txs = s.txs := rfl
end

section
variable (s : State) (d : Deframer)
@[simp] theorem State.setRx_cfg : (s.setRx d).cfg = s.cfg := rfl
@[simp] theorem State.setRx_ck : (s.setRx d).ck = s.ck := rfl
@[simp] theorem State.setRx_rx : (s.setRx d).rx = d := rfl
@[simp] theorem State.setRx_tx : (s.setRx d).tx = s.tx := rfl
@[simp] theorem State.setRx_pending : (s.setRx d).pending = s.pending := rfl
@[simp] theorem State.setRx_responses : (s.setRx d).responses = s.responses := rfl
@[simp] theorem State.setRx_rxs : (s.setRx d).rxs = s.rxs := rfl
@[simp] theorem State.setRx_txs : (s.setRx d).txs = s.txs := rfl
end

section
variable (s : State) (e : Encoder)
@[simp] theorem State.setTx_cfg : (s.setTx e).cfg = s.cfg := rfl
@[simp] theorem State.setTx_ck : (s.setTx e).ck = s.ck := rfl
@[simp] theorem State.setTx_rx : (s.setTx e).rx = s.rx := rfl
@[simp] theorem State.setTx_tx : (s.setTx e).tx = e := rfl
@[simp] theorem State.setTx_pending : (s.setTx e).pending = s.pending := rfl
@[simp] theorem State.setTx_responses : (s.setTx e).responses = s.responses := rfl
@[simp] theorem State.setTx_rxs : (s.setTx e).rxs = s.rxs := rfl
@[simp] theorem State.setTx_txs : (s.setTx e).txs = s.txs := rfl
end

section
variable (s : State) (r : Response)
@[simp] theorem State.answer_cfg : (s.answer r).cfg = s.cfg := rfl
@[simp] theorem State.answer_ck : (s.answer r).ck = s.ck := rfl
@[simp] theorem State.answer_rx : (s.answer r).rx = s.rx := rfl
@[simp] theorem State.answer_tx : (s.answer r).tx = s.tx := rfl
@[simp] theorem State.answer_pending : (s.answer r).pending = s.pending := rfl
@[simp] theorem State.answer_responses : (s.answer r).responses = s.responses ++ [r] := rfl
@[simp] theorem State.answer_rxs : (s.answer r).rxs = s.rxs := rfl
@[simp] theorem State.answer_txs : (s.answer r).txs = s.txs := rfl
end

section
variable (s : State) (b : Byte)
@[simp] theorem State.consume_cfg : (s.consume b).cfg = s.cfg := rfl
@[simp] theorem State.consume_ck : (s.consume b).ck = s.ck := rfl
@[simp] theorem State.consume_rx : (s.consume b).rx = s.rx := rfl
@[simp] theorem State.consume_tx : (s.consume b).tx = s.tx := rfl
@[simp] theorem State.consume_pending : (s.consume b).pending = s.pending := rfl
@[simp] theorem State.consume_responses : (s.consume b).responses = s.responses := rfl
@[simp] theorem State.consume_rxs : (s.consume b).rxs = s.rxs ++ [b] := rfl
@[simp] theorem State.consume_txs : (s.consume b).txs = s.txs := rfl
end

section
variable (s : State) (b : Byte)
@[simp] theorem State.produce_cfg : (s.produce b).cfg = s.cfg := rfl
@[simp] theorem State.produce_ck : (s.produce b).ck = s.ck := rfl
@[simp] theorem State.produce_rx : (s.produce b).rx = s.rx := rfl
@[simp] theorem State.produce_tx : (s.produce b).tx = s.tx := rfl
@[simp] theorem State.produce_pending : (s.produce b).pending = s.pending := rfl
@[simp] theorem State.produce_responses : (s.produce b).responses = s.responses := rfl
@[simp] theorem State.produce_rxs : (s.produce b).rxs = s.rxs := rfl
@[simp] theorem State.produce_txs : (s.produce b).txs = s.txs ++ [b] := rfl
end

section
variable (s : State) (p : List Input)
@[simp] theorem State.setPending_cfg : (s.setPending p).cfg = s.cfg := rfl
@[simp] theorem State.setPending_ck : (s.setPending p).ck = s.ck := rfl
@[simp] theorem State.setPending_rx : (s.setPending p).rx = s.rx := rfl
@[simp] theorem State.setPending_tx : (s.setPending p).tx = s.tx := rfl
@[simp] theorem State.setPending_pending : (s.setPending p).pending = p := rfl
@[simp] theorem State.setPending_responses : (s.setPending p).responses = s.responses := rfl
@[simp] theorem State.setPending_rxs : (s.setPending p).rxs = s.rxs := rfl
@[simp] theorem State.setPending_txs : (s.setPending p).txs = s.txs := rfl
end

section
variable (s : State)
@[simp] theorem blockReset_cfg : (blockReset s).cfg = s.cfg := rfl
@[simp] theorem blockReset_ck : (blockReset s).ck = ChecksumUnit.reset := rfl
@[simp] theorem blockReset_rx : (blockReset s).rx = Deframer.reset (s.rx.draw + 1) := rfl
@[simp] theorem blockReset_tx : (blockReset s).tx = Encoder.reset (s.tx.draw + 1) := rfl
@[simp] theorem blockReset_pending : (blockReset s).pending = s.pending := rfl
@[simp] theorem blockReset_responses : (blockReset s).responses = s.responses := rfl
@[simp] theorem blockReset_rxs : (blockReset s).rxs = s.rxs := rfl
@[simp] theorem blockReset_txs : (blockReset s).txs = s.txs := rfl
end

section
variable (d : Deframer)
@[simp] theorem abortEntry_state : (abortEntry d).state = .idle := rfl
@[simp] theorem abortEntry_version : (abortEntry d).version = d.version := rfl
@[simp] theorem abortEntry_ptype : (abortEntry d).ptype = d.ptype := rfl
@[simp] theorem abortEntry_offset : (abortEntry d).offset = d.offset := rfl
@[simp] theorem abortEntry_ck1 : (abortEntry d).ck1 = d.ck1 := rfl
@[simp] theorem abortEntry_ck2 : (abortEntry d).ck2 = d.ck2 := rfl
@[simp] theorem abortEntry_hdr : (abortEntry d).hdr = d.hdr := rfl
@[simp] theorem abortEntry_size : (abortEntry d).size = d.size := rfl
@[simp] theorem abortEntry_cmd : (abortEntry d).cmd = d.cmd := rfl
@[simp] theorem abortEntry_flags : (abortEntry d).flags = d.flags := rfl
@[simp] theorem abortEntry_inBuf : (abortEntry d).inBuf = d.inBuf := rfl
@[simp] theorem abortEntry_draw : (abortEntry d).draw = d.draw := rfl
end

end Sys2Proof.Machine
end

