-- ==== Sys2Proof/Laws/Ops.lean ====
section
/-! SUPPORT. What the shared operations can do: answering, refusing, going on, and the register file. -/

namespace Sys2Proof.Machine

theorem respond_eq (data : Word) (s : State) : respond data s = .next (s.answer (.ok data)) := rfl

theorem refuse_eq (cause : RefusalCause) (s : State) : refuse cause s = .next (s.answer (.refused cause)) := rfl

@[simp] theorem respond_next_iff (data : Word) (s t : State) :
    respond data s = .next t ↔ t = s.answer (.ok data) := by
  simp [respond, eq_comm]

@[simp] theorem refuse_next_iff (cause : RefusalCause) (s t : State) :
    refuse cause s = .next t ↔ t = s.answer (.refused cause) := by
  simp [refuse, eq_comm]

@[simp] theorem andThen_next (s : State) (f : State → Outcome) : andThen (.next s) f = f s := rfl

/-- An outcome that goes on and ends in a next state went through a next state. -/
theorem andThen_next_iff {o : Outcome} {f : State → Outcome} {t : State} :
    andThen o f = .next t ↔ ∃ s, o = .next s ∧ f s = .next t := by
  cases o <;> simp [andThen]

theorem andThen_assoc (o : Outcome) (f g : State → Outcome) :
    andThen (andThen o f) g = andThen o fun s => andThen (f s) g := by
  cases o <;> rfl

/-! ### The register file -/

@[simp] theorem regOf_regNumber (r : Reg) : regOf (regNumber r) = some r := by
  cases r <;> rfl

/-- A number is mapped to a register exactly when it is that register's number. -/
theorem regOf_eq_some_iff {n : BitVec 8} {r : Reg} : regOf n = some r ↔ n = regNumber r := by
  constructor
  · intro h
    exact (beq_iff_eq.1 (List.find?_some (p := fun r => regNumber r == n) h)).symm
  · rintro rfl
    simp

/-- A number that is no register's is unmapped. -/
theorem regOf_eq_none_iff {n : BitVec 8} : regOf n = none ↔ ∀ r, n ≠ regNumber r := by
  constructor
  · intro h r hr
    subst hr
    simp at h
  · intro h
    cases hr : regOf n with
    | none => rfl
    | some r => exact absurd (regOf_eq_some_iff.1 hr) (h r)

theorem versionOf_eq_some_iff {n : Nat} {v : WireVersion} : versionOf n = some v ↔ n = versionNumber v := by
  constructor
  · intro h
    match n with
    | 0 | 1 | 2 => cases h; rfl
    | n + 3 => cases h
  · rintro rfl
    cases v <;> rfl

theorem resultOf_eq_some_iff {n : Nat} {r : ReplyResult} : resultOf n = some r ↔ n = resultNumber r := by
  constructor
  · intro h
    match n with
    | 0 | 1 | 2 | 3 => cases h; rfl
    | n + 4 => cases h
  · rintro rfl
    cases r <;> rfl

/-- Answering changes no register. -/
@[simp] theorem regRead_answer (r : Reg) (s : State) (a : Response) : regRead r (s.answer a) = regRead r s := by
  cases r <;> rfl

theorem regRead_consume (r : Reg) (s : State) (b : Byte) : regRead r (s.consume b) = regRead r s := by
  cases r <;> rfl

theorem regRead_produce (r : Reg) (s : State) (b : Byte) : regRead r (s.produce b) = regRead r s := by
  cases r <;> rfl

/-- What an accepted register write changes: one unit's record, never the deframer, the parameters or the port. -/
theorem regWrite_cases {r : Reg} {v : Half} {s t : State} (h : regWrite r v s = some t) :
    (∃ c, t = s.setCk c) ∨
    ∃ e, t = s.setTx e ∧ regDescriptor r = true ∧ e.busy = s.tx.busy ∧ e.pos = s.tx.pos ∧ e.outBuf = s.tx.outBuf ∧
      e.draw = s.tx.draw := by
  cases r <;> simp only [regWrite, Option.map_eq_some_iff, reduceCtorEq, Option.some.injEq, Option.ite_none_right_eq_some] at h
  case ckXor => obtain ⟨a, -, rfl⟩ := h; exact .inl ⟨_, rfl⟩
  case ckCrc => obtain ⟨a, -, rfl⟩ := h; exact .inl ⟨_, rfl⟩
  case txVersion => obtain ⟨a, -, rfl⟩ := h; exact .inr ⟨_, rfl, rfl, rfl, rfl, rfl, rfl⟩
  case txResult => obtain ⟨a, -, rfl⟩ := h; exact .inr ⟨_, rfl, rfl, rfl, rfl, rfl, rfl⟩
  case txFlags => obtain ⟨a, -, rfl⟩ := h; exact .inr ⟨_, rfl, rfl, rfl, rfl, rfl, rfl⟩
  case txCmd => subst h; exact .inr ⟨_, rfl, rfl, rfl, rfl, rfl, rfl⟩
  case txLen => obtain ⟨-, rfl⟩ := h; exact .inr ⟨_, rfl, rfl, rfl, rfl, rfl, rfl⟩

end Sys2Proof.Machine
end

