-- ==== Sys2Proof/Laws/Deframer.lean ====
section
/-! SUPPORT. What presenting received bytes can do: one lemma per receive state for the state's rule, what `presentByte`
answers for each kind of move, and byte sequences. -/

namespace Sys2Proof.Machine

/-! ### The rule of each receive state -/

section
variable {d : Deframer} (cap : Nat) (b : Byte)

theorem rxRule_idle (h : d.state = .idle) : rxRule cap b d = some (rxIdle b d) := by simp [rxRule, h]
theorem rxRule_headerStart (h : d.state = .headerStart) : rxRule cap b d = some (rxHeaderStart b d) := by
  simp [rxRule, h]
theorem rxRule_headerM (h : d.state = .headerM) : rxRule cap b d = some (rxHeaderM b d) := by simp [rxRule, h]
theorem rxRule_headerX (h : d.state = .headerX) : rxRule cap b d = some (rxHeaderX b d) := by simp [rxRule, h]
theorem rxRule_headerV1 (h : d.state = .headerV1) : rxRule cap b d = some (rxHeaderV1 cap b d) := by simp [rxRule, h]
theorem rxRule_headerV2OverV1 (h : d.state = .headerV2OverV1) :
    rxRule cap b d = some (rxHeaderV2OverV1 cap b d) := by simp [rxRule, h]
theorem rxRule_headerV2Native (h : d.state = .headerV2Native) :
    rxRule cap b d = some (rxHeaderV2Native cap b d) := by simp [rxRule, h]
theorem rxRule_payloadV1 (h : d.state = .payloadV1) : rxRule cap b d = some (rxPayloadV1 cap b d) := by
  simp [rxRule, h]
theorem rxRule_payloadV2OverV1 (h : d.state = .payloadV2OverV1) :
    rxRule cap b d = some (rxPayloadV2OverV1 cap b d) := by simp [rxRule, h]
theorem rxRule_payloadV2Native (h : d.state = .payloadV2Native) :
    rxRule cap b d = some (rxPayloadV2Native cap b d) := by simp [rxRule, h]
theorem rxRule_checksumV1 (h : d.state = .checksumV1) : rxRule cap b d = some (rxChecksumV1 b d) := by
  simp [rxRule, h]
theorem rxRule_checksumV2OverV1 (h : d.state = .checksumV2OverV1) :
    rxRule cap b d = some (rxChecksumV2OverV1 b d) := by simp [rxRule, h]
theorem rxRule_checksumV2Native (h : d.state = .checksumV2Native) :
    rxRule cap b d = some (rxChecksumV2Native b d) := by simp [rxRule, h]

/-- Only `CommandReceived` has no rule (41_deframer.md R110). -/
theorem rxRule_eq_none_iff : rxRule cap b d = none ↔ d.state = .commandReceived := by
  unfold rxRule
  cases d.state <;> simp

end

/-! ### The parts that the rules share -/

theorem stageHeader_of_lt {d : Deframer} (b : Byte) (h : d.offset.toNat < 5) :
    stageHeader b d = some { d with hdr := memStore d.hdr d.offset.toNat b, offset := d.offset + 1 } := if_pos h

theorem stagePayload_of_lt {cap : Nat} {d : Deframer} (b : Byte) (h : d.offset.toNat < cap) :
    stagePayload cap b d = some { d with inBuf := memStore d.inBuf d.offset.toNat b, offset := d.offset + 1 } :=
  if_pos h

/-- After a payload byte the count is reached, or not (41_deframer.md R118 to R120). -/
theorem payloadDone_cases (checksum : RxState) (d : Deframer) :
    (d.offset = d.size ∧ payloadDone checksum d = .go { d with state := checksum }) ∨
    (d.offset ≠ d.size ∧ payloadDone checksum d = .go d) := by
  unfold payloadDone
  split <;> simp [*]

/-- The four ways in which a V1 header completes (41_deframer.md R115). -/
theorem v1HeaderDone_cases (cap : Nat) (d : Deframer) :
    (cap < (hdrByte d 0).toNat ∧ v1HeaderDone cap d = .abort .v1SizeOverCapacity d) ∨
    ((hdrByte d 0).toNat ≤ cap ∧ hdrByte d 1 = sentinel ∧ 6 ≤ (hdrByte d 0).toNat ∧
      v1HeaderDone cap d = .go { d with version := .v2OverV1, offset := 0, state := .headerV2OverV1 }) ∨
    ((hdrByte d 0).toNat ≤ cap ∧ hdrByte d 1 = sentinel ∧ (hdrByte d 0).toNat < 6 ∧
      v1HeaderDone cap d = .abort .v2OverV1TooShort d) ∨
    ((hdrByte d 0).toNat ≤ cap ∧ hdrByte d 1 ≠ sentinel ∧
      v1HeaderDone cap d = .go { d with
        size := (hdrByte d 0).setWidth 16, cmd := (hdrByte d 1).setWidth 16, flags := 0, offset := 0,
        state := if 0 < (hdrByte d 0).toNat then .payloadV1 else .checksumV1 }) := by
  unfold v1HeaderDone
  by_cases h1 : cap < (hdrByte d 0).toNat <;> by_cases h2 : hdrByte d 1 = sentinel <;>
    by_cases h3 : 6 ≤ (hdrByte d 0).toNat <;> simp [h1, h2, h3] <;> omega

/-- The two ways in which a V2 header completes (41_deframer.md R116, R117). -/
theorem v2HeaderDone_cases (cap : Nat) (payload checksum : RxState) (d : Deframer) :
    (cap < (u16le (hdrByte d 3) (hdrByte d 4)).toNat ∧
      v2HeaderDone cap payload checksum d = .abort .v2SizeOverCapacity d) ∨
    ((u16le (hdrByte d 3) (hdrByte d 4)).toNat ≤ cap ∧
      v2HeaderDone cap payload checksum d = .go { d with
        flags := hdrByte d 0, cmd := u16le (hdrByte d 1) (hdrByte d 2), size := u16le (hdrByte d 3) (hdrByte d 4),
        offset := 0, state := if 0 < (u16le (hdrByte d 3) (hdrByte d 4)).toNat then payload else checksum }) := by
  unfold v2HeaderDone
  by_cases h : cap < (u16le (hdrByte d 3) (hdrByte d 4)).toNat
  · simp [h]
  · simp [h]; omega

/-- Every later state of a move, whether the frame goes on or is aborted. -/
def RxMove.result : RxMove → Option Deframer
  | .go d      => some d
  | .abort _ d => some (abortEntry d)
  | .overrun _ => none

/-! ### Presenting one byte -/

theorem acceptByte_eq (b : Byte) (d : Deframer) (s : State) :
    acceptByte b d s = .next (((s.setRx d).consume b).answer (.ok (BitVec.ofNat 32 (rxStateNumber d.state)))) := rfl

theorem presentByte_refused {s : State} (b : Byte) (h : s.rx.state = .commandReceived) :
    presentByte b s = .next (s.answer (.refused .rxPacketPending)) := by
  simp [presentByte, (rxRule_eq_none_iff s.cfg.inCap b).2 h, refuse]

theorem presentByte_go {s : State} {b : Byte} {d : Deframer} (h : rxRule s.cfg.inCap b s.rx = some (.go d)) :
    presentByte b s = acceptByte b d s := by
  simp [presentByte, h]

theorem presentByte_abort {s : State} {b : Byte} {d : Deframer} {cause : AbortCause}
    (h : rxRule s.cfg.inCap b s.rx = some (.abort cause d)) :
    presentByte b s = acceptByte b (abortEntry d) s := by
  simp [presentByte, h]

/-- Everything presenting a byte can do. -/
theorem presentByte_next_iff {b : Byte} {s t : State} :
    presentByte b s = .next t ↔
      (s.rx.state = .commandReceived ∧ t = s.answer (.refused .rxPacketPending)) ∨
      ∃ m d, rxRule s.cfg.inCap b s.rx = some m ∧ m.result = some d ∧
        t = ((s.setRx d).consume b).answer (.ok (BitVec.ofNat 32 (rxStateNumber d.state))) := by
  rw [← rxRule_eq_none_iff s.cfg.inCap b]
  cases h : rxRule s.cfg.inCap b s.rx with
  | none => simp [presentByte, h]
  | some m => cases m <;> simp [presentByte, h, RxMove.result, acceptByte_eq, eq_comm (a := t)]

/-! ### Presenting byte sequences -/

@[simp] theorem presentBytes_nil (s : State) : presentBytes [] s = .next s := rfl
theorem presentBytes_cons (b : Byte) (bs : List Byte) (s : State) :
    presentBytes (b :: bs) s = andThen (presentByte b s) (presentBytes bs) := rfl

theorem presentBytes_append (xs ys : List Byte) (s : State) :
    presentBytes (xs ++ ys) s = andThen (presentBytes xs s) (presentBytes ys) := by
  induction xs generalizing s with
  | nil => rfl
  | cons x xs ih => simp [presentBytes_cons, andThen_assoc, ← ih]

@[simp] theorem execAll_nil (s : State) : execAll [] s = .next s := rfl
theorem execAll_cons (i : Instr) (is : List Instr) (s : State) :
    execAll (i :: is) s = andThen (exec i s) (execAll is) := rfl

theorem execAll_append (xs ys : List Instr) (s : State) :
    execAll (xs ++ ys) s = andThen (execAll xs s) (execAll ys) := by
  induction xs generalizing s with
  | nil => rfl
  | cons x xs ih => simp [execAll_cons, andThen_assoc, ← ih]

/-- `RXFRAME` as a function of the bytes. -/
theorem execAll_rxFrame (bytes : List Byte) (s : State) : execAll (rxFrame bytes) s = presentBytes bytes s := by
  induction bytes generalizing s with
  | nil => rfl
  | cons b bs ih =>
    have : execAll (rxFrame bs) = presentBytes bs := funext ih
    show andThen (presentByte b s) (execAll (rxFrame bs)) = _
    rw [this, presentBytes_cons]

end Sys2Proof.Machine
end

