-- ==== Sys2Proof/Laws/Encoder.lean ====
section
/-! SUPPORT. The frame function seen from outside, and what `TXGO` and `TXB` can do. -/

namespace Sys2Proof.Machine

@[simp] theorem v2Header_length (flags : Byte) (cmd len : Half) : (v2Header flags cmd len).length = 5 := rfl

@[simp] theorem replyPayload_length (e : Encoder) : (replyPayload e).length = e.len.toNat := by
  simp [replyPayload]

@[simp] theorem frame_noReply (v : WireVersion) (cmd : Half) (flags : Byte) (p : List Byte) :
    frame v .noReply cmd flags p = [] := rfl

@[simp] theorem frame_unknown (v : WireVersion) (cmd : Half) (flags : Byte) (p : List Byte) :
    frame v .unknown cmd flags p = [] := rfl

/-- A reply that sends something has a direction byte (42_encoder.md R151, R152). -/
theorem replyDirection_eq_none_iff {r : ReplyResult} :
    replyDirection r = none ↔ r = .noReply ∨ r = .unknown := by
  cases r <;> simp [replyDirection]

/-- A frame that is sent has 6 to `14 + L` bytes (42_encoder.md R156). -/
theorem frame_length_bounds (v : WireVersion) {r : ReplyResult} (cmd : Half) (flags : Byte) (p : List Byte)
    (h : replyDirection r ≠ none) :
    6 ≤ (frame v r cmd flags p).length ∧ (frame v r cmd flags p).length ≤ 14 + p.length := by
  obtain ⟨dir, hd⟩ := Option.ne_none_iff_exists'.1 h
  simp only [frame, hd]
  cases v
  · simp only [frameV1Of]; split <;> simp <;> omega
  · simp only [frameV2OverV1Of]; split <;> simp <;> omega
  · simp only [frameV2NativeOf]; simp; omega

/-- `replyFrame` reads the descriptor and the payload only, not `tx_busy` or `tx_pos` (42_encoder.md R150). -/
theorem replyFrame_setPos (e : Encoder) (busy : Bool) (pos : BitVec 17) :
    replyFrame { e with busy := busy, pos := pos } = replyFrame e := rfl

/-- Everything `TXGO` can do (42_encoder.md R157). -/
theorem execTxgo_cases (s : State) :
    (s.tx.busy = true ∧ execTxgo s = .next (s.answer (.refused .txBusy))) ∨
    (s.tx.busy = false ∧ replyDirection s.tx.result = none ∧ execTxgo s = .next (s.answer (.ok 0))) ∨
    (s.tx.busy = false ∧ replyDirection s.tx.result ≠ none ∧
      execTxgo s = .next ((s.setTx { s.tx with busy := true, pos := 0 }).answer
        (.ok (BitVec.ofNat 32 (replyFrame s.tx).length)))) := by
  unfold execTxgo sending
  cases s.tx.busy
  · cases hd : replyDirection s.tx.result with
    | none => exact .inr (.inl ⟨rfl, rfl, rfl⟩)
    | some dir => exact .inr (.inr ⟨rfl, by simp, rfl⟩)
  · exact .inl ⟨rfl, rfl⟩

/-- Everything `TXB` can do (42_encoder.md R158). -/
theorem execTxb_cases (s : State) :
    (s.tx.busy = false ∧ execTxb s = .next (s.answer (.refused .txIdle))) ∨
    (s.tx.busy = true ∧ (replyFrame s.tx).length ≤ s.tx.pos.toNat ∧ execTxb s = .fault .frameOverrun) ∨
    ∃ byte last, s.tx.busy = true ∧ (replyFrame s.tx)[s.tx.pos.toNat]? = some byte ∧
      last = (s.tx.pos.toNat + 1 == (replyFrame s.tx).length) ∧
      execTxb s = .next (((s.setTx { s.tx with pos := s.tx.pos + 1, busy := !last }).produce byte).answer
        (.ok (byte.setWidth 32 ||| (BitVec.ofBool last).setWidth 32 <<< 8))) := by
  unfold execTxb sending
  cases s.tx.busy
  · exact .inl ⟨rfl, rfl⟩
  · cases hb : (replyFrame s.tx)[s.tx.pos.toNat]? with
    | none => exact .inr (.inl ⟨rfl, by simpa using hb, by simp [hb]⟩)
    | some byte => exact .inr (.inr ⟨byte, _, rfl, rfl, rfl, by simp [hb, respond]⟩)

end Sys2Proof.Machine
end

