-- ==== Sys2Proof/Laws/Invariant.lean ====
section
/-! SUPPORT. The rule of every receive state keeps the deframer's invariant and its checksum invariant, and presenting
bytes from a good state always goes on. -/

namespace Sys2Proof.Machine

/-- A store at the first unwritten index extends the written part. -/
theorem WrittenTo.memStore {m : Memory} {n : Nat} (h : WrittenTo m n) (b : Byte) : WrittenTo (memStore m n b) (n+1) := by
  intro i hi
  by_cases hn : i = n
  · subst hn; simp
  · rw [memLookup_memStore_of_ne _ _ hn]; exact h i (by omega)

/-- A counter below its bound does not wrap. -/
theorem toNat_succ_of_lt {x : Half} {n : Nat} (h : x.toNat < n) (hn : n ≤ 300) : (x + 1).toNat = x.toNat + 1 := by
  rw [BitVec.toNat_add]; simp; omega

/-- A move that keeps the invariant. -/
def MoveInv (cap : Nat) : RxMove → Prop
  | .go d => d.Inv cap
  | .abort _ d => (abortEntry d).Inv cap
  | .overrun _ => False

/-- A framing abort keeps the invariant (60_exceptions.md R205). -/
theorem abortEntry_inv {cap} {d : Deframer} (h : d.Inv cap) : (abortEntry d).Inv cap :=
  ⟨h.hdrWf, h.hdrBound, h.inWf, h.inBound, h.size, by simp [Deframer.StateInv, abortEntry]⟩

/-- Forcing `Idle` keeps the invariant (41_deframer.md R125, R126). -/
theorem setIdle_inv {cap} {d : Deframer} (h : d.Inv cap) : ({d with state := .idle}: Deframer).Inv cap := abortEntry_inv h

/-- A complete V1 header keeps the invariant. -/
theorem v1HeaderDone_inv {cap} (d : Deframer) (h1 : d.hdr.Wf) (h2 : Memory.Below 5 d.hdr)
    (h3 : d.inBuf.Wf) (h4 : Memory.Below cap d.inBuf) (h5 : d.size.toNat ≤ cap) (hv : d.version = .v1) :
    MoveInv cap (v1HeaderDone cap d) := by
  unfold v1HeaderDone
  generalize hdrByte d 0 = sz
  generalize hdrByte d 1 = cm
  dsimp only
  split
  · exact ⟨h1, h2, h3, h4, h5, trivial⟩
  · split
    · split
      · refine ⟨h1, h2, h3, h4, h5, ?_⟩
        simp [Deframer.StateInv, WrittenTo]
      · exact ⟨h1, h2, h3, h4, h5, trivial⟩
    · rename_i hcap hcmd
      have hsw : (sz.setWidth 16).toNat = sz.toNat := by simp; omega
      have hcw : (cm.setWidth 16).toNat = cm.toNat := by simp; omega
      have hc2 : cm.toNat ≠ 255 := fun e => hcmd (BitVec.eq_of_toNat_eq (by rw [e]; rfl))
      refine ⟨h1, h2, h3, h4, by simp only [hsw]; omega, ?_⟩
      unfold Deframer.StateInv
      by_cases hz : 0 < sz.toNat
      · simp only [hz, if_true]
        refine ⟨hv, ⟨?_, rfl⟩, ?_, ?_⟩
        · show (cm.setWidth 16).toNat ≤ 254
          omega
        · show (0#16).toNat < (sz.setWidth 16).toNat
          rw [hsw]; exact hz
        · intro i hi; simp at hi
      · simp only [hz, if_false]
        refine ⟨.inl ⟨hv, ?_, rfl⟩, ?_, ?_⟩
        · show (cm.setWidth 16).toNat ≤ 254
          omega
        · apply BitVec.eq_of_toNat_eq
          show (0#16).toNat = (sz.setWidth 16).toNat
          rw [hsw]; simp; omega
        · intro i hi
          exfalso
          have : i < (sz.setWidth 16).toNat := hi
          omega

/-- A complete V2 header keeps the invariant. -/
theorem v2HeaderDone_inv {cap} (p c : RxState) (d : Deframer) (h1 : d.hdr.Wf) (h2 : Memory.Below 5 d.hdr)
    (h3 : d.inBuf.Wf) (h4 : Memory.Below cap d.inBuf) (h5 : d.size.toNat ≤ cap)
    (hp : (p = .payloadV2OverV1 ∧ c = .checksumV2OverV1 ∧ d.version = .v2OverV1) ∨
      (p = .payloadV2Native ∧ c = .checksumV2Native ∧ d.version = .v2Native)) :
    MoveInv cap (v2HeaderDone cap p c d) := by
  unfold v2HeaderDone
  generalize u16le (hdrByte d 3) (hdrByte d 4) = sz
  dsimp only
  split
  · exact ⟨h1, h2, h3, h4, h5, trivial⟩
  · rename_i hcap
    refine ⟨h1, h2, h3, h4, by simp only []; omega, ?_⟩
    unfold Deframer.StateInv
    by_cases hz : 0 < sz.toNat
    · simp only [hz, if_true]
      rcases hp with ⟨rfl, rfl, hv⟩ | ⟨rfl, rfl, hv⟩ <;>
      exact ⟨hv, hz, fun i hi => by simp at hi⟩
    · have hz0 : sz = 0 := BitVec.eq_of_toNat_eq (by simp; omega)
      subst hz0
      simp only [hz, if_false]
      rcases hp with ⟨rfl, rfl, hv⟩ | ⟨rfl, rfl, hv⟩ <;>
      exact ⟨hv, rfl, fun i hi => by simp at hi⟩

/-- No rule stores outside its array, and every rule keeps the invariant. -/
theorem rxRule_inv {cap b d m} (hc : cap ≤ 254) (h : Deframer.Inv cap d) (hm : rxRule cap b d = some m) :
    MoveInv cap m := by
  obtain ⟨h1, h2, h3, h4, h5, h6⟩ := h
  unfold rxRule at hm
  unfold Deframer.StateInv at h6
  split at hm <;> cases hm <;> rename_i hst <;> simp only [hst] at h6
  · unfold rxIdle; split <;> exact ⟨h1, h2, h3, h4, h5, trivial⟩
  · unfold rxHeaderStart; split
    · exact ⟨h1, h2, h3, h4, h5, rfl⟩
    · split
      · exact ⟨h1, h2, h3, h4, h5, rfl⟩
      · exact ⟨h1, h2, h3, h4, h5, trivial⟩
  · unfold rxHeaderM rxDirection; split
    · refine ⟨h1, h2, h3, h4, h5, ?_⟩
      simp [Deframer.StateInv, h6, WrittenTo]
    · exact ⟨h1, h2, h3, h4, h5, trivial⟩
  · unfold rxHeaderX rxDirection; split
    · refine ⟨h1, h2, h3, h4, h5, ?_⟩
      simp [Deframer.StateInv, h6, WrittenTo]
    · exact ⟨h1, h2, h3, h4, h5, trivial⟩
  · obtain ⟨hv, ho, hw⟩ := h6
    have ho5 : d.offset.toNat < 5 := by omega
    have hs := toNat_succ_of_lt ho (by omega)
    simp only [rxHeaderV1, stageHeader, ho5, if_true]
    have hd := Memory.Below.memStore h2 ho5 b
    have hwf := h1.memStore d.offset.toNat b
    split
    · exact v1HeaderDone_inv _ hwf hd h3 h4 h5 hv
    · rename_i hne
      simp only [foldCk1] at hne ⊢
      refine ⟨hwf, hd, h3, h4, h5, ?_⟩
      simp only [Deframer.StateInv, hst]
      refine ⟨hv, ?_, ?_⟩
      · have : (d.offset+1).toNat ≠ 2 := fun e => hne (BitVec.eq_of_toNat_eq (by rw [e]; rfl))
        omega
      · rw [hs]; exact (WrittenTo.memStore hw b)
  · obtain ⟨hv, ho5, hw⟩ := h6
    have hs := toNat_succ_of_lt ho5 (by omega)
    simp only [rxHeaderV2Native, stageHeader, ho5, if_true]
    have hd := Memory.Below.memStore h2 ho5 b
    have hwf := h1.memStore d.offset.toNat b
    split
    · exact v2HeaderDone_inv _ _ _ hwf hd h3 h4 h5 (.inr ⟨rfl,rfl,hv⟩)
    · rename_i hne
      simp only [foldCk2] at hne ⊢
      refine ⟨hwf, hd, h3, h4, h5, ?_⟩
      simp only [Deframer.StateInv, hst]
      refine ⟨hv, ?_, ?_⟩
      · have : (d.offset+1).toNat ≠ 5 := fun e => hne (BitVec.eq_of_toNat_eq (by rw [e]; rfl))
        omega
      · rw [hs]; exact (WrittenTo.memStore hw b)
  · obtain ⟨hv, ho5, hw⟩ := h6
    have hs := toNat_succ_of_lt ho5 (by omega)
    simp only [rxHeaderV2OverV1, stageHeader, ho5, if_true]
    have hd := Memory.Below.memStore h2 ho5 b
    have hwf := h1.memStore d.offset.toNat b
    split
    · exact v2HeaderDone_inv _ _ _ hwf hd h3 h4 h5 (.inl ⟨rfl,rfl,hv⟩)
    · rename_i hne
      simp only [foldCk2, foldCk1] at hne ⊢
      refine ⟨hwf, hd, h3, h4, h5, ?_⟩
      simp only [Deframer.StateInv, hst]
      refine ⟨hv, ?_, ?_⟩
      · have : (d.offset+1).toNat ≠ 5 := fun e => hne (BitVec.eq_of_toNat_eq (by rw [e]; rfl))
        omega
      · rw [hs]; exact (WrittenTo.memStore hw b)
  · obtain ⟨hv, hp, ho, hw⟩ := h6
    have hoc : d.offset.toNat < cap := by omega
    have hs := toNat_succ_of_lt hoc (by omega)
    simp only [rxPayloadV1, stagePayload, hoc, if_true]
    have hd := Memory.Below.memStore h4 hoc b
    have hwf := h3.memStore d.offset.toNat b
    have hw' := (WrittenTo.memStore hw b)
    rcases payloadDone_cases _ _ with ⟨he, e⟩ | ⟨he, e⟩ <;> rw [e]
    · change d.offset + 1 = d.size at he
      refine ⟨h1, h2, hwf, hd, h5, ?_⟩
      simp only [Deframer.StateInv]
      refine ⟨.inl ⟨hv, hp⟩, he, ?_⟩
      show WrittenTo (memStore d.inBuf d.offset.toNat b) d.size.toNat
      rw [← he, hs]; exact hw'
    · change d.offset + 1 ≠ d.size at he
      refine ⟨h1, h2, hwf, hd, h5, ?_⟩
      simp only [Deframer.StateInv, hst]
      refine ⟨hv, hp, ?_, ?_⟩
      · have : (d.offset+1).toNat ≠ d.size.toNat := fun e => he (BitVec.eq_of_toNat_eq e)
        show (d.offset + 1).toNat < d.size.toNat
        omega
      · show WrittenTo (memStore d.inBuf d.offset.toNat b) (d.offset + 1).toNat
        rw [hs]; exact hw'
  · obtain ⟨hv, ho, hw⟩ := h6
    have hoc : d.offset.toNat < cap := by omega
    have hs := toNat_succ_of_lt hoc (by omega)
    simp only [rxPayloadV2OverV1, stagePayload, hoc, if_true]
    have hd := Memory.Below.memStore h4 hoc b
    have hwf := h3.memStore d.offset.toNat b
    have hw' := (WrittenTo.memStore hw b)
    rcases payloadDone_cases _ _ with ⟨he, e⟩ | ⟨he, e⟩ <;> rw [e]
    · change d.offset + 1 = d.size at he
      refine ⟨h1, h2, hwf, hd, h5, ?_⟩
      simp only [Deframer.StateInv]
      refine ⟨hv, he, ?_⟩
      show WrittenTo (memStore d.inBuf d.offset.toNat b) d.size.toNat
      rw [← he, hs]; exact hw'
    · change d.offset + 1 ≠ d.size at he
      refine ⟨h1, h2, hwf, hd, h5, ?_⟩
      simp only [Deframer.StateInv, hst]
      refine ⟨hv, ?_, ?_⟩
      · have : (d.offset+1).toNat ≠ d.size.toNat := fun e => he (BitVec.eq_of_toNat_eq e)
        show (d.offset + 1).toNat < d.size.toNat
        omega
      · show WrittenTo (memStore d.inBuf d.offset.toNat b) (d.offset + 1).toNat
        rw [hs]; exact hw'
  · obtain ⟨hv, ho, hw⟩ := h6
    have hoc : d.offset.toNat < cap := by omega
    have hs := toNat_succ_of_lt hoc (by omega)
    simp only [rxPayloadV2Native, stagePayload, hoc, if_true]
    have hd := Memory.Below.memStore h4 hoc b
    have hwf := h3.memStore d.offset.toNat b
    have hw' := (WrittenTo.memStore hw b)
    rcases payloadDone_cases _ _ with ⟨he, e⟩ | ⟨he, e⟩ <;> rw [e]
    · change d.offset + 1 = d.size at he
      refine ⟨h1, h2, hwf, hd, h5, ?_⟩
      simp only [Deframer.StateInv]
      refine ⟨hv, he, ?_⟩
      show WrittenTo (memStore d.inBuf d.offset.toNat b) d.size.toNat
      rw [← he, hs]; exact hw'
    · change d.offset + 1 ≠ d.size at he
      refine ⟨h1, h2, hwf, hd, h5, ?_⟩
      simp only [Deframer.StateInv, hst]
      refine ⟨hv, ?_, ?_⟩
      · have : (d.offset+1).toNat ≠ d.size.toNat := fun e => he (BitVec.eq_of_toNat_eq e)
        show (d.offset + 1).toNat < d.size.toNat
        omega
      · show WrittenTo (memStore d.inBuf d.offset.toNat b) (d.offset + 1).toNat
        rw [hs]; exact hw'
  · obtain ⟨hv, hp⟩ := h6
    unfold rxChecksumV1; split
    · refine ⟨h1, h2, h3, h4, h5, ?_, hp⟩
      intro hv1
      rcases hv with hv | hv
      · exact hv.2
      · change d.version = _ at hv1; rw [hv] at hv1; cases hv1
    · exact ⟨h1, h2, h3, h4, h5, trivial⟩
  · obtain ⟨hv, hp⟩ := h6
    unfold rxChecksumV2OverV1; split
    · exact ⟨h1, h2, h3, h4, h5, .inr hv, hp⟩
    · exact ⟨h1, h2, h3, h4, h5, trivial⟩
  · obtain ⟨hv, hp⟩ := h6
    unfold rxChecksumV2Native; split
    · refine ⟨h1, h2, h3, h4, h5, ?_, hp⟩
      intro hv1
      change d.version = _ at hv1; rw [hv] at hv1; cases hv1
    · exact ⟨h1, h2, h3, h4, h5, trivial⟩

/-- A move that keeps the invariant has a later state. -/
theorem MoveInv.result {cap m} (h : MoveInv cap m) : ∃ d, m.result = some d ∧ d.Inv cap := by
  cases m with
  | go d => exact ⟨d, rfl, h⟩
  | abort c d => exact ⟨_, rfl, h⟩
  | overrun f => exact h.elim

/-- From a good state a byte is always taken or refused; the other units are untouched. -/
theorem presentByte_ok {s : State} (h : s.Inv) (b : Byte) : ∃ t, presentByte b s = .next t ∧ t.Inv ∧
    t.ck = s.ck ∧ t.tx = s.tx ∧ t.cfg = s.cfg ∧ t.pending = s.pending ∧ t.txs = s.txs := by
  by_cases hc : s.rx.state = .commandReceived
  · exact ⟨_, presentByte_refused b hc, ⟨h.cfg, h.rx, h.tx⟩, rfl, rfl, rfl, rfl, rfl⟩
  · obtain ⟨m, hm⟩ := Option.ne_none_iff_exists'.1 (mt (rxRule_eq_none_iff s.cfg.inCap b).1 hc)
    obtain ⟨d, hd, hi⟩ := (rxRule_inv h.cfg.1 h.rx hm).result
    exact ⟨_, presentByte_next_iff.2 (.inr ⟨m, d, hm, hd, rfl⟩), ⟨h.cfg, hi, h.tx⟩, rfl, rfl, rfl, rfl, rfl⟩

/-- The same for any number of bytes. -/
theorem presentBytes_ok (bs : List Byte) {s : State} (h : s.Inv) : ∃ t, presentBytes bs s = .next t ∧ t.Inv ∧
    t.ck = s.ck ∧ t.tx = s.tx ∧ t.cfg = s.cfg ∧ t.pending = s.pending ∧ t.txs = s.txs := by
  induction bs generalizing s with
  | nil => exact ⟨s, rfl, h, rfl, rfl, rfl, rfl, rfl⟩
  | cons b bs ih =>
    obtain ⟨t, ht, hi, a1, a2, a3, a4, a5⟩ := presentByte_ok h b
    obtain ⟨u, hu, hj, b1, b2, b3, b4, b5⟩ := ih hi
    exact ⟨u, by rw [presentBytes_cons, ht]; exact hu, hj, by simp [*], by simp [*], by simp [*], by simp [*], by simp [*]⟩

/-- Staging a header byte appends it to the bytes taken. -/
theorem hdrBytes_store (d d' : Deframer) (n : Nat) (b : Byte) (h : d'.hdr = memStore d.hdr n b) (hd : d'.draw = d.draw) :
    hdrBytes d' (n+1) = hdrBytes d n ++ [b] := by
  simp only [hdrBytes, List.range_succ, List.map_append, List.map_cons, List.map_nil]
  congr 1
  · apply List.map_congr_left
    intro i hi
    simp only [hdrByte, h, hd]
    exact memRead_memStore_of_ne _ _ _ _ (by simp at hi; omega)
  · simp [hdrByte, h]

/-- Storing a payload byte appends it to the payload taken. -/
theorem inBytes_store (d d' : Deframer) (n : Nat) (b : Byte) (h : d'.inBuf = memStore d.inBuf n b) (hd : d'.draw = d.draw) :
    inBytes d' (n+1) = inBytes d n ++ [b] := by
  simp only [inBytes, List.range_succ, List.map_append, List.map_cons, List.map_nil]
  congr 1
  · apply List.map_congr_left
    intro i hi
    simp only [inByte, h, hd]
    exact memRead_memStore_of_ne _ _ _ _ (by simp at hi; omega)
  · simp [inByte, h]

theorem hdrBytes_congr {d d' : Deframer} (n) (h : d'.hdr = d.hdr) (hd : d'.draw = d.draw) : hdrBytes d' n = hdrBytes d n := by
  simp [hdrBytes, hdrByte, h, hd]
theorem inBytes_congr {d d' : Deframer} (n) (h : d'.inBuf = d.inBuf) (hd : d'.draw = d.draw) : inBytes d' n = inBytes d n := by
  simp [inBytes, inByte, h, hd]

theorem hdrBytes2 (d) : hdrBytes d 2 = [hdrByte d 0, hdrByte d 1] := rfl
theorem hdrBytes5 (d) : hdrBytes d 5 = [hdrByte d 0, hdrByte d 1, hdrByte d 2, hdrByte d 3, hdrByte d 4] := rfl

theorem xorChecksum_snoc (xs b) : xorChecksum 0 (xs ++ [b]) = xorChecksum 0 xs ^^^ b := by
  rw [xorChecksum_append]; rfl
theorem crc8DvbUpdate_snoc (xs b) : crc8DvbUpdate 0 (xs ++ [b]) = crc8Dvb (crc8DvbUpdate 0 xs) b := by
  rw [crc8DvbUpdate_append]; rfl

/-- A move that keeps the checksum invariant. -/
def MoveChk (cap : Nat) : RxMove → Prop
  | .go d => d.Checked cap
  | .abort _ _ => True
  | .overrun _ => True

theorem toNat_of_eq_ofNat {x : Half} {n : Nat} (h : x = BitVec.ofNat 16 n) (hn : n < 65536) : x.toNat = n := by
  subst h; simp; omega

theorem byte_zero_of_not_pos {x : Byte} (h : ¬ 0 < x.toNat) : x = 0 := BitVec.eq_of_toNat_eq (by simp; omega)
theorem half_zero_of_not_pos {x : Half} (h : ¬ 0 < x.toNat) : x = 0 := BitVec.eq_of_toNat_eq (by simp; omega)

/-- The recorded V2 header is the five staged bytes. -/
theorem v2Header_hdrBytes {d : Deframer} : v2Header (hdrByte d 0) (u16le (hdrByte d 1) (hdrByte d 2)) (u16le (hdrByte d 3) (hdrByte d 4)) = hdrBytes d 5 := by
  simp [v2Header, hdrBytes5]

/-- Every rule keeps the checksum invariant (30_encoding.md R71). -/
theorem rxRule_checked {cap b d m} (hc : cap ≤ 254) (h : Deframer.Inv cap d) (hk : d.Checked cap) (hm : rxRule cap b d = some m) :
    MoveChk cap m := by
  have h5 := h.size
  have h6 := h.state
  clear h
  unfold rxRule at hm
  unfold Deframer.StateInv at h6
  unfold Deframer.Checked at hk
  split at hm <;> cases hm <;> rename_i hst <;> simp only [hst] at h6 hk
  · unfold rxIdle; split <;> exact trivial
  · unfold rxHeaderStart; repeat' split
    all_goals exact trivial
  · unfold rxHeaderM rxDirection; split
    · exact ⟨rfl, rfl⟩
    · trivial
  · unfold rxHeaderX rxDirection; split
    · exact ⟨rfl, rfl⟩
    · trivial
  · -- headerV1
    obtain ⟨hv, ho, hw⟩ := h6
    obtain ⟨k1, k2⟩ := hk
    have ho5 : d.offset.toNat < 5 := by omega
    have hs := toNat_succ_of_lt ho (by omega)
    simp only [rxHeaderV1, stageHeader_of_lt b ho5]
    set d1 : Deframer := foldCk1 b _ with hd1
    have hb : hdrBytes d1 (d.offset.toNat + 1) = hdrBytes d d.offset.toNat ++ [b] := hdrBytes_store _ _ _ _ rfl rfl
    have hk1 : d1.ck1 = xorChecksum 0 (hdrBytes d1 (d.offset.toNat + 1)) := by
      rw [hb, xorChecksum_snoc, ← k1]; rfl
    have hk2 : d1.ck2 = 0 := k2
    have hof : d1.offset = d.offset + 1 := rfl
    have hst1 : d1.state = .headerV1 := hst
    have hv1 : d1.version = .v1 := hv
    clear_value d1
    split
    · rename_i he
      have ho1 : d.offset.toNat + 1 = 2 := by rw [← hs]; exact toNat_of_eq_ofNat he (by omega)
      rw [ho1, hdrBytes2] at hk1
      rcases v1HeaderDone_cases cap d1 with ⟨-, e⟩ | ⟨hle, hs, h6, e⟩ | ⟨-, -, -, e⟩ | ⟨hle, hne, e⟩ <;> rw [e]
      · trivial
      · refine ⟨⟨hdrByte d1 0, h6, hle, ?_⟩, hk2⟩
        show d1.ck1 = _
        rw [hk1, hs]; rfl
      · trivial
      · by_cases hz : 0 < (hdrByte d1 0).toNat
        · simp only [hz, if_true, MoveChk, Deframer.Checked]
          refine ⟨?_, hk2⟩
          show d1.ck1 = _
          simp [hk1, inBytes]
        · have := byte_zero_of_not_pos hz
          simp only [hz, if_false, MoveChk, Deframer.Checked]
          refine ⟨fun _ => ⟨?_, hk2⟩, fun hx => ?_⟩
          · show d1.ck1 = _
            simp [hk1, this, inBytes, (by decide : lo8 0#16 = 0#8)]
          · change d1.version = _ at hx; rw [hv1] at hx; cases hx
    · refine (?_ : d1.Checked cap)
      simp only [Deframer.Checked, hst1, hof, hs]
      exact ⟨hk1, hk2⟩
  · -- native
    obtain ⟨hv, ho5, hw⟩ := h6
    obtain ⟨k1, k2⟩ := hk
    have hs := toNat_succ_of_lt ho5 (by omega)
    simp only [rxHeaderV2Native, stageHeader_of_lt b ho5]
    set d1 : Deframer := foldCk2 b _ with hd1
    have hb : hdrBytes d1 (d.offset.toNat + 1) = hdrBytes d d.offset.toNat ++ [b] := hdrBytes_store _ _ _ _ rfl rfl
    have hk2 : d1.ck2 = crc8DvbUpdate 0 (hdrBytes d1 (d.offset.toNat + 1)) := by
      rw [hb, crc8DvbUpdate_snoc, ← k2]; rfl
    have hk1 : d1.ck1 = 0 := k1
    have hof : d1.offset = d.offset + 1 := rfl
    have hst1 : d1.state = .headerV2Native := hst
    clear_value d1
    split
    · rename_i he
      have ho1 : d.offset.toNat + 1 = 5 := by rw [← hs]; exact toNat_of_eq_ofNat (hof ▸ he) (by omega)
      rw [ho1] at hk2
      rcases v2HeaderDone_cases cap .payloadV2Native .checksumV2Native d1 with ⟨-, e⟩ | ⟨hle, e⟩ <;> rw [e]
      · trivial
      · by_cases hz : 0 < (u16le (hdrByte d1 3) (hdrByte d1 4)).toNat
        · simp only [hz, if_true, MoveChk, Deframer.Checked, Deframer.Ck2OfV2, v2Header_hdrBytes]
          refine ⟨hk1, ?_⟩
          show d1.ck2 = _
          simp [hk2, inBytes]
        · simp only [hz, if_false, MoveChk, Deframer.Checked, Deframer.Ck2OfV2, v2Header_hdrBytes]
          refine ⟨hk1, ?_⟩
          have := half_zero_of_not_pos hz
          show d1.ck2 = _
          simp [hk2, this, inBytes]
    · refine (?_ : d1.Checked cap)
      simp only [Deframer.Checked, hst1, hof, hs]
      exact ⟨hk1, hk2⟩
  · -- over
    obtain ⟨hv, ho5, hw⟩ := h6
    obtain ⟨⟨v, v6, vc, k1⟩, k2⟩ := hk
    have hs := toNat_succ_of_lt ho5 (by omega)
    simp only [rxHeaderV2OverV1, stageHeader_of_lt b ho5]
    set d1 : Deframer := foldCk2 b _ with hd1
    have hb : hdrBytes d1 (d.offset.toNat + 1) = hdrBytes d d.offset.toNat ++ [b] := hdrBytes_store _ _ _ _ rfl rfl
    have hk2 : d1.ck2 = crc8DvbUpdate 0 (hdrBytes d1 (d.offset.toNat + 1)) := by
      rw [hb, crc8DvbUpdate_snoc, ← k2]; rfl
    have hk1 : d1.ck1 = xorChecksum 0 ([v, sentinel] ++ hdrBytes d1 (d.offset.toNat + 1)) := by
      rw [hb, ← List.append_assoc, xorChecksum_snoc, ← k1]; rfl
    have hof : d1.offset = d.offset + 1 := rfl
    have hst1 : d1.state = .headerV2OverV1 := hst
    clear_value d1
    split
    · rename_i he
      have ho1 : d.offset.toNat + 1 = 5 := by rw [← hs]; exact toNat_of_eq_ofNat (hof ▸ he) (by omega)
      rw [ho1] at hk2 hk1
      rcases v2HeaderDone_cases cap .payloadV2OverV1 .checksumV2OverV1 d1 with ⟨-, e⟩ | ⟨hle, e⟩ <;> rw [e]
      · trivial
      · by_cases hz : 0 < (u16le (hdrByte d1 3) (hdrByte d1 4)).toNat
        · simp only [hz, if_true, MoveChk, Deframer.Checked, Deframer.Ck2OfV2, Deframer.Ck1OfV2OverV1, Deframer.v2Taken, v2Header_hdrBytes]
          refine ⟨⟨v, v6, vc, ?_⟩, ?_⟩
          · show d1.ck1 = _
            simp [hk1, inBytes]
          · show d1.ck2 = _
            simp [hk2, inBytes]
        · simp only [hz, if_false, MoveChk, Deframer.Checked, Deframer.Ck2OfV2, Deframer.Ck1OfV2OverV1, Deframer.v2Taken, v2Header_hdrBytes]
          have := half_zero_of_not_pos hz
          refine ⟨⟨v, v6, vc, ?_⟩, ?_⟩
          · show d1.ck1 = _
            simp [hk1, inBytes, this]
          · show d1.ck2 = _
            simp [hk2, this, inBytes]
    · refine (?_ : d1.Checked cap)
      simp only [Deframer.Checked, hst1, hof, hs]
      exact ⟨⟨v, v6, vc, hk1⟩, hk2⟩
  · -- payloadV1
    obtain ⟨hv, hp, ho, hw⟩ := h6
    obtain ⟨k1, k2⟩ := hk
    have hoc : d.offset.toNat < cap := by omega
    have hs := toNat_succ_of_lt hoc (by omega)
    simp only [rxPayloadV1, stagePayload_of_lt b hoc]
    set d1 : Deframer := foldCk1 b _ with hd1
    have hb : inBytes d1 (d.offset.toNat + 1) = inBytes d d.offset.toNat ++ [b] := inBytes_store _ _ _ _ rfl rfl
    have hk1 : d1.ck1 = xorChecksum 0 ([lo8 d1.size, lo8 d1.cmd] ++ inBytes d1 (d.offset.toNat + 1)) := by
      rw [hb, ← List.append_assoc, xorChecksum_snoc]
      have : d1.ck1 = d.ck1 ^^^ b := rfl
      rw [this, k1]; rfl
    have hk2 : d1.ck2 = 0 := k2
    have hof : d1.offset = d.offset + 1 := rfl
    have hst1 : d1.state = .payloadV1 := hst
    have hv1 : d1.version = .v1 := hv
    clear_value d1
    rcases payloadDone_cases .checksumV1 d1 with ⟨he, e⟩ | ⟨he, e⟩ <;> rw [e]
    · simp only [MoveChk, Deframer.Checked]
      refine ⟨fun _ => ⟨?_, hk2⟩, fun hx => ?_⟩
      · show d1.ck1 = xorChecksum 0 ([lo8 d1.size, lo8 d1.cmd] ++ inBytes d1 d1.size.toNat)
        rw [← hs, ← hof, he] at hk1; exact hk1
      · rw [hv1] at hx; cases hx
    · simp only [MoveChk, Deframer.Checked, hst1, Deframer.CksOfV1]
      rw [← hs, ← hof] at hk1; exact ⟨hk1, hk2⟩
  · -- payloadV2OverV1
    obtain ⟨hv, ho, hw⟩ := h6
    obtain ⟨⟨v, v6, vc, k1⟩, k2⟩ := hk
    have hoc : d.offset.toNat < cap := by omega
    have hs := toNat_succ_of_lt hoc (by omega)
    simp only [rxPayloadV2OverV1, stagePayload_of_lt b hoc]
    set d1 : Deframer := foldCk2 b _ with hd1
    have hb : inBytes d1 (d.offset.toNat + 1) = inBytes d d.offset.toNat ++ [b] := inBytes_store _ _ _ _ rfl rfl
    have ht : d1.v2Taken (d.offset.toNat + 1) = d.v2Taken d.offset.toNat ++ [b] := by
      simp only [Deframer.v2Taken, hb]; rw [← List.append_assoc]; rfl
    have hk1 : d1.ck1 = xorChecksum 0 ([v, sentinel] ++ d1.v2Taken (d.offset.toNat + 1)) := by
      rw [ht, ← List.append_assoc, xorChecksum_snoc]
      have : d1.ck1 = d.ck1 ^^^ b := rfl
      rw [this, k1]
    have hk2 : d1.ck2 = crc8DvbUpdate 0 (d1.v2Taken (d.offset.toNat + 1)) := by
      rw [ht, crc8DvbUpdate_snoc]
      have : d1.ck2 = crc8Dvb d.ck2 b := rfl
      rw [this, k2]; rfl
    have hof : d1.offset = d.offset + 1 := rfl
    have hst1 : d1.state = .payloadV2OverV1 := hst
    clear_value d1
    rw [← hs, ← hof] at hk1 hk2
    rcases payloadDone_cases .checksumV2OverV1 d1 with ⟨he, e⟩ | ⟨he, e⟩ <;> rw [e]
    · rw [he] at hk1 hk2
      exact ⟨⟨v, v6, vc, hk1⟩, hk2⟩
    · simp only [MoveChk, Deframer.Checked, hst1]
      exact ⟨⟨v, v6, vc, hk1⟩, hk2⟩
  · -- payloadV2Native
    obtain ⟨hv, ho, hw⟩ := h6
    obtain ⟨k1, k2⟩ := hk
    have hoc : d.offset.toNat < cap := by omega
    have hs := toNat_succ_of_lt hoc (by omega)
    simp only [rxPayloadV2Native, stagePayload_of_lt b hoc]
    set d1 : Deframer := foldCk2 b _ with hd1
    have hb : inBytes d1 (d.offset.toNat + 1) = inBytes d d.offset.toNat ++ [b] := inBytes_store _ _ _ _ rfl rfl
    have ht : d1.v2Taken (d.offset.toNat + 1) = d.v2Taken d.offset.toNat ++ [b] := by
      simp only [Deframer.v2Taken, hb]; rw [← List.append_assoc]; rfl
    have hk1 : d1.ck1 = 0 := k1
    have hk2 : d1.ck2 = crc8DvbUpdate 0 (d1.v2Taken (d.offset.toNat + 1)) := by
      rw [ht, crc8DvbUpdate_snoc]
      have : d1.ck2 = crc8Dvb d.ck2 b := rfl
      rw [this, k2]; rfl
    have hof : d1.offset = d.offset + 1 := rfl
    have hst1 : d1.state = .payloadV2Native := hst
    clear_value d1
    rw [← hs, ← hof] at hk2
    rcases payloadDone_cases .checksumV2Native d1 with ⟨he, e⟩ | ⟨he, e⟩ <;> rw [e]
    · rw [he] at hk2
      exact ⟨hk1, hk2⟩
    · simp only [MoveChk, Deframer.Checked, hst1]
      exact ⟨hk1, hk2⟩
  · -- checksumV1
    obtain ⟨hv, hp⟩ := h6
    unfold rxChecksumV1; split
    · refine ⟨hk.1, hk.2, fun hx => ?_⟩
      change d.version = _ at hx
      rcases hv with hv | hv
      · rw [hv.1] at hx; cases hx
      · rw [hv] at hx; cases hx
    · trivial
  · obtain ⟨hv, hp⟩ := h6
    obtain ⟨⟨v, v6, vc, k1⟩, k2⟩ := hk
    unfold rxChecksumV2OverV1; split
    · rename_i he
      simp only [MoveChk, Deframer.Checked]
      refine ⟨fun hx => ?_, fun _ => ⟨⟨v, v6, vc, ?_⟩, k2⟩⟩
      · change d.version = _ at hx; rw [hv] at hx; cases hx
      · show d.ck1 ^^^ b = _
        rw [← List.append_assoc, xorChecksum_snoc, k1, he]; rfl
    · trivial
  · obtain ⟨hv, hp⟩ := h6
    unfold rxChecksumV2Native; split
    · refine ⟨fun hx => ?_, fun hx => ?_, fun _ => hk⟩ <;>
      · change d.version = _ at hx; rw [hv] at hx; cases hx
    · trivial

end Sys2Proof.Machine
end

