-- ==== Sys2Proof/Laws/PerInstr.lean ====
section
/-! SUPPORT. For every instruction: decoding the presentation of a well-formed instruction gives it back. One lemma per
constructor of `Instr`. -/

namespace Sys2Proof.Laws.RoundTrip

/-- The round trip of one instruction (30_encoding.md R63 to R68, R74, R75). -/
def Statement (i : Instr) : Prop := i.wf = true → decode (encode i) = .ok i

/-- Two words are equal when their bits are; every bit of a field is known. -/
theorem eq_of_bits {n : Nat} {x y : BitVec n} (h : ∀ i, i < n → x.getLsbD i = y.getLsbD i) : x = y :=
  BitVec.eq_of_getLsbD_eq fun i hi => h i hi

theorem rd (reg : BitVec 8) : Statement (.rd reg) := by
  intro _
  have h : opcodeOf (field 28 0x1#4 ||| field 20 reg) = 0x1#4 := by
    apply eq_of_bits; intro i hi
    interval_cases i <;> simp [opcodeOf, field]
  have hm : (field 28 0x1#4 ||| field 20 reg) &&& 0x000FFFFF#32 = 0#32 := by
    apply eq_of_bits; intro i hi
    interval_cases i <;> simp [field]
  have h0 : (field 28 0x1#4 ||| field 20 reg).extractLsb' 20 8 = reg := by
    apply eq_of_bits; intro i hi
    interval_cases i <;> simp [field]
  show decodeWord (field 28 0x1#4 ||| field 20 reg) = _
  unfold decodeWord
  rw [h, h0]
  exact whenClear_of_clear _ hm

theorem wr (reg : BitVec 8) (val : Half) : Statement (.wr reg val) := by
  intro _
  have h : opcodeOf (field 28 0x2#4 ||| field 20 reg ||| field 0 val) = 0x2#4 := by
    apply eq_of_bits; intro i hi
    interval_cases i <;> simp [opcodeOf, field]
  have hm : (field 28 0x2#4 ||| field 20 reg ||| field 0 val) &&& 0x000F0000#32 = 0#32 := by
    apply eq_of_bits; intro i hi
    interval_cases i <;> simp [field]
  have h0 : (field 28 0x2#4 ||| field 20 reg ||| field 0 val).extractLsb' 20 8 = reg := by
    apply eq_of_bits; intro i hi
    interval_cases i <;> simp [field]
  have h1 : (field 28 0x2#4 ||| field 20 reg ||| field 0 val).extractLsb' 0 16 = val := by
    apply eq_of_bits; intro i hi
    interval_cases i <;> simp [field]
  show decodeWord (field 28 0x2#4 ||| field 20 reg ||| field 0 val) = _
  unfold decodeWord
  rw [h, h0, h1]
  exact whenClear_of_clear _ hm

theorem ibr (addr : Half) : Statement (.ibr addr) := by
  intro _
  have h : opcodeOf (field 28 0x3#4 ||| field 8 addr) = 0x3#4 := by
    apply eq_of_bits; intro i hi
    interval_cases i <;> simp [opcodeOf, field]
  have hm : (field 28 0x3#4 ||| field 8 addr) &&& 0x0F0000FF#32 = 0#32 := by
    apply eq_of_bits; intro i hi
    interval_cases i <;> simp [field]
  have h0 : (field 28 0x3#4 ||| field 8 addr).extractLsb' 8 16 = addr := by
    apply eq_of_bits; intro i hi
    interval_cases i <;> simp [field]
  show decodeWord (field 28 0x3#4 ||| field 8 addr) = _
  unfold decodeWord
  rw [h, h0]
  exact whenClear_of_clear _ hm

theorem plr (addr : Half) : Statement (.plr addr) := by
  intro _
  have h : opcodeOf (field 28 0x4#4 ||| field 8 addr) = 0x4#4 := by
    apply eq_of_bits; intro i hi
    interval_cases i <;> simp [opcodeOf, field]
  have hm : (field 28 0x4#4 ||| field 8 addr) &&& 0x0F0000FF#32 = 0#32 := by
    apply eq_of_bits; intro i hi
    interval_cases i <;> simp [field]
  have h0 : (field 28 0x4#4 ||| field 8 addr).extractLsb' 8 16 = addr := by
    apply eq_of_bits; intro i hi
    interval_cases i <;> simp [field]
  show decodeWord (field 28 0x4#4 ||| field 8 addr) = _
  unfold decodeWord
  rw [h, h0]
  exact whenClear_of_clear _ hm

theorem plw (addr : Half) (data : Byte) : Statement (.plw addr data) := by
  intro _
  have h : opcodeOf (field 28 0x5#4 ||| field 8 addr ||| field 0 data) = 0x5#4 := by
    apply eq_of_bits; intro i hi
    interval_cases i <;> simp [opcodeOf, field]
  have hm : (field 28 0x5#4 ||| field 8 addr ||| field 0 data) &&& 0x0F000000#32 = 0#32 := by
    apply eq_of_bits; intro i hi
    interval_cases i <;> simp [field]
  have h0 : (field 28 0x5#4 ||| field 8 addr ||| field 0 data).extractLsb' 8 16 = addr := by
    apply eq_of_bits; intro i hi
    interval_cases i <;> simp [field]
  have h1 : (field 28 0x5#4 ||| field 8 addr ||| field 0 data).extractLsb' 0 8 = data := by
    apply eq_of_bits; intro i hi
    interval_cases i <;> simp [field]
  show decodeWord (field 28 0x5#4 ||| field 8 addr ||| field 0 data) = _
  unfold decodeWord
  rw [h, h0, h1]
  exact whenClear_of_clear _ hm

theorem xorb (byte : Byte) : Statement (.xorb byte) := by
  intro _
  have h : opcodeOf (field 28 0x6#4 ||| field 0 byte) = 0x6#4 := by
    apply eq_of_bits; intro i hi
    interval_cases i <;> simp [opcodeOf, field]
  have hm : (field 28 0x6#4 ||| field 0 byte) &&& 0x0FFFFF00#32 = 0#32 := by
    apply eq_of_bits; intro i hi
    interval_cases i <;> simp [field]
  have h0 : (field 28 0x6#4 ||| field 0 byte).extractLsb' 0 8 = byte := by
    apply eq_of_bits; intro i hi
    interval_cases i <;> simp [field]
  show decodeWord (field 28 0x6#4 ||| field 0 byte) = _
  unfold decodeWord
  rw [h, h0]
  exact whenClear_of_clear _ hm

theorem crcb (byte : Byte) : Statement (.crcb byte) := by
  intro _
  have h : opcodeOf (field 28 0x7#4 ||| field 0 byte) = 0x7#4 := by
    apply eq_of_bits; intro i hi
    interval_cases i <;> simp [opcodeOf, field]
  have hm : (field 28 0x7#4 ||| field 0 byte) &&& 0x0FFFFF00#32 = 0#32 := by
    apply eq_of_bits; intro i hi
    interval_cases i <;> simp [field]
  have h0 : (field 28 0x7#4 ||| field 0 byte).extractLsb' 0 8 = byte := by
    apply eq_of_bits; intro i hi
    interval_cases i <;> simp [field]
  show decodeWord (field 28 0x7#4 ||| field 0 byte) = _
  unfold decodeWord
  rw [h, h0]
  exact whenClear_of_clear _ hm

theorem rxb (byte : Byte) : Statement (.rxb byte) := by
  intro _
  have h : opcodeOf (field 28 0x8#4 ||| field 0 byte) = 0x8#4 := by
    apply eq_of_bits; intro i hi
    interval_cases i <;> simp [opcodeOf, field]
  have hm : (field 28 0x8#4 ||| field 0 byte) &&& 0x0FFFFF00#32 = 0#32 := by
    apply eq_of_bits; intro i hi
    interval_cases i <;> simp [field]
  have h0 : (field 28 0x8#4 ||| field 0 byte).extractLsb' 0 8 = byte := by
    apply eq_of_bits; intro i hi
    interval_cases i <;> simp [field]
  show decodeWord (field 28 0x8#4 ||| field 0 byte) = _
  unfold decodeWord
  rw [h, h0]
  exact whenClear_of_clear _ hm

theorem rxack : Statement (.rxack) := by
  intro _
  decide

theorem rxrst : Statement (.rxrst) := by
  intro _
  decide

theorem txgo : Statement (.txgo) := by
  intro _
  decide

theorem txb : Statement (.txb) := by
  intro _
  decide

theorem reserved0 (rest : BitVec 28) : Statement (.reserved0 rest) := by
  intro _
  have h : opcodeOf (field 28 0x0#4 ||| field 0 rest) = 0x0#4 := by
    apply eq_of_bits; intro i hi
    interval_cases i <;> simp [opcodeOf, field]
  have h0 : (field 28 0x0#4 ||| field 0 rest).extractLsb' 0 28 = rest := by
    apply eq_of_bits; intro i hi
    interval_cases i <;> simp [field]
  show decodeWord (field 28 0x0#4 ||| field 0 rest) = _
  unfold decodeWord
  rw [h, h0]
  rfl

theorem reservedD (rest : BitVec 28) : Statement (.reservedD rest) := by
  intro _
  have h : opcodeOf (field 28 0xD#4 ||| field 0 rest) = 0xD#4 := by
    apply eq_of_bits; intro i hi
    interval_cases i <;> simp [opcodeOf, field]
  have h0 : (field 28 0xD#4 ||| field 0 rest).extractLsb' 0 28 = rest := by
    apply eq_of_bits; intro i hi
    interval_cases i <;> simp [field]
  show decodeWord (field 28 0xD#4 ||| field 0 rest) = _
  unfold decodeWord
  rw [h, h0]
  rfl

theorem reservedE (rest : BitVec 28) : Statement (.reservedE rest) := by
  intro _
  have h : opcodeOf (field 28 0xE#4 ||| field 0 rest) = 0xE#4 := by
    apply eq_of_bits; intro i hi
    interval_cases i <;> simp [opcodeOf, field]
  have h0 : (field 28 0xE#4 ||| field 0 rest).extractLsb' 0 28 = rest := by
    apply eq_of_bits; intro i hi
    interval_cases i <;> simp [field]
  show decodeWord (field 28 0xE#4 ||| field 0 rest) = _
  unfold decodeWord
  rw [h, h0]
  rfl

theorem reservedF (rest : BitVec 28) : Statement (.reservedF rest) := by
  intro _
  have h : opcodeOf (field 28 0xF#4 ||| field 0 rest) = 0xF#4 := by
    apply eq_of_bits; intro i hi
    interval_cases i <;> simp [opcodeOf, field]
  have h0 : (field 28 0xF#4 ||| field 0 rest).extractLsb' 0 28 = rest := by
    apply eq_of_bits; intro i hi
    interval_cases i <;> simp [field]
  show decodeWord (field 28 0xF#4 ||| field 0 rest) = _
  unfold decodeWord
  rw [h, h0]
  rfl

theorem frameV1 (dir : Direction) (cmd : Byte) (payload : List Byte) (checksum : Byte) :
    Statement (.frameV1 dir cmd payload checksum) := by
  intro h
  simp only [Instr.wf, Bool.and_eq_true, decide_eq_true_eq] at h
  obtain ⟨hl, hc⟩ := h
  have hs := ofNat_byte_ne_sentinel hl
  have hn := toNat_ofNat_byte (n := payload.length) (by omega)
  have hc' : cmd ≠ sentinel := hc
  simp [encode, decode, frameV1Bytes, decodeWire, decodeM, hs, hc', hn, show chM ≠ chX by decide]

theorem frameV1Jumbo (dir : Direction) (cmd : Byte) (payload : List Byte) (checksum : Byte) :
    Statement (.frameV1Jumbo dir cmd payload checksum) := by
  intro h
  simp only [Instr.wf, Bool.and_eq_true, decide_eq_true_eq] at h
  obtain ⟨⟨hg, hl⟩, hc⟩ := h
  have hc' : cmd ≠ sentinel := hc
  have hn := toNat_ofNat_half hl
  have hn' : ¬ payload.length < 255 := by omega
  simp [encode, decode, frameV1JumboBytes, decodeWire, decodeM, decodeJumbo, hc', hn, hn', show chM ≠ chX by decide,
    -BitVec.toNat_ofNat]

theorem frameV2Native (dir : Direction) (flags : Byte) (cmd : Half) (payload : List Byte) (crc : Byte) :
    Statement (.frameV2Native dir flags cmd payload crc) := by
  intro h
  simp only [Instr.wf, decide_eq_true_eq] at h
  have hn := toNat_ofNat_half h
  simp [encode, decode, frameV2NativeBytes, v2Header, decodeWire, decodeNative, hn, show chX ≠ chM by decide,
    -BitVec.toNat_ofNat]

theorem frameV2OverV1 (dir : Direction) (v1Size : Byte) (flags : Byte) (cmd : Half) (payload : List Byte)
    (crc checksum : Byte) : Statement (.frameV2OverV1 dir v1Size flags cmd payload crc checksum) := by
  intro h
  simp only [Instr.wf, Bool.and_eq_true, decide_eq_true_eq] at h
  obtain ⟨⟨h6, h254⟩, hl⟩ := h
  have hn := toNat_ofNat_half hl
  have h6' : ¬ v1Size.toNat < 6 := by omega
  have hs : v1Size ≠ sentinel := by
    rintro rfl
    exact absurd h254 (by decide)
  simp [encode, decode, frameV2OverV1Bytes, v2Header, decodeWire, decodeM, decodeV2OverV1, hn, hs, h6',
    show chM ≠ chX by decide, -BitVec.toNat_ofNat]

theorem frameV2OverV1Jumbo (dir : Direction) (v1Size : Half) (flags : Byte) (cmd : Half) (payload : List Byte)
    (crc checksum : Byte) : Statement (.frameV2OverV1Jumbo dir v1Size flags cmd payload crc checksum) := by
  intro h
  simp only [Instr.wf, Bool.and_eq_true, decide_eq_true_eq] at h
  obtain ⟨h255, hl⟩ := h
  have hn := toNat_ofNat_half hl
  have h255' : ¬ v1Size.toNat < 255 := by omega
  simp [encode, decode, frameV2OverV1JumboBytes, v2Header, decodeWire, decodeM, decodeJumbo, decodeV2OverV1Jumbo, hn,
    h255', show chM ≠ chX by decide, -BitVec.toNat_ofNat]

end Sys2Proof.Laws.RoundTrip
end

