-- ==== Sys2Proof/Machine/Listing.lean ====
section
/-! DEFINITION. The textual syntax of 30_encoding.md R78: one operation per line, operands as numbers; a response as
`-> ok data` or `-> refused`; a frame as its bytes in hexadecimal. -/

namespace Sys2Proof.Machine

/-- A hexadecimal digit. -/
def hexDigit (n : Nat) : String := ["0", "1", "2", "3", "4", "5", "6", "7", "8", "9", "A", "B", "C", "D", "E", "F"].getD n ""

/-- A byte as two hexadecimal digits. -/
def hexByte (b : Byte) : String := hexDigit (b.toNat / 16) ++ hexDigit (b.toNat % 16)

/-- A byte operand, `0x..`. -/
def hexOperand (b : Byte) : String := "0x" ++ hexByte b

/-- A 16-bit operand, `0x....`. -/
def hexHalf (h : Half) : String := "0x" ++ hexByte (hi8 h) ++ hexByte (lo8 h)

/-- The bytes of a frame in hexadecimal, separated by spaces (30_encoding.md R78). -/
def listBytes (bytes : List Byte) : String := " ".intercalate (bytes.map hexByte)

/-- A presentation as it is listed: a word by its mnemonic and operands, a frame by its bytes. A reserved word has no
syntax; it is listed as the illegal word it is. -/
def listing (i : Instr) : String :=
  match i with
  | .rd reg        => "RD " ++ hexOperand reg
  | .wr reg val    => "WR " ++ hexOperand reg ++ ", " ++ hexHalf val
  | .ibr addr      => "IBR " ++ hexHalf addr
  | .plr addr      => "PLR " ++ hexHalf addr
  | .plw addr data => "PLW " ++ hexHalf addr ++ ", " ++ hexOperand data
  | .xorb byte     => "XORB " ++ hexOperand byte
  | .crcb byte     => "CRCB " ++ hexOperand byte
  | .rxb byte      => "RXB " ++ hexOperand byte
  | .rxack         => "RXACK"
  | .rxrst         => "RXRST"
  | .txgo          => "TXGO"
  | .txb           => "TXB"
  | .reserved0 _ | .reservedD _ | .reservedE _ | .reservedF _ => "; reserved"
  | .frameV1 dir cmd payload checksum      => listBytes (frameV1Bytes dir cmd payload checksum)
  | .frameV1Jumbo dir cmd payload checksum => listBytes (frameV1JumboBytes dir cmd payload checksum)
  | .frameV2Native dir flags cmd payload crc => listBytes (frameV2NativeBytes dir flags cmd payload crc)
  | .frameV2OverV1 dir v1Size flags cmd payload crc checksum =>
      listBytes (frameV2OverV1Bytes dir v1Size flags cmd payload crc checksum)
  | .frameV2OverV1Jumbo dir v1Size flags cmd payload crc checksum =>
      listBytes (frameV2OverV1JumboBytes dir v1Size flags cmd payload crc checksum)

/-- A response as it is listed: a refusal does not show its cause (30_encoding.md R77, R78). -/
def listResponse (r : Response) : String :=
  match r with
  | .ok data   => "-> ok 0x" ++ hexByte (data.extractLsb' 24 8) ++ hexByte (data.extractLsb' 16 8) ++
      hexByte (data.extractLsb' 8 8) ++ hexByte (data.extractLsb' 0 8)
  | .refused _ => "-> refused"

end Sys2Proof.Machine
end

