-- ==== Sys2Proof/Tests/Slice0.lean ====
section
/-! SUPPORT. Tests of the model: ill-formed terms the checks refuse, words written out from the encodings of
30_encoding.md, one or two steps per instruction from the vectors of 95_test_vectors.md, and for every statement with
hypotheses a concrete state and operands that meet them. -/

namespace Sys2Proof.Tests

open Sys2Proof.Machine

set_option maxRecDepth 20000

/-! ### Helpers -/

/-- The outcome goes on, in a state with this property. -/
def gives (o : Outcome) (p : State → Bool) : Bool :=
  match o with
  | .next t => p t
  | .fault _ | .refused _ => false

/-- The last response. -/
def last (s : State) : Option Response := s.responses.getLast?

/-- The block after reset with another deframer. -/
def withRx (d : Deframer) : State := State.reset.setRx d

/-- The block after reset with another encoder. -/
def withTx (e : Encoder) : State := State.reset.setTx e

/-- The block after reset to which one input is presented. -/
def presented (input : Input) : State := State.reset.setPending [input]

/-- The bytes of trace T3. -/
def traceT3 : List Byte := [0x24, 0x4D, 0x3C, 0x08, 0xFF, 0x00, 0x34, 0x12, 0x02, 0x00, 0xDE, 0xAD, 0xC4, 0x64]

def rx0 : Deframer := Deframer.reset 0
def tx0 : Encoder := Encoder.reset 0

/-- `HeaderV1` after the size byte 3 (trace T1b, byte 3). -/
def rxSize3 : Deframer := { rx0 with state := .headerV1, offset := 1, hdr := [(0, 3)], ck1 := 3 }

/-- `HeaderV2Native` after four header bytes of trace T2. -/
def rxNative4 : Deframer :=
  { rx0 with
    state := .headerV2Native, version := .v2Native, offset := 4, ck2 := 0x81,
    hdr := [(0, 0x00), (1, 0x34), (2, 0x12), (3, 0x02)] }

/-- `HeaderV2OverV1` after four header bytes of trace T3. -/
def rxOver4 : Deframer :=
  { rx0 with
    state := .headerV2OverV1, version := .v2OverV1, offset := 4, ck1 := 0xD3, ck2 := 0x81,
    hdr := [(0, 0x00), (1, 0x34), (2, 0x12), (3, 0x02)] }

/-- `PayloadV1` after two payload bytes of trace T1b. -/
def rxPayload2 : Deframer :=
  { rx0 with
    state := .payloadV1, offset := 2, ck1 := 0x5A, hdr := [(0, 3), (1, 0x69)], size := 3, cmd := 0x69,
    inBuf := [(0, 0x10), (1, 0x20)] }

/-- `PayloadV2OverV1` after one payload byte of trace T3. -/
def rxOverPayload1 : Deframer :=
  { rxOver4 with
    state := .payloadV2OverV1, offset := 1, ck1 := 0x0D, ck2 := 0x28, size := 2, cmd := 0x1234, inBuf := [(0, 0xDE)] }

/-- `PayloadV2Native` after one payload byte of trace T2. -/
def rxNativePayload1 : Deframer :=
  { rxNative4 with
    state := .payloadV2Native, offset := 1, ck2 := 0x28, size := 2, cmd := 0x1234, inBuf := [(0, 0xDE)] }

/-- `ChecksumV1` of trace T1: an empty packet, command 1. -/
def rxCheck : Deframer := { rx0 with state := .checksumV1, ck1 := 1, hdr := [(0, 0), (1, 1)], cmd := 1 }

/-- `ChecksumV2OverV1` of trace T3 after byte 11. -/
def rxOverCheck : Deframer :=
  { rxOverPayload1 with
    state := .checksumV2OverV1, offset := 2, ck1 := 0xA0, ck2 := 0xC4, inBuf := [(0, 0xDE), (1, 0xAD)] }

/-- `ChecksumV2Native` of trace T2 after byte 9. -/
def rxNativeCheck : Deframer :=
  { rxNativePayload1 with state := .checksumV2Native, offset := 2, ck2 := 0xC4, inBuf := [(0, 0xDE), (1, 0xAD)] }

/-- `CommandReceived` after trace T1. -/
def rxDone : Deframer := { rxCheck with state := .commandReceived }

/-- The reply of program P2: V1, `Ack`, command 1, payload `00 01 2E`. -/
def txReply : Encoder :=
  { tx0 with result := .ack, cmd := 1, len := 3, outBuf := [(0, 0x00), (1, 0x01), (2, 0x2E)] }

/-! ### Ill-formed terms -/

theorem test_wf_v1_payload : (Instr.frameV1 .request 1 (List.replicate 255 0) 0).wf = false := by decide
theorem test_wf_v1_sentinel : (Instr.frameV1 .request 255 [] 0).wf = false := by decide
theorem test_wf_jumbo_short : (Instr.frameV1Jumbo .request 1 (List.replicate 254 0) 0).wf = false := by decide
theorem test_wf_jumbo_sentinel : (Instr.frameV1Jumbo .request 255 (List.replicate 255 0) 0).wf = false := by decide
theorem test_wf_jumbo_long : (Instr.frameV1Jumbo .request 1 (List.replicate 65536 0) 0).wf = false := by
  simp only [Instr.wf, List.length_replicate]; decide
theorem test_wf_native_long : (Instr.frameV2Native .request 0 1 (List.replicate 65536 0) 0).wf = false := by
  simp only [Instr.wf, List.length_replicate]; decide
theorem test_wf_over_short : (Instr.frameV2OverV1 .request 5 0 1 [] 0 0).wf = false := by decide
theorem test_wf_over_jumbo_size : (Instr.frameV2OverV1 .request 255 0 1 [] 0 0).wf = false := by decide
theorem test_wf_over_long : (Instr.frameV2OverV1 .request 6 0 1 (List.replicate 65536 0) 0 0).wf = false := by
  simp only [Instr.wf, List.length_replicate]; decide
theorem test_wf_overJumbo_short : (Instr.frameV2OverV1Jumbo .request 254 0 1 [] 0 0).wf = false := by decide
theorem test_wf_overJumbo_long :
    (Instr.frameV2OverV1Jumbo .request 255 0 1 (List.replicate 65536 0) 0 0).wf = false := by
  simp only [Instr.wf, List.length_replicate]; decide

/-! ### Words written out from R74, R75 and frames from R63 to R68 -/

theorem test_decode_rd : decodeTableWord 32 0b00010001001100000000000000000000 = some (.rd 0x13) := by decide
theorem test_decode_rd_val : decodeTableWord 32 0b00010001001100000000000000000001 = none := by decide
theorem test_decode_wr : decodeTableWord 32 0b00100010001000000001001000110100 = some (.wr 0x22 0x1234) := by decide
theorem test_decode_wr_stray : decodeTableWord 32 0b00100010001010000001001000110100 = none := by decide
theorem test_decode_ibr : decodeTableWord 32 0b00110000000000001011111100000000 = some (.ibr 0x00BF) := by decide
theorem test_decode_ibr_data : decodeTableWord 32 0b00110000000000001011111110000000 = none := by decide
theorem test_decode_plr : decodeTableWord 32 0b01000000100000000000000100000000 = some (.plr 0x8001) := by decide
theorem test_decode_plw : decodeTableWord 32 0b01010000000000011111111110101011 = some (.plw 0x01FF 0xAB) := by decide
theorem test_decode_plw_stray : decodeTableWord 32 0b01010001000000011111111110101011 = none := by decide
theorem test_decode_xorb : decodeTableWord 32 0b01100000000000000000000001101001 = some (.xorb 0x69) := by decide
theorem test_decode_crcb : decodeTableWord 32 0b01110000000000000000000010000000 = some (.crcb 0x80) := by decide
theorem test_decode_crcb_stray : decodeTableWord 32 0b01110000000000000000000110000000 = none := by decide
theorem test_decode_rxb : decodeTableWord 32 0b10000000000000000000000000100100 = some (.rxb 0x24) := by decide
theorem test_decode_rxack : decodeTableWord 32 0b10010000000000000000000000000000 = some .rxack := by decide
theorem test_decode_rxrst : decodeTableWord 32 0b10100000000000000000000000000000 = some .rxrst := by decide
theorem test_decode_rxrst_stray : decodeTableWord 32 0b10100000000000000000000000000001 = none := by decide
theorem test_decode_txgo : decodeTableWord 32 0b10110000000000000000000000000000 = some .txgo := by decide
theorem test_decode_txb : decodeTableWord 32 0b11000000000000000000000000000000 = some .txb := by decide
theorem test_decode_reserved0 : decodeTableWord 32 0b00000000000000000000000000000101 = some (.reserved0 5) := by decide
theorem test_decode_reservedD :
    decodeTableWord 32 0b11011000000000000000000000000000 = some (.reservedD 0x8000000) := by decide
theorem test_decode_reservedE : decodeTableWord 32 0b11100000000000000000000000000001 = some (.reservedE 1) := by decide
theorem test_decode_reservedF :
    decodeTableWord 32 0b11111111111111111111111111111111 = some (.reservedF 0xFFFFFFF) := by decide

/-- Vector V-RX-14: direction `'>'`. -/
theorem test_decode_frameV1 :
    decode (.wire [0b00100100, 0b01001101, 0b00111110, 0b00000000, 0b00000001, 0b00000001]) =
      .ok (.frameV1 .replySuccess 1 [] 1) := by decide
/-- Trace T2. -/
theorem test_decode_frameV2Native :
    decode (.wire [0x24, 0x58, 0x3C, 0x00, 0x34, 0x12, 0x02, 0x00, 0xDE, 0xAD, 0xC4]) =
      .ok (.frameV2Native .request 0x00 0x1234 [0xDE, 0xAD] 0xC4) := by decide
/-- Trace T3. -/
theorem test_decode_frameV2OverV1 :
    decode (.wire [0x24, 0x4D, 0x3C, 0x08, 0xFF, 0x00, 0x34, 0x12, 0x02, 0x00, 0xDE, 0xAD, 0xC4, 0x64]) =
      .ok (.frameV2OverV1 .request 0x08 0x00 0x1234 [0xDE, 0xAD] 0xC4 0x64) := by decide
/-- Layout R64 with direction `'!'`: 256 payload bytes, the jumbo field low byte first. -/
theorem test_decode_frameV1Jumbo :
    decode (.wire ([0x24, 0x4D, 0x21, 0xFF, 0x47, 0x00, 0x01] ++ List.replicate 256 7 ++ [9])) =
      .ok (.frameV1Jumbo .replyError 0x47 (List.replicate 256 7) 9) := by decide
/-- Layout R68: V1 size 0x0102, V2 size 1 (nothing ties the two). -/
theorem test_decode_frameV2OverV1Jumbo :
    decode (.wire [0x24, 0x4D, 0x3E, 0xFF, 0xFF, 0x02, 0x01, 0xA5, 0x34, 0x12, 0x01, 0x00, 0x77, 0x88, 0x99]) =
      .ok (.frameV2OverV1Jumbo .replySuccess 0x0102 0xA5 0x1234 [0x77] 0x88 0x99) := by decide
/-- The row's numbering: the first wire byte is the least significant. -/
theorem test_decode_table_frame : decodeTableWord 40 0x01003C4D24 = some (.frameV1 .request 1 [] 0) := by decide
theorem test_decode_no_start : decodeWire [0x25, 0x4D, 0x3C, 0, 1, 1] = .error .noStart := by rfl
theorem test_decode_bad_magic : decodeWire [0x24, 0x59, 0x3C, 0, 1, 1] = .error .badMagic := by rfl
theorem test_decode_bad_direction : decodeWire [0x24, 0x4D, 0x3D, 0, 1, 1] = .error .badDirection := by rfl
theorem test_decode_short : decodeWire [0x24, 0x4D, 0x3C, 1, 1, 1] = .error .wrongLength := by rfl

/-! ### Checksums -/

/-- The table of 40_checksum.md R95. -/
def crcTable : List Byte :=
    [0x00, 0xD5, 0x7F, 0xAA, 0xFE, 0x2B, 0x81, 0x54, 0x29, 0xFC, 0x56, 0x83, 0xD7, 0x02, 0xA8, 0x7D] ++
    [0x52, 0x87, 0x2D, 0xF8, 0xAC, 0x79, 0xD3, 0x06, 0x7B, 0xAE, 0x04, 0xD1, 0x85, 0x50, 0xFA, 0x2F] ++
    [0xA4, 0x71, 0xDB, 0x0E, 0x5A, 0x8F, 0x25, 0xF0, 0x8D, 0x58, 0xF2, 0x27, 0x73, 0xA6, 0x0C, 0xD9] ++
    [0xF6, 0x23, 0x89, 0x5C, 0x08, 0xDD, 0x77, 0xA2, 0xDF, 0x0A, 0xA0, 0x75, 0x21, 0xF4, 0x5E, 0x8B] ++
    [0x9D, 0x48, 0xE2, 0x37, 0x63, 0xB6, 0x1C, 0xC9, 0xB4, 0x61, 0xCB, 0x1E, 0x4A, 0x9F, 0x35, 0xE0] ++
    [0xCF, 0x1A, 0xB0, 0x65, 0x31, 0xE4, 0x4E, 0x9B, 0xE6, 0x33, 0x99, 0x4C, 0x18, 0xCD, 0x67, 0xB2] ++
    [0x39, 0xEC, 0x46, 0x93, 0xC7, 0x12, 0xB8, 0x6D, 0x10, 0xC5, 0x6F, 0xBA, 0xEE, 0x3B, 0x91, 0x44] ++
    [0x6B, 0xBE, 0x14, 0xC1, 0x95, 0x40, 0xEA, 0x3F, 0x42, 0x97, 0x3D, 0xE8, 0xBC, 0x69, 0xC3, 0x16] ++
    [0xEF, 0x3A, 0x90, 0x45, 0x11, 0xC4, 0x6E, 0xBB, 0xC6, 0x13, 0xB9, 0x6C, 0x38, 0xED, 0x47, 0x92] ++
    [0xBD, 0x68, 0xC2, 0x17, 0x43, 0x96, 0x3C, 0xE9, 0x94, 0x41, 0xEB, 0x3E, 0x6A, 0xBF, 0x15, 0xC0] ++
    [0x4B, 0x9E, 0x34, 0xE1, 0xB5, 0x60, 0xCA, 0x1F, 0x62, 0xB7, 0x1D, 0xC8, 0x9C, 0x49, 0xE3, 0x36] ++
    [0x19, 0xCC, 0x66, 0xB3, 0xE7, 0x32, 0x98, 0x4D, 0x30, 0xE5, 0x4F, 0x9A, 0xCE, 0x1B, 0xB1, 0x64] ++
    [0x72, 0xA7, 0x0D, 0xD8, 0x8C, 0x59, 0xF3, 0x26, 0x5B, 0x8E, 0x24, 0xF1, 0xA5, 0x70, 0xDA, 0x0F] ++
    [0x20, 0xF5, 0x5F, 0x8A, 0xDE, 0x0B, 0xA1, 0x74, 0x09, 0xDC, 0x76, 0xA3, 0xF7, 0x22, 0x88, 0x5D] ++
    [0xD6, 0x03, 0xA9, 0x7C, 0x28, 0xFD, 0x57, 0x82, 0xFF, 0x2A, 0x80, 0x55, 0x01, 0xD4, 0x7E, 0xAB] ++
    [0x84, 0x51, 0xFB, 0x2E, 0x7A, 0xAF, 0x05, 0xD0, 0xAD, 0x78, 0xD2, 0x07, 0x53, 0x86, 0x2C, 0xF9]

theorem test_crc_table : (List.range 256).map (fun i => crc8Dvb 0 (BitVec.ofNat 8 i)) = crcTable := by decide

/-- V-CK-20, V-CK-22, V-CK-30: the nine bytes "123456789". -/
theorem test_checksum_vectors :
    let m : List Byte := [0x31, 0x32, 0x33, 0x34, 0x35, 0x36, 0x37, 0x38, 0x39]
    crc8DvbUpdate 0 m = 0xBC ∧ crc8DvbUpdate 0xFF m = 0x7C ∧ xorChecksum 0 m = 0x31 := by decide

/-- V-CK-40. -/
theorem test_xorb :
    gives (exec (.xorb 0x69) (State.reset.setCk ⟨0x03, 0⟩)) (fun t =>
      t.ck.xor == 0x6A && last t == some (.ok 0x6A)) = true := by decide
/-- V-CK-42, V-CK-44: `rx_ck2` is another register. -/
theorem test_crcb :
    gives (exec (.crcb 0xFF) (withRx rxNative4)) (fun t =>
      t.ck.crc == 0xF9 && last t == some (.ok 0xF9) && t.rx.ck2 == 0x81) = true := by decide

/-! ### Access -/

theorem test_rd_state : gives (exec (.rd 0x10) (withRx rxDone)) (fun t => last t == some (.ok 13)) = true := by decide
theorem test_rd_unmapped :
    gives (exec (.rd 0x19) State.reset) (fun t => last t == some (.refused .badRegister)) = true := by decide
theorem test_wr_cmd :
    gives (exec (.wr 0x22 0x1234) State.reset) (fun t => t.tx.cmd == 0x1234 && last t == some (.ok 0)) = true := by
  decide
/-- V-CK-45: a value is never truncated. -/
theorem test_wr_too_large :
    gives (exec (.wr 0x01 0x100) State.reset) (fun t => t.ck.crc == 0 && last t == some (.refused .badValue)) = true := by
  decide
theorem test_ibr : gives (exec (.ibr 1) (withRx rxPayload2)) (fun t => last t == some (.ok 0x20)) = true := by decide
theorem test_ibr_outside :
    gives (exec (.ibr 192) (withRx rxPayload2)) (fun t => last t == some (.refused .badAddress)) = true := by decide
theorem test_plr : gives (exec (.plr 2) (withTx txReply)) (fun t => last t == some (.ok 0x2E)) = true := by decide
theorem test_plw_last_index :
    gives (exec (.plw 511 0xAB) State.reset) (fun t => t.tx.outBuf == [(511, 0xAB)] && t.tx.len == 0) = true := by
  decide
theorem test_plw_busy_first :
    gives (exec (.plw 512 0xAB) (withTx { tx0 with busy := true })) (fun t =>
      last t == some (.refused .txBusy)) = true := by decide

/-! ### Deframer -/

/-- T1b, byte 4. -/
theorem test_rxb_header_v1 :
    gives (exec (.rxb 0x69) (withRx rxSize3)) (fun t =>
      t.rx.state == .payloadV1 && t.rx.size == 3 && t.rx.cmd == 0x69 && t.rx.ck1 == 0x6A && t.rx.offset == 0) = true := by
  decide
/-- T3, byte 9: the fifth header byte is folded into both checksums (`rx_ck2` 81 becomes 3A). -/
theorem test_rxb_header_v2OverV1 :
    gives (exec (.rxb 0x00) (withRx rxOver4)) (fun t =>
      t.rx.state == .payloadV2OverV1 && t.rx.ck1 == 0xD3 && t.rx.ck2 == 0x3A && t.rx.size == 2 && t.rx.cmd == 0x1234) =
      true := by decide
/-- T3, byte 12: the inner CRC byte is part of checksum-1. -/
theorem test_rxb_inner_crc :
    gives (exec (.rxb 0xC4) (withRx rxOverCheck)) (fun t =>
      t.rx.state == .checksumV1 && t.rx.ck1 == 0x64 && last t == some (.ok 10)) = true := by decide
/-- V-RX-41. -/
theorem test_rxack :
    gives (exec .rxack (withRx rxDone)) (fun t => t.rx == { rxDone with state := .idle } && last t == some (.ok 0)) =
      true := by decide
theorem test_rxack_none :
    gives (exec .rxack (withRx rxCheck)) (fun t => t.rx == rxCheck && last t == some (.refused .rxNoPacket)) = true := by
  decide
/-- V-RX-43. -/
theorem test_rxrst :
    gives (exec .rxrst (withRx rxPayload2)) (fun t =>
      t.rx == { rxPayload2 with state := .idle } && last t == some (.ok 0)) = true := by decide

/-! ### Encoder -/

/-- R157's example. -/
theorem test_txgo :
    gives (exec .txgo (withTx txReply)) (fun t =>
      t.tx == { txReply with busy := true, pos := 0 } && last t == some (.ok 9)) = true := by decide
/-- R158's example: the ninth byte carries `last`. -/
theorem test_txb_last :
    gives (exec .txb (withTx { txReply with busy := true, pos := 8 })) (fun t =>
      t.tx == { txReply with busy := false, pos := 9 } && last t == some (.ok 0x12D) && t.txs == [0x2D]) = true := by
  decide
theorem test_txb_idle :
    gives (exec .txb (withTx txReply)) (fun t => last t == some (.refused .txIdle)) = true := by decide
/-- R154's example. -/
theorem test_frame_v2OverV1 :
    frame .v2OverV1 .ack 0x1234 0 [0xDE, 0xAD] =
      [0x24, 0x4D, 0x3E, 0x08, 0xFF, 0x00, 0x34, 0x12, 0x02, 0x00, 0xDE, 0xAD, 0xC4, 0x64] := by decide

/-! ### Reserved opcodes and wire frames -/

theorem test_reserved0 :
    gives (exec (.reserved0 0) State.reset) (fun t => last t == some (.refused .illegalOp)) = true := by decide
theorem test_reservedD :
    gives (exec (.reservedD 1) State.reset) (fun t => last t == some (.refused .illegalOp)) = true := by decide
theorem test_reservedE :
    gives (exec (.reservedE 1) State.reset) (fun t => last t == some (.refused .illegalOp)) = true := by decide
theorem test_reservedF :
    gives (exec (.reservedF 1) State.reset) (fun t => last t == some (.refused .illegalOp)) = true := by decide
/-- Trace T1b as one frame. -/
theorem test_frameV1 :
    gives (exec (.frameV1 .request 0x69 [0x10, 0x20, 0x30] 0x6A) State.reset) (fun t =>
      t.rx.state == .commandReceived && t.rx.cmd == 0x69 && packetPayload t.rx == [0x10, 0x20, 0x30]) = true := by decide
/-- Trace T2 as one frame. -/
theorem test_frameV2Native :
    gives (exec (.frameV2Native .request 0 0x1234 [0xDE, 0xAD] 0xC4) State.reset) (fun t =>
      t.rx.state == .commandReceived && t.rx.version == .v2Native && packetPayload t.rx == [0xDE, 0xAD]) = true := by
  decide
/-- V-RX-25: V1 size 6 but V2 size 2. -/
theorem test_frameV2OverV1 :
    gives (exec (.frameV2OverV1 .request 6 0 0x10 [0xAA, 0xBB] 0x3C 0xC6) State.reset) (fun t =>
      t.rx.state == .commandReceived && t.rx.cmd == 0x10 && t.rx.ck1 == 0xC6 && t.rx.ck2 == 0x3C) = true := by decide
/-- Trace T3 as one frame: delivered, with the checksums the trace gives. -/
theorem test_frameV2OverV1_t3 :
    gives (exec (.frameV2OverV1 .request 8 0 0x1234 [0xDE, 0xAD] 0xC4 0x64) State.reset) (fun t =>
      t.rx.state == .commandReceived && t.rx.ck1 == 0x64 && t.rx.ck2 == 0xC4 && packetPayload t.rx == [0xDE, 0xAD]) =
      true := by decide
/-- V-RX-08. -/
theorem test_frameV1Jumbo :
    gives (exec (.frameV1Jumbo .request 1 (List.replicate 255 0) 0) State.reset) (fun t =>
      t.rx.state == .idle && t.rx.size == 0 && t.rx.inBuf == []) = true := by decide
/-- R230: the frame of trace T3 at the start of a rejected jumbo frame's payload is delivered. -/
theorem test_frameV1Jumbo_inner_v2OverV1 :
    gives (exec (.frameV1Jumbo .request 1 traceT3 0) State.reset) (fun t =>
      t.rx.state == .commandReceived && t.rx.version == .v2OverV1 && t.rx.cmd == 0x1234 &&
        packetPayload t.rx == [0xDE, 0xAD]) = true := by decide
/-- R130: rejected for V2-over-V1 alike. -/
theorem test_frameV2OverV1Jumbo :
    gives (exec (.frameV2OverV1Jumbo .request 255 0 1 [1, 2] 0 0) State.reset) (fun t =>
      t.rx.state == .idle && t.rx.version == .v1 && t.rx.inBuf == []) = true := by decide

/-! ### Witnesses: states and operands that meet the hypotheses of the statements -/

theorem tx0_inv : tx0.Inv 512 := ⟨by decide, by decide, by decide, fun h => Bool.noConfusion h⟩

/-- A deframer with its arrays inside their bounds; the state's own part is left to the caller. -/
theorem rx_inv {d : Deframer} (h1 : d.hdr.Wf) (h2 : Memory.Below 5 d.hdr) (h3 : d.inBuf.Wf)
    (h4 : Memory.Below 192 d.inBuf) (h5 : d.size.toNat ≤ 192) (h6 : d.StateInv) : (withRx d).Inv :=
  ⟨show Config.standard.Legal by decide, ⟨h1, h2, h3, h4, h5, h6⟩, tx0_inv⟩

theorem witness_inv_reset : State.reset.Inv :=
  rx_inv (d := rx0) (by decide) (by decide) (by decide) (by decide) (by decide) trivial

theorem witness_inv_headerV1 : (withRx rxSize3).Inv :=
  rx_inv (by decide) (by decide) (by decide) (by decide) (by decide) ⟨rfl, by decide, by decide⟩

theorem witness_inv_headerV2Native : (withRx rxNative4).Inv :=
  rx_inv (by decide) (by decide) (by decide) (by decide) (by decide) ⟨rfl, by decide, by decide⟩

theorem witness_inv_headerV2OverV1 : (withRx rxOver4).Inv :=
  rx_inv (by decide) (by decide) (by decide) (by decide) (by decide) ⟨rfl, by decide, by decide⟩

theorem witness_inv_payloadV1 : (withRx rxPayload2).Inv :=
  rx_inv (by decide) (by decide) (by decide) (by decide) (by decide) ⟨rfl, ⟨by decide, rfl⟩, by decide, by decide⟩

theorem witness_inv_payloadV2OverV1 : (withRx rxOverPayload1).Inv :=
  rx_inv (by decide) (by decide) (by decide) (by decide) (by decide) ⟨rfl, by decide, by decide⟩

theorem witness_inv_payloadV2Native : (withRx rxNativePayload1).Inv :=
  rx_inv (by decide) (by decide) (by decide) (by decide) (by decide) ⟨rfl, by decide, by decide⟩

theorem witness_inv_checksumV1 : (withRx rxCheck).Inv :=
  rx_inv (by decide) (by decide) (by decide) (by decide) (by decide)
    ⟨.inl ⟨rfl, by decide, rfl⟩, rfl, by decide⟩

theorem witness_inv_checksumV2OverV1 : (withRx rxOverCheck).Inv :=
  rx_inv (by decide) (by decide) (by decide) (by decide) (by decide) ⟨rfl, rfl, by decide⟩

theorem witness_inv_checksumV2Native : (withRx rxNativeCheck).Inv :=
  rx_inv (by decide) (by decide) (by decide) (by decide) (by decide) ⟨rfl, rfl, by decide⟩

theorem witness_inv_commandReceived : (withRx rxDone).Inv :=
  rx_inv (by decide) (by decide) (by decide) (by decide) (by decide) ⟨fun _ => ⟨by decide, rfl⟩, rfl, by decide⟩

/-- An encoder in the middle of a frame. -/
theorem witness_inv_sending : (withTx { txReply with busy := true, pos := 8 }).Inv :=
  ⟨by decide, witness_inv_reset.rx, ⟨by decide, by decide, by decide, fun _ => by decide⟩⟩

theorem witness_DecodeOfEncodeIsIdentity :
    (Instr.frameV1 .replyError 254 (List.replicate 254 0) 9).wf = true ∧
    (Instr.frameV1Jumbo .request 0 (List.replicate 255 0) 9).wf = true ∧
    (Instr.frameV2OverV1 .request 6 1 2 [] 3 4).wf = true ∧ (Instr.frameV2OverV1 .request 254 1 2 [5] 3 4).wf = true ∧
    (Instr.frameV2OverV1Jumbo .request 255 1 2 [5] 3 4).wf = true ∧ (Instr.wr 0xFF 0xFFFF).wf = true := by
  decide

theorem witness_EncodeOfDecodeIsIdentity :
    decode (.word 0x1FF00000) = .ok (.rd 0xFF) ∧
    decode (.wire [0x24, 0x4D, 0x3C, 0xFE, 0xFF, 1, 2, 3, 0, 0, 8, 9]) =
      .ok (.frameV2OverV1 .request 0xFE 1 0x0302 [] 8 9) := by
  exact ⟨by decide, by decide⟩

/-- One clause for words that match no row, one for words that match a row. -/
theorem witness_IllegalWordsAreRefused :
    (presented (.present (.word 0x10000001))).pending = .present (.word 0x10000001) :: [] ∧
    (∀ row ∈ operationRows, (0x10000001 : Word) &&& row.1 ≠ row.2) ∧
    (∀ row ∈ operationRows, (0 : Word) &&& row.1 ≠ row.2) ∧
    ∃ row ∈ operationRows, (0x80000000 : Word) &&& row.1 = row.2 := by
  refine ⟨rfl, ?_, ?_, (0xFFFFFF00, 0x80000000), ?_, ?_⟩ <;> simp [operationRows]

theorem witness_StepRunsTheDecodedInstruction :
    (presented (.present (.word 0x90000000))).pending = .present (.word 0x90000000) :: [] ∧
    decode (.word 0x90000000) = .ok .rxack := ⟨rfl, by decide⟩

/-- Bytes that are no frame, and none at all. -/
theorem witness_WireBytesActAsRxframe :
    (presented (.present (.wire [0x41, 0x24]))).pending = .present (.wire [0x41, 0x24]) :: [] ∧
    (presented (.present (.wire []))).pending = .present (.wire []) :: [] := ⟨rfl, rfl⟩

theorem witness_FrameInstructionsActAsRxframe :
    encode (.frameV1 .request 1 [] 1) = .wire [0x24, 0x4D, 0x3C, 0, 1, 1] ∧
    encode (.frameV2OverV1Jumbo .replyError 255 1 2 [] 3 4) =
      .wire [0x24, 0x4D, 0x21, 255, 255, 255, 0, 1, 2, 0, 0, 0, 3, 4] ∧ State.reset.Inv :=
  ⟨by decide, by decide, witness_inv_reset⟩

theorem witness_IdleStepAndBlockReset :
    State.reset.pending = [] ∧ (presented .blockReset).pending = .blockReset :: [] := ⟨rfl, rfl⟩

/-- The extreme parameters. -/
theorem witness_ResetMeetsTheInvariants :
    Config.Legal { inCap := 0, outCap := 512 } ∧ Config.Legal { inCap := 254, outCap := 65529 } := by decide

/-- A byte of a frame in progress, presented as an operation. -/
theorem witness_StepKeepsTheInvariant :
    ((withRx rxSize3).setPending [.present (.word 0x80000069)]).Inv ∧
    gives (step ((withRx rxSize3).setPending [.present (.word 0x80000069)])) (fun _ => true) = true := by
  obtain ⟨h1, h2, h3⟩ := witness_inv_headerV1
  exact ⟨⟨h1, h2, h3⟩, by decide⟩

theorem witness_NoStepStopsTheBlock : (withTx { txReply with busy := true, pos := 8 }).Inv := witness_inv_sending

/-- In `HeaderV1`, in `ChecksumV2OverV1` and in `CommandReceived`, with the checksums of traces T1 and T3. -/
theorem witness_StepKeepsTheRunningChecksums :
    ((withRx rxSize3).Inv ∧ rxSize3.Checked 192) ∧ ((withRx rxOverCheck).Inv ∧ rxOverCheck.Checked 192) ∧
    ((withRx rxDone).Inv ∧ rxDone.Checked 192) := by
  refine ⟨⟨witness_inv_headerV1, ?_, rfl⟩, ⟨witness_inv_checksumV2OverV1, ⟨8, by decide, by decide, ?_⟩, ?_⟩,
    ⟨witness_inv_commandReceived, fun _ => ⟨?_, rfl⟩, fun h => WireVersion.noConfusion h,
      fun h => WireVersion.noConfusion h⟩⟩
  · decide
  · decide
  · show _ = _; decide
  · show _ = _; decide

theorem witness_ParametersStayAndOutputsOnlyGrow :
    gives (step (presented (.present (.word 0x80000024)))) (fun t => t.rxs == [0x24]) = true := by decide

/-- One operation of each unit, and one of none. -/
theorem witness_InstructionsTouchOnlyTheirUnit :
    unitOf (.rd 0) ≠ some .checksum ∧ unitOf (.txgo) ≠ some .deframer ∧ unitOf (.rxb 0) ≠ some .encoder ∧
    gives (exec (.rd 0) State.reset) (fun _ => true) = true ∧ gives (exec .txgo State.reset) (fun _ => true) = true ∧
    gives (exec (.rxb 0) State.reset) (fun _ => true) = true := by decide

theorem witness_OperationsOfDifferentUnitsCommute :
    unitOf (.xorb 1) = some .checksum ∧ unitOf (.rxb 0x24) = some .deframer ∧
    gives (exec (.xorb 1) State.reset) (fun t => gives (exec (.rxb 0x24) t) (fun _ => true)) = true ∧
    gives (exec (.rxb 0x24) State.reset) (fun t => gives (exec (.xorb 1) t) (fun _ => true)) = true := by decide

/-- Every cause of refusal, and operations that are not refused. -/
theorem witness_RefusedExactlyWhenSpecified :
    refusalOf (.reserved0 0) State.reset = some .illegalOp ∧ refusalOf (.rd 0x04) State.reset = some .badRegister ∧
    refusalOf (.wr 0x10 0) State.reset = some .readOnly ∧ refusalOf (.wr 0x20 3) State.reset = some .badValue ∧
    refusalOf (.plw 512 0) State.reset = some .badAddress ∧
    refusalOf .txgo (withTx { txReply with busy := true }) = some .txBusy ∧
    refusalOf .txb State.reset = some .txIdle ∧ refusalOf (.rxb 0) (withRx rxDone) = some .rxPacketPending ∧
    refusalOf .rxack State.reset = some .rxNoPacket ∧
    isOperation (.wr 0x24 512) = true ∧ refusalOf (.wr 0x24 512) State.reset = none ∧
    gives (exec (.wr 0x24 512) State.reset) (fun _ => true) = true := by decide

theorem witness_ReadsChangeNothingAndRepeat :
    gives (exec (.rd 0x26) State.reset) (fun _ => true) = true ∧
    gives (exec (.ibr 1) (withRx rxPayload2)) (fun _ => true) = true ∧
    gives (exec (.plr 2) (withTx txReply)) (fun _ => true) = true := by decide

/-- The numbers next to the mapped ones. -/
theorem witness_RdReadsTheNumberedRegister :
    (0x04#8) ∉ mappedNumbers ∧ (0x0F#8) ∉ mappedNumbers ∧ (0x19#8) ∉ mappedNumbers ∧ (0x27#8) ∉ mappedNumbers ∧
    (0xFF#8) ∉ mappedNumbers ∧ (1 : Half) ≠ 0 := by decide

/-- Each clause at a boundary: unmapped 0x04; read-only 0x25; busy 0x20; `TX_LEN` of `OUT_CAP` and one above;
`TX_VERSION` 2 and 3; `CK_XOR` while busy. -/
theorem witness_WrTestsThenWritesOneRegister :
    (0x04#8) ∉ mappedNumbers ∧
    ((0x25#8) ∈ mappedNumbers ∧ ∀ p ∈ writableNumbers State.reset.cfg, p.1 ≠ (0x25#8)) ∧
    ((0x20#8) ∈ descriptorNumbers ∧ (withTx { txReply with busy := true }).tx.busy = true) ∧
    ((0x24#8, 512) ∈ writableNumbers State.reset.cfg ∧ State.reset.tx.busy = false ∧ 512 < (513 : Half).toNat ∧
      (512 : Half).toNat ≤ 512) ∧
    ((0x20#8, 2) ∈ writableNumbers State.reset.cfg ∧ 2 < (3 : Half).toNat ∧ (2 : Half).toNat ≤ 2) ∧
    ((0x00#8, 255) ∈ writableNumbers State.reset.cfg ∧ (0x00#8) ∉ descriptorNumbers) := by decide

/-- The last index inside each buffer, the first outside, and a written byte. -/
theorem witness_BufferReadsAnswerTheByte :
    (191 : Half).toNat < State.reset.cfg.inCap ∧ State.reset.cfg.inCap ≤ (192 : Half).toNat ∧
    (511 : Half).toNat < State.reset.cfg.outCap ∧ State.reset.cfg.outCap ≤ (512 : Half).toNat ∧
    memLookup rxPayload2.inBuf 1 = some 0x20 ∧ memLookup txReply.outBuf 2 = some 0x2E ∧ (0xFF : Byte) ≠ 0 := by decide

theorem witness_PlwWritesOneByte :
    (withTx { txReply with busy := true }).tx.busy = true ∧ State.reset.tx.busy = false ∧
    State.reset.cfg.outCap ≤ (512 : Half).toNat ∧ (511 : Half).toNat < State.reset.cfg.outCap := by decide

/-- A payload that fills the buffer, and none. -/
theorem witness_PlfillBuildsThePayload :
    State.reset.cfg.Legal ∧ State.reset.tx.busy = false ∧
    (List.replicate 512 (7 : Byte)).length ≤ State.reset.cfg.outCap ∧ ([] : List Byte).length ≤ State.reset.cfg.outCap := by
  refine ⟨by decide, rfl, ?_, by decide⟩
  rw [List.length_replicate]; decide

theorem witness_XorbFoldsOneByte : (0 : Byte) = 0 ∧ (0 : Byte) = State.reset.ck.xor := ⟨rfl, rfl⟩

theorem witness_CrcbFoldsOneByte : (0xD5 : Byte) = (State.reset.setCk ⟨0, 0xD5⟩).ck.crc := rfl

theorem witness_CrcIsLinearOverXor : ([0x01, 0x02] : List Byte).length = ([0xFF, 0x00] : List Byte).length := rfl

theorem witness_ChecksumResiduesAndByteOrder : ([1, 2, 3] : List Byte).Perm [3, 1, 2] := by decide

theorem witness_OneChangedByteChangesTheChecksum : (0x00 : Byte) ≠ 0x01 := by decide

theorem witness_RxbFindsTheFrameStart :
    (withRx rx0).rx.state = .idle ∧ (withRx { rx0 with state := .headerStart }).rx.state = .headerStart := ⟨rfl, rfl⟩

theorem witness_RxbTakesTheDirection :
    (withRx { rx0 with state := .headerM }).rx.state = .headerM ∧
    (withRx { rx0 with state := .headerX }).rx.state = .headerX := ⟨rfl, rfl⟩

/-- First byte; then second byte with a size of `IN_CAP` + 1, of `IN_CAP`, of 6 and of 5. -/
theorem witness_RxbTakesTheV1Header :
    (withRx { rx0 with state := .headerV1 }).rx.offset = 0 ∧ (withRx rxSize3).rx.state = .headerV1 ∧
    (withRx rxSize3).rx.offset = 1 ∧ rxSize3.Checked 192 ∧
    192 < (hdrByte { rxSize3 with hdr := [(0, 193)] } 0).toNat ∧
    (hdrByte { rxSize3 with hdr := [(0, 192)] } 0).toNat ≤ 192 ∧
    6 ≤ (hdrByte { rxSize3 with hdr := [(0, 6)] } 0).toNat ∧
    (hdrByte { rxSize3 with hdr := [(0, 5)] } 0).toNat < 6 ∧ (254 : Byte) ≠ 255 :=
  ⟨rfl, rfl, rfl, ⟨by decide, rfl⟩, by decide, by decide, by decide, by decide, by decide⟩

/-- The two headers before the fifth byte, with a size of `IN_CAP` (192) and of `IN_CAP` + 1; and before the fourth. -/
theorem witness_RxbTakesTheV2Header :
    (withRx rxOver4).rx.state = .headerV2OverV1 ∧ (withRx rxNative4).rx.state = .headerV2Native ∧
    (withRx rxOver4).rx.offset = 4 ∧ { rxOver4 with offset := 3 }.offset.toNat < 4 ∧
    (u16le (hdrByte { rxOver4 with hdr := [(0, 0), (1, 1), (2, 0), (3, 192)] } 3) 0).toNat ≤ 192 ∧
    192 < (u16le (hdrByte { rxOver4 with hdr := [(0, 0), (1, 1), (2, 0), (3, 193)] } 3) 0).toNat := by decide

theorem witness_RxbStoresThePayload :
    (withRx rxPayload2).rx.state = .payloadV1 ∧ (withRx rxOverPayload1).rx.state = .payloadV2OverV1 ∧
    (withRx rxNativePayload1).rx.state = .payloadV2Native ∧ (withRx rxPayload2).Inv ∧ (withRx rxOverPayload1).Inv ∧
    (withRx rxNativePayload1).Inv ∧ rxPayload2.offset.toNat < State.reset.cfg.inCap :=
  ⟨rfl, rfl, rfl, witness_inv_payloadV1, witness_inv_payloadV2OverV1, witness_inv_payloadV2Native, by decide⟩

theorem witness_RxbVerifiesTheChecksum :
    (withRx rxCheck).rx.state = .checksumV1 ∧ (withRx rxOverCheck).rx.state = .checksumV2OverV1 ∧
    (withRx rxNativeCheck).rx.state = .checksumV2Native := ⟨rfl, rfl, rfl⟩

theorem witness_PendingPacketIsHeldUntilReleased :
    (withRx rxDone).rx.state = .commandReceived ∧ (withRx rxCheck).rx.state ≠ .commandReceived := by decide

theorem witness_RxbTakesEveryByte : (withRx rxCheck).Inv ∧ (withRx rxCheck).rx.state ≠ .commandReceived :=
  ⟨witness_inv_checksumV1, by decide⟩

/-- Every cause of an abort, in a state that meets the invariant, at the boundary sizes 193 and 5. -/
theorem witness_AbortsExactlyWhenSpecified :
    ((withRx { rx0 with state := .headerStart }).Inv ∧ abortsFor .badMagic 0x24 192 { rx0 with state := .headerStart }) ∧
    ((withRx { rx0 with state := .headerM }).Inv ∧ abortsFor .badDirection 0x21 192 { rx0 with state := .headerM }) ∧
    ((withRx { rxSize3 with hdr := [(0, 193)] }).Inv ∧
      abortsFor .v1SizeOverCapacity 255 192 { rxSize3 with hdr := [(0, 193)] }) ∧
    ((withRx { rxSize3 with hdr := [(0, 5)] }).Inv ∧
      abortsFor .v2OverV1TooShort 255 192 { rxSize3 with hdr := [(0, 5)] }) ∧
    ((withRx { rxNative4 with hdr := [(0, 0), (1, 1), (2, 0), (3, 193)] }).Inv ∧
      abortsFor .v2SizeOverCapacity 0 192 { rxNative4 with hdr := [(0, 0), (1, 1), (2, 0), (3, 193)] }) ∧
    ((withRx rxCheck).Inv ∧ abortsFor .xorMismatch 0 192 rxCheck) ∧
    ((withRx rxOverCheck).Inv ∧ abortsFor .crcMismatch 0 192 rxOverCheck) := by
  refine ⟨⟨?_, rfl, by decide, by decide⟩, ⟨?_, .inl rfl, by decide, by decide⟩, ⟨?_, rfl, rfl, by decide⟩,
    ⟨?_, rfl, rfl, by decide, rfl, by decide⟩, ⟨?_, .inr rfl, rfl, by decide⟩, ⟨witness_inv_checksumV1, rfl, by decide⟩,
    ⟨witness_inv_checksumV2OverV1, .inl rfl, by decide⟩⟩
  · exact rx_inv (by decide) (by decide) (by decide) (by decide) (by decide) trivial
  · exact rx_inv (by decide) (by decide) (by decide) (by decide) (by decide) rfl
  · exact rx_inv (by decide) (by decide) (by decide) (by decide) (by decide) ⟨rfl, by decide, by decide⟩
  · exact rx_inv (by decide) (by decide) (by decide) (by decide) (by decide) ⟨rfl, by decide, by decide⟩
  · exact rx_inv (by decide) (by decide) (by decide) (by decide) (by decide) ⟨rfl, by decide, by decide⟩

theorem witness_NoiseIsDiscardedSilently :
    State.reset.rx.state = .idle ∧ ∀ b ∈ ([0x00, 0xFF, 0x4D, 0x3C] : List Byte), b ≠ 0x24 := by decide

theorem witness_NoByteIsTakenWhilePending : (withRx rxDone).rx.state = .commandReceived := rfl

/-- Payloads of 0 and `IN_CAP` bytes, commands 0 and 254. -/
theorem witness_GoodV1FrameIsDelivered :
    State.reset.Inv ∧ State.reset.rx.state = .idle ∧ Direction.request ≠ .replyError ∧
    ([] : List Byte).length ≤ State.reset.cfg.inCap ∧ (List.replicate 192 (5 : Byte)).length ≤ State.reset.cfg.inCap ∧
    (0 : Byte) ≠ 255 ∧ (254 : Byte) ≠ 255 :=
  ⟨witness_inv_reset, rfl, by decide, by decide, by decide, by decide, by decide⟩

theorem witness_GoodV2NativeFrameIsDelivered :
    State.reset.Inv ∧ State.reset.rx.state = .idle ∧ Direction.replySuccess ≠ .replyError ∧
    (List.replicate 192 (5 : Byte)).length ≤ State.reset.cfg.inCap :=
  ⟨witness_inv_reset, rfl, by decide, by decide⟩

/-- V1 sizes 6 and `IN_CAP`; the CRC byte of trace T3. -/
theorem witness_GoodV2OverV1FrameIsDelivered :
    State.reset.Inv ∧ State.reset.rx.state = .idle ∧ Direction.request ≠ .replyError ∧
    ([0xDE, 0xAD] : List Byte).length ≤ State.reset.cfg.inCap ∧ 6 ≤ (6 : Byte).toNat ∧
    (192 : Byte).toNat ≤ State.reset.cfg.inCap ∧
    (0xC4 : Byte) = crc8DvbUpdate 0 ([0x00, lo8 0x1234, hi8 0x1234, BitVec.ofNat 8 2, 0] ++ [0xDE, 0xAD]) :=
  ⟨witness_inv_reset, rfl, by decide, by decide, by decide, by decide, by decide⟩

/-- V-RX-31, V-RX-34, V-RX-33 and V-RX-35: one wrong byte of each layout. -/
theorem witness_CorruptedFramesAreDropped :
    State.reset.Inv ∧ State.reset.rx.state = .idle ∧ ([1, 2, 3] : List Byte).length ≤ State.reset.cfg.inCap ∧
    lo8 0x42 ≠ 255 ∧ (0x40 : Byte) ≠ xorChecksum 0 ([BitVec.ofNat 8 3, lo8 0x42] ++ [1, 2, 3]) ∧
    (0x52 : Byte) ≠ crc8DvbUpdate 0 ([0, lo8 0x42, hi8 0x42, BitVec.ofNat 8 3, 0] ++ [1, 2, 3]) ∧
    (0x42 : Byte) = crc8DvbUpdate 0 ([0, lo8 0x42, hi8 0x42, BitVec.ofNat 8 3, 0] ++ [1, 2, 3]) ∧
    (0xF4 : Byte) ≠
      xorChecksum 0 ([9, 255] ++ [0, lo8 0x42, hi8 0x42, BitVec.ofNat 8 3, 0] ++ [1, 2, 3] ++ [0x42]) ∧
    6 ≤ (9 : Byte).toNat ∧ (9 : Byte).toNat ≤ State.reset.cfg.inCap :=
  ⟨witness_inv_reset, rfl, by decide, by decide, by decide, by decide, by decide, by decide,
    by decide, by decide⟩

/-- The source's example S1: every shorter prefix stays away from `Idle` and `CommandReceived`. -/
theorem witness_OnlyWellFormedFramesAreDelivered :
    State.reset.Inv ∧ State.reset.rx.state = .idle ∧
    gives (execAll (rxFrame [0x24, 0x4D, 0x3C, 0, 1, 1]) State.reset) (fun t => t.rx.state == .commandReceived) = true ∧
    ∀ k < 6, 0 < k → gives (execAll (rxFrame (([0x24, 0x4D, 0x3C, 0, 1, 1] : List Byte).take k)) State.reset)
      (fun u => u.rx.state != .idle && u.rx.state != .commandReceived) = true :=
  ⟨witness_inv_reset, rfl, by decide, by decide⟩

theorem witness_JumboFramesAreNotReceived :
    State.reset.Inv ∧ State.reset.rx.state = .idle ∧ Direction.request ≠ .replyError ∧
    encode (.frameV1Jumbo .request 1 (List.replicate 255 0) 7) =
      .wire ([0x24, 0x4D, dirByte .request, 255, 1] ++ ([255, 0] ++ List.replicate 255 0 ++ [7])) ∧
    encode (.frameV2OverV1Jumbo .request 255 1 2 [] 3 4) =
      .wire ([0x24, 0x4D, dirByte .request, 255, 255] ++ [255, 0, 1, 2, 0, 0, 0, 3, 4]) ∧
    (∀ b ∈ ([255, 0] ++ List.replicate 255 0 ++ [7] : List Byte), b ≠ 0x24) ∧
    ∀ b ∈ ([255, 0, 1, 2, 0, 0, 0, 3, 4] : List Byte), b ≠ 0x24 :=
  ⟨witness_inv_reset, rfl, by decide, by decide, by decide, by decide, by decide⟩

/-- V-RX-20: a payload of 256 bytes that begins with the source's example S1; and one that begins with trace T3. -/
theorem witness_InnerFrameOfARejectedFrameIsDelivered :
    State.reset.Inv ∧ State.reset.rx.state = .idle ∧ Direction.request ≠ .replyError ∧
    (AcceptedFrame State.reset.cfg.inCap (frameV1Bytes .request 1 [] 1) ∧
      (1 : Byte) = xorChecksum 0 ([BitVec.ofNat 8 ([] : List Byte).length, 1] ++ []) ∧
      ([] : List Byte).length ≤ State.reset.cfg.inCap ∧ (1 : Byte) ≠ 255 ∧
      lo8 (BitVec.ofNat 16 (frameV1Bytes .request 1 [] 1 ++ List.replicate 250 0).length) ≠ 0x24 ∧
      hi8 (BitVec.ofNat 16 (frameV1Bytes .request 1 [] 1 ++ List.replicate 250 0).length) ≠ 0x24) ∧
    AcceptedFrame State.reset.cfg.inCap traceT3 ∧
    lo8 (BitVec.ofNat 16 (traceT3 ++ List.replicate 250 0).length) ≠ 0x24 ∧
    hi8 (BitVec.ofNat 16 (traceT3 ++ List.replicate 250 0).length) ≠ 0x24 :=
  ⟨witness_inv_reset, rfl, by decide,
    ⟨⟨0x3C, .inl rfl, [], by decide, .inl ⟨1, by decide, by decide⟩⟩, by decide, by decide, by decide, by decide, by decide⟩,
    ⟨0x3C, .inl rfl, [0xDE, 0xAD], by decide,
      .inr (.inr ⟨8, 0x00, 0x34, 0x12, 0x02, 0x00, 0xC4, by decide, by decide, by decide, by decide, by decide⟩)⟩,
    by decide, by decide⟩

/-- V-RX-02 and V-RX-03. -/
theorem witness_ErrorDirectionIsNotReceived :
    State.reset.rx.state = .idle ∧
    encode (.frameV1 .replyError 1 [] 1) = .wire ([0x24, 0x4D, 0x21] ++ [0, 1, 1]) ∧
    encode (.frameV2Native .replyError 0 1 [] 0x45) = .wire ([0x24, 0x58, 0x21] ++ [0, 1, 0, 0, 0, 0x45]) ∧
    (∀ b ∈ ([0, 1, 1] : List Byte), b ≠ 0x24) ∧ ∀ b ∈ ([0, 1, 0, 0, 0, 0x45] : List Byte), b ≠ 0x24 := by
  refine ⟨rfl, ?_, ?_, ?_, ?_⟩ <;> decide

theorem witness_DeframerIgnoresUnspecifiedContent :
    (withRx rxSize3).Inv ∧ gives (exec (.rxb 0x69) (withRx rxSize3)) (fun _ => true) = true :=
  ⟨witness_inv_headerV1, by decide⟩

/-- Both directions; lengths 254 and 255, 248 and 249. -/
theorem witness_FrameBytesAreTheLayouts :
    replyDirection .ack = some 0x3E ∧ replyDirection .error = some 0x21 ∧
    (List.replicate 254 (0 : Byte)).length ≤ 254 ∧ 255 ≤ (List.replicate 255 (0 : Byte)).length ∧
    (List.replicate 248 (0 : Byte)).length ≤ 248 ∧ 249 ≤ (List.replicate 249 (0 : Byte)).length := by decide

theorem witness_SentFramesDecodeToTheirLayout :
    (List.replicate 255 (0 : Byte)).length ≤ 65529 ∧ (List.replicate 254 (0 : Byte)).length ≤ 254 ∧
    (List.replicate 248 (0 : Byte)).length ≤ 248 ∧ 249 ≤ (List.replicate 249 (0 : Byte)).length ∧ lo8 0x1FE ≠ 255 := by
  decide

theorem witness_FrameLengthsAreAsTabled :
    (List.replicate 254 (0 : Byte)).length ≤ 254 ∧ 255 ≤ (List.replicate 255 (0 : Byte)).length ∧
    (List.replicate 248 (0 : Byte)).length ≤ 248 ∧ 249 ≤ (List.replicate 249 (0 : Byte)).length := by decide

theorem witness_TxgoStartsTheFrame :
    (withTx { txReply with busy := true }).tx.busy = true ∧ State.reset.tx.busy = false ∧
    State.reset.tx.result = .noReply ∧ (withTx txReply).tx.busy = false ∧ (withTx txReply).tx.result = .ack := by decide

/-- Not busy; the first byte and the last of a frame of 9. -/
theorem witness_TxbHandsOutTheNextByte :
    State.reset.tx.busy = false ∧ (withTx { txReply with busy := true }).tx.busy = true ∧
    (0#17).toNat < (replyFrame { txReply with busy := true }).length ∧
    (8#17).toNat < (replyFrame { txReply with busy := true, pos := 8 }).length := by decide

theorem witness_DrainSendsExactlyTheFrame :
    (withTx txReply).Inv ∧ (withTx txReply).tx.busy = false ∧ (withTx txReply).tx.result = .ack :=
  ⟨⟨by decide, witness_inv_reset.rx, ⟨by decide, by decide, by decide, fun h => Bool.noConfusion h⟩⟩, rfl, rfl⟩

theorem witness_BusyFreezesTheReply :
    (withTx { txReply with busy := true, pos := 8 }).tx.busy = true ∧
    gives (exec .txb (withTx { txReply with busy := true, pos := 8 })) (fun _ => true) = true ∧
    gives (exec (.wr 0x22 9) (withTx { txReply with busy := true, pos := 8 })) (fun _ => true) = true := by decide

theorem witness_V1FrameIgnoresFlagsAndHighCommandByte : lo8 0x1234 = lo8 0xFF34 := by decide

/-- The longest payloads that come back: 192 bytes under V1 and V2-native, 186 under V2-over-V1. -/
theorem witness_SentFrameIsReceivedBack :
    State.reset.Inv ∧ State.reset.rx.state = .idle ∧ ((0x3C : Byte) = 0x3C ∨ (0x3C : Byte) = 0x3E) ∧
    (WireVersion.v2OverV1 = .v2OverV1 → 6 + (List.replicate 186 (0 : Byte)).length ≤ State.reset.cfg.inCap) ∧
    (List.replicate 192 (0 : Byte)).length ≤ State.reset.cfg.inCap ∧
    (WireVersion.v1 = .v1 → (254 : Half).toNat ≤ 254) :=
  ⟨witness_inv_reset, rfl, .inl rfl, fun _ => by decide, by decide, fun _ => by decide⟩

theorem witness_WrittenPayloadHidesUnspecifiedContent :
    WrittenTo txReply.outBuf txReply.len.toNat ∧
    gives (exec .txb (withTx { txReply with busy := true, pos := 8 })) (fun _ => true) = true :=
  ⟨by decide, by decide⟩

end Sys2Proof.Tests
end

section
/-! The family of 00_scope.md: which unit an instruction touches (O16), the idle step and the block reset (O9), and the
invariants at reset (O11). -/

namespace Sys2Proof.Machine

/-! ### Changes confined to one unit (00_scope.md R1) -/

/-- Between `s` and `t` at most the unit `u`, the port's responses and its byte streams differ. -/
structure TouchesOnly (u : Option UnitName) (s t : State) : Prop where
  ck      : u ≠ some .checksum → t.ck = s.ck
  rx      : u ≠ some .deframer → t.rx = s.rx
  tx      : u ≠ some .encoder → t.tx = s.tx
  cfg     : t.cfg = s.cfg
  pending : t.pending = s.pending

theorem TouchesOnly.refl (u : Option UnitName) (s : State) : TouchesOnly u s s :=
  ⟨fun _ => rfl, fun _ => rfl, fun _ => rfl, rfl, rfl⟩

theorem TouchesOnly.trans {u : Option UnitName} {s t v : State} (h : TouchesOnly u s t) (k : TouchesOnly u t v) :
    TouchesOnly u s v :=
  ⟨fun hu => (k.ck hu).trans (h.ck hu), fun hu => (k.rx hu).trans (h.rx hu), fun hu => (k.tx hu).trans (h.tx hu),
    k.cfg.trans h.cfg, k.pending.trans h.pending⟩

theorem touchesOnly_setCk (s : State) (c : ChecksumUnit) : TouchesOnly (some .checksum) s (s.setCk c) :=
  ⟨fun hu => absurd rfl hu, fun _ => rfl, fun _ => rfl, rfl, rfl⟩

theorem touchesOnly_setRx (s : State) (d : Deframer) : TouchesOnly (some .deframer) s (s.setRx d) :=
  ⟨fun _ => rfl, fun hu => absurd rfl hu, fun _ => rfl, rfl, rfl⟩

theorem touchesOnly_setTx (s : State) (e : Encoder) : TouchesOnly (some .encoder) s (s.setTx e) :=
  ⟨fun _ => rfl, fun _ => rfl, fun hu => absurd rfl hu, rfl, rfl⟩

section
variable {u : Option UnitName} {s t : State} (h : TouchesOnly u s t)
include h

theorem TouchesOnly.answer (r : Response) : TouchesOnly u s (t.answer r) := ⟨h.ck, h.rx, h.tx, h.cfg, h.pending⟩
theorem TouchesOnly.consume (b : Byte) : TouchesOnly u s (t.consume b) := ⟨h.ck, h.rx, h.tx, h.cfg, h.pending⟩
theorem TouchesOnly.produce (b : Byte) : TouchesOnly u s (t.produce b) := ⟨h.ck, h.rx, h.tx, h.cfg, h.pending⟩

end

/-- A response alone touches no unit. -/
theorem touchesOnly_answer (u : Option UnitName) (s : State) (r : Response) : TouchesOnly u s (s.answer r) :=
  (TouchesOnly.refl u s).answer r

/-- Presenting a byte works on the deframer (41_deframer.md R110). -/
theorem presentByte_touchesOnly {b : Byte} {s t : State} (h : presentByte b s = .next t) :
    TouchesOnly (some .deframer) s t := by
  obtain ⟨-, rfl⟩ | ⟨_, d, -, -, rfl⟩ := presentByte_next_iff.1 h
  · exact touchesOnly_answer _ s _
  · exact ((touchesOnly_setRx s d).consume b).answer _

theorem presentBytes_touchesOnly {bs : List Byte} {s t : State} (h : presentBytes bs s = .next t) :
    TouchesOnly (some .deframer) s t := by
  induction bs generalizing s with
  | nil => cases h; exact .refl ..
  | cons b bs ih =>
    obtain ⟨v, hv, ht⟩ := andThen_next_iff.1 h
    exact (presentByte_touchesOnly hv).trans (ih ht)

/-- A register write works on the unit that `unitOf` gives its register (43_host_access.md R181). -/
theorem regWrite_touchesOnly {r : Reg} {val : Half} {s t : State} (h : regWrite r val s = some t) :
    TouchesOnly (unitOf (.wr (regNumber r) val)) s t := by
  cases r with
  | ckXor | ckCrc => obtain ⟨_, -, rfl⟩ := Option.map_eq_some_iff.1 h; exact touchesOnly_setCk s _
  | txVersion | txResult | txFlags => obtain ⟨_, -, rfl⟩ := Option.map_eq_some_iff.1 h; exact touchesOnly_setTx s _
  | txCmd => cases h; exact touchesOnly_setTx s _
  | txLen => obtain ⟨-, ht⟩ := Option.ite_none_right_eq_some.1 h; cases ht; exact touchesOnly_setTx s _
  | _ => cases h

/-- A `WR` that goes on is refused, or writes the register of its number (43_host_access.md R181). -/
theorem execWr_cases {reg : BitVec 8} {val : Half} {s t : State} (h : execWr reg val s = .next t) :
    (∃ cause, t = s.answer (.refused cause)) ∨
    ∃ r s', reg = regNumber r ∧ regWrite r val s = some s' ∧ t = s'.answer (.ok 0) := by
  unfold execWr at h
  split at h
  · exact .inl ⟨_, (refuse_next_iff ..).1 h⟩
  · next r hr =>
    split at h
    · exact .inl ⟨_, (refuse_next_iff ..).1 h⟩
    split at h
    · exact .inl ⟨_, (refuse_next_iff ..).1 h⟩
    split at h
    · exact .inl ⟨_, (refuse_next_iff ..).1 h⟩
    · next s' hs' => exact .inr ⟨r, s', regOf_eq_some_iff.1 hr, hs', (respond_next_iff ..).1 h⟩

theorem execWr_touchesOnly {reg : BitVec 8} {val : Half} {s t : State} (h : execWr reg val s = .next t) :
    TouchesOnly (unitOf (.wr reg val)) s t := by
  obtain ⟨_, rfl⟩ | ⟨r, s', rfl, hs', rfl⟩ := execWr_cases h
  · exact touchesOnly_answer _ s _
  · exact (regWrite_touchesOnly hs').answer _

/-- `RD` answers or is refused, and changes nothing else (43_host_access.md R180). -/
theorem execRd_answers {reg : BitVec 8} {s t : State} (h : execRd reg s = .next t) : ∃ r, t = s.answer r := by
  unfold execRd at h
  split at h
  · exact ⟨_, (refuse_next_iff ..).1 h⟩
  · exact ⟨_, (respond_next_iff ..).1 h⟩

/-- `IBR` answers or is refused, and changes nothing else (43_host_access.md R182). -/
theorem execIbr_answers {addr : Half} {s t : State} (h : execIbr addr s = .next t) : ∃ r, t = s.answer r := by
  unfold execIbr at h
  split at h
  · exact ⟨_, (respond_next_iff ..).1 h⟩
  · exact ⟨_, (refuse_next_iff ..).1 h⟩

/-- `PLR` answers or is refused, and changes nothing else (43_host_access.md R183). -/
theorem execPlr_answers {addr : Half} {s t : State} (h : execPlr addr s = .next t) : ∃ r, t = s.answer r := by
  unfold execPlr at h
  split at h
  · exact ⟨_, (respond_next_iff ..).1 h⟩
  · exact ⟨_, (refuse_next_iff ..).1 h⟩

theorem execPlw_touchesOnly {addr : Half} {data : Byte} {s t : State} (h : execPlw addr data s = .next t) :
    TouchesOnly (some .encoder) s t := by
  unfold execPlw at h
  split at h
  · cases h; exact touchesOnly_answer _ s _
  split at h
  · cases h; exact touchesOnly_answer _ s _
  · cases h; exact (touchesOnly_setTx s _).answer _

theorem execRxack_touchesOnly {s t : State} (h : execRxack s = .next t) : TouchesOnly (some .deframer) s t := by
  unfold execRxack at h
  split at h
  · cases h; exact (touchesOnly_setRx s _).answer _
  · cases h; exact touchesOnly_answer _ s _

theorem execTxgo_touchesOnly {s t : State} (h : execTxgo s = .next t) : TouchesOnly (some .encoder) s t := by
  obtain ⟨-, hs⟩ | ⟨-, -, hs⟩ | ⟨-, -, hs⟩ := execTxgo_cases s <;> rw [hs] at h <;> cases h
  · exact touchesOnly_answer _ s _
  · exact touchesOnly_answer _ s _
  · exact (touchesOnly_setTx s _).answer _

theorem execTxb_touchesOnly {s t : State} (h : execTxb s = .next t) : TouchesOnly (some .encoder) s t := by
  obtain ⟨-, hs⟩ | ⟨-, -, hs⟩ | ⟨byte, _, -, -, -, hs⟩ := execTxb_cases s <;> rw [hs] at h <;> cases h
  · exact touchesOnly_answer _ s _
  · exact ((touchesOnly_setTx s _).produce byte).answer _

/-- Every instruction is confined to its unit: one case per row of the opcode table. -/
theorem exec_touchesOnly {i : Instr} {s t : State} (h : exec i s = .next t) : TouchesOnly (unitOf i) s t := by
  cases i with
  | rd _ => obtain ⟨_, rfl⟩ := execRd_answers h; exact touchesOnly_answer _ s _
  | ibr _ => obtain ⟨_, rfl⟩ := execIbr_answers h; exact touchesOnly_answer _ s _
  | plr _ => obtain ⟨_, rfl⟩ := execPlr_answers h; exact touchesOnly_answer _ s _
  | wr _ _ => exact execWr_touchesOnly h
  | plw _ _ => exact execPlw_touchesOnly h
  | xorb _ | crcb _ => cases h; exact (touchesOnly_setCk s _).answer _
  | rxb _ => exact presentByte_touchesOnly h
  | rxack => exact execRxack_touchesOnly h
  | rxrst => cases h; exact (touchesOnly_setRx s _).answer _
  | txgo => exact execTxgo_touchesOnly h
  | txb => exact execTxb_touchesOnly h
  | reserved0 _ | reservedD _ | reservedE _ | reservedF _ => cases h; exact touchesOnly_answer _ s _
  | frameV1 _ _ _ _ | frameV1Jumbo _ _ _ _ | frameV2Native _ _ _ _ _ | frameV2OverV1 _ _ _ _ _ _ _
  | frameV2OverV1Jumbo _ _ _ _ _ _ _ => exact presentBytes_touchesOnly h

/-- Settles O16: the fields of `TouchesOnly` for the instruction's own unit. -/
theorem instructionsTouchOnlyTheirUnit : Obligations.InstructionsTouchOnlyTheirUnit := by
  intro i s t h
  obtain ⟨hck, hrx, htx, hcfg, hpending⟩ := exec_touchesOnly h
  exact ⟨hck, hrx, htx, hcfg, hpending⟩

/-! ### Reset (70_reset_and_hazards.md R220) -/

/-- The column reset of the table of 10_state.md R32, with the parameters in their two registers. -/
def resetValue (c : Config) : Reg → Nat
  | .cfgInCap => c.inCap
  | .cfgOutCap => c.outCap
  | .txResult => 2
  | _ => 0

/-- A block whose units are at reset reads the reset column, whatever its buffers' unspecified content. -/
theorem regRead_of_reset {t : State} {m n : Nat} (hck : t.ck = ChecksumUnit.reset) (hrx : t.rx = Deframer.reset m)
    (htx : t.tx = Encoder.reset n) (r : Reg) : regRead r t = BitVec.ofNat 32 (resetValue t.cfg r) := by
  cases r <;> simp only [regRead, hck, hrx, htx] <;> rfl

theorem step_of_pending_nil {s : State} (h : s.pending = []) : step s = .next s := by simp [step, h]

theorem step_of_pending_cons {s : State} {input : Input} {rest : List Input} (h : s.pending = input :: rest) :
    step s = runInput input (s.setPending rest) := by simp [step, h]

/-- Settles O9: the state after the block reset is `blockReset`, whose registers `regRead_of_reset` reads. -/
theorem idleStepAndBlockReset : Obligations.IdleStepAndBlockReset := by
  intro s
  refine ⟨step_of_pending_nil, fun rest h => ?_⟩
  have hstep : step s = .next (blockReset (s.setPending rest)) := step_of_pending_cons h
  have hreg (r : Reg) : regRead r (blockReset (s.setPending rest)) = BitVec.ofNat 32 (resetValue s.cfg r) :=
    regRead_of_reset (blockReset_ck _) (blockReset_rx _) (blockReset_tx _) r
  refine ⟨_, hstep, ?_, fun _ => ⟨rfl, rfl, rfl⟩, rfl, rfl, rfl, rfl⟩
  simp [hreg, resetValue]

theorem Deframer.reset_inv (cap draw : Nat) : (Deframer.reset draw).Inv cap where
  hdrWf := .nil
  hdrBound := by simp [Deframer.reset]
  inWf := .nil
  inBound := by simp [Deframer.reset]
  size := Nat.zero_le cap
  state := trivial

theorem Encoder.reset_inv (cap draw : Nat) : (Encoder.reset draw).Inv cap where
  outWf := .nil
  outBound := by simp [Encoder.reset]
  len := Nat.zero_le cap
  pos := fun h => Bool.noConfusion h

theorem State.resetWith_inv {c : Config} (h : c.Legal) : (State.resetWith c).Inv :=
  ⟨h, Deframer.reset_inv c.inCap 0, Encoder.reset_inv c.outCap 0⟩

/-- Settles O11: nothing is written or in progress at reset; in `Idle` the checksum invariant asks for nothing. -/
theorem resetMeetsTheInvariants : Obligations.ResetMeetsTheInvariants :=
  ⟨State.resetWith_inv (by decide), fun _ h => ⟨State.resetWith_inv h, trivial⟩⟩

end Sys2Proof.Machine
end

section
/-! The family of 10_state.md: what every step keeps (O12, O15), the registers at reset (O10), and where the unspecified
content of the buffers cannot show (O50, O60). -/

namespace Sys2Proof.Machine

/-! ### From instructions to steps -/

theorem andThen_next_right (o : Outcome) : andThen o .next = o := by cases o <;> rfl

theorem execAll_singleton (i : Instr) (s : State) : execAll [i] s = exec i s := andThen_next_right (exec i s)

/-- Every presentation acts as a sequence of instructions: the one it stands for, an illegal word, or `RXB` on each byte
of a stretch that fits no layout (assumption 12). -/
theorem exists_runEncoding_eq_execAll (e : Encoding) : ∃ is, ∀ s, runEncoding e s = execAll is s := by
  unfold runEncoding
  cases decode e with
  | ok i => exact ⟨[i], fun s => (execAll_singleton i s).symm⟩
  | error _ =>
    cases e with
    | word w => exact ⟨[.reserved0 0], fun _ => rfl⟩
    | wire bytes => exact ⟨rxFrame bytes, fun s => (execAll_rxFrame bytes s).symm⟩

/-- What every instruction does, every sequence of instructions does. -/
theorem execAll_induction {R : State → State → Prop} (refl : ∀ s, R s s)
    (trans : ∀ {s t u}, R s t → R t u → R s u) (instr : ∀ {i s t}, exec i s = .next t → R s t)
    {is : List Instr} {s t : State} (h : execAll is s = .next t) : R s t := by
  induction is generalizing s with
  | nil => cases h; exact refl _
  | cons i is ih =>
    obtain ⟨u, hu, ht⟩ := andThen_next_iff.1 h
    exact trans (instr hu) (ih ht)

/-- What every instruction and the block reset do, whatever is presented afterwards, every step does. -/
theorem step_induction {R : State → State → Prop} (refl : ∀ s, R s s)
    (trans : ∀ {s t u}, R s t → R t u → R s u) (instr : ∀ {i s t}, exec i s = .next t → R s t)
    (pending : ∀ s p, R s (s.setPending p)) (reset : ∀ s, R s (blockReset s)) {s t : State} (h : step s = .next t) :
    R s t := by
  cases hp : s.pending with
  | nil => rw [step_of_pending_nil hp] at h; cases h; exact refl s
  | cons input rest =>
    rw [step_of_pending_cons hp] at h
    refine trans (pending s rest) ?_
    cases input with
    | blockReset => cases h; exact reset _
    | present e =>
      obtain ⟨is, his⟩ := exists_runEncoding_eq_execAll e
      exact execAll_induction refl trans instr ((his _).symm.trans h)

/-! ### What every step keeps -/

/-- Between `s` and `t` the parameters stay, the port's record only grows, and the invariant is not lost. -/
structure Advances (s t : State) : Prop where
  cfg       : t.cfg = s.cfg
  responses : s.responses <+: t.responses
  rxs       : s.rxs <+: t.rxs
  txs       : s.txs <+: t.txs
  inv       : s.Inv → t.Inv

theorem Advances.trans {s t u : State} (h : Advances s t) (k : Advances t u) : Advances s u :=
  ⟨k.cfg.trans h.cfg, h.responses.trans k.responses, h.rxs.trans k.rxs, h.txs.trans k.txs, k.inv ∘ h.inv⟩

section
variable (s : State)

/-- An update that leaves the parameters and the port's record alone advances the block when it keeps the invariants of
the two units that have one. -/
theorem advances_of_units (c : ChecksumUnit) {d : Deframer} {e : Encoder} (hd : s.Inv → d.Inv s.cfg.inCap)
    (he : s.Inv → e.Inv s.cfg.outCap) (p : List Input) :
    Advances s { s with ck := c, rx := d, tx := e, pending := p } :=
  ⟨rfl, List.prefix_rfl, List.prefix_rfl, List.prefix_rfl, fun h => ⟨h.cfg, hd h, he h⟩⟩

theorem Advances.refl : Advances s s := advances_of_units s s.ck State.Inv.rx State.Inv.tx s.pending

theorem advances_setCk (c : ChecksumUnit) : Advances s (s.setCk c) :=
  advances_of_units s c State.Inv.rx State.Inv.tx s.pending

theorem advances_setRx {d : Deframer} (hd : s.Inv → d.Inv s.cfg.inCap) : Advances s (s.setRx d) :=
  advances_of_units s s.ck hd State.Inv.tx s.pending

theorem advances_setTx {e : Encoder} (he : s.Inv → e.Inv s.cfg.outCap) : Advances s (s.setTx e) :=
  advances_of_units s s.ck State.Inv.rx he s.pending

theorem advances_setPending (p : List Input) : Advances s (s.setPending p) :=
  advances_of_units s s.ck State.Inv.rx State.Inv.tx p

theorem advances_blockReset : Advances s (blockReset s) :=
  advances_of_units s _ (fun _ => Deframer.reset_inv ..) (fun _ => Encoder.reset_inv ..) s.pending

end

theorem advances_answer (s : State) (r : Response) : Advances s (s.answer r) :=
  ⟨rfl, List.prefix_append .., List.prefix_rfl, List.prefix_rfl, fun h => ⟨h.cfg, h.rx, h.tx⟩⟩

theorem advances_consume (s : State) (b : Byte) : Advances s (s.consume b) :=
  ⟨rfl, List.prefix_rfl, List.prefix_append .., List.prefix_rfl, fun h => ⟨h.cfg, h.rx, h.tx⟩⟩

theorem advances_produce (s : State) (b : Byte) : Advances s (s.produce b) :=
  ⟨rfl, List.prefix_rfl, List.prefix_rfl, List.prefix_append .., fun h => ⟨h.cfg, h.rx, h.tx⟩⟩

/-- An operation ends with its response. -/
theorem Advances.answer {s t : State} (h : Advances s t) (r : Response) : Advances s (t.answer r) :=
  h.trans (advances_answer t r)

/-! ### The deframer's instructions advance the block -/

theorem presentByte_advances {b : Byte} {s t : State} (h : presentByte b s = .next t) : Advances s t := by
  obtain ⟨-, rfl⟩ | ⟨m, d, hm, hd, rfl⟩ := presentByte_next_iff.1 h
  · exact advances_answer s _
  · have hinv (hs : s.Inv) : d.Inv s.cfg.inCap := by
      obtain ⟨d', hd', hi⟩ := (rxRule_inv hs.cfg.1 hs.rx hm).result
      cases hd.symm.trans hd'
      exact hi
    exact ((advances_setRx s hinv).trans (advances_consume _ b)).answer _

theorem presentBytes_advances {bs : List Byte} {s t : State} (h : presentBytes bs s = .next t) : Advances s t := by
  induction bs generalizing s with
  | nil => cases h; exact .refl _
  | cons b bs ih =>
    obtain ⟨u, hu, ht⟩ := andThen_next_iff.1 h
    exact (presentByte_advances hu).trans (ih ht)

/-- Forcing `rx_state` to `Idle` (41_deframer.md R125, R126). -/
theorem advances_setIdle (s : State) : Advances s (s.setRx { s.rx with state := .idle }) :=
  advances_setRx s fun hs => setIdle_inv hs.rx

theorem execRxack_advances {s t : State} (h : execRxack s = .next t) : Advances s t := by
  unfold execRxack at h
  split at h
  · cases h; exact (advances_setIdle s).answer _
  · cases h; exact advances_answer s _

/-! ### The encoder's instructions advance the block -/

/-- While nothing is being sent the descriptor is free to change, within `OUT_CAP` (10_state.md R28). -/
theorem Encoder.Inv.of_not_busy {cap : Nat} {e e' : Encoder} (h : e.Inv cap) (hbuf : e'.outBuf = e.outBuf)
    (hlen : e'.len.toNat ≤ cap) (hbusy : e'.busy = false) : e'.Inv cap where
  outWf := hbuf ▸ h.outWf
  outBound := hbuf ▸ h.outBound
  len := hlen
  pos := by simp [hbusy]

/-- A payload byte stored inside the buffer while nothing is being sent (43_host_access.md R184). -/
theorem Encoder.Inv.storeByte {cap a : Nat} {e : Encoder} (h : e.Inv cap) (ha : a < cap) (v : Byte)
    (hbusy : e.busy = false) : Encoder.Inv cap { e with outBuf := memStore e.outBuf a v } where
  outWf := h.outWf.memStore a v
  outBound := h.outBound.memStore ha v
  len := h.len
  pos := by simp [hbusy]

/-- A frame that sends something has a first byte (42_encoder.md R157). -/
theorem Encoder.Inv.startFrame {cap : Nat} {e : Encoder} (h : e.Inv cap) (hdir : replyDirection e.result ≠ none) :
    Encoder.Inv cap { e with busy := true, pos := 0 } where
  outWf := h.outWf
  outBound := h.outBound
  len := h.len
  pos := fun _ => by
    have hlen : 6 ≤ (replyFrame e).length := (frame_length_bounds e.version e.cmd e.flags (replyPayload e) hdir).1
    exact show 0 < (replyFrame e).length by omega

/-- After a byte that is not the last there is a next one (42_encoder.md R158); a wrap of `tx_pos`, which
10_state.md R30 excludes, could only lower it. -/
theorem Encoder.Inv.nextByte {cap : Nat} {e : Encoder} (h : e.Inv cap) (hpos : e.pos.toNat < (replyFrame e).length) :
    Encoder.Inv cap { e with pos := e.pos + 1, busy := !(e.pos.toNat + 1 == (replyFrame e).length) } where
  outWf := h.outWf
  outBound := h.outBound
  len := h.len
  pos := fun hmore => by
    have hne : e.pos.toNat + 1 ≠ (replyFrame e).length := by simpa using hmore
    have hle : (e.pos + 1).toNat ≤ e.pos.toNat + 1 := by rw [BitVec.toNat_add]; exact Nat.mod_le ..
    exact show (e.pos + 1).toNat < (replyFrame e).length by omega

theorem regReadOnly_of_regDescriptor {r : Reg} : regDescriptor r = true → regReadOnly r = false := by
  cases r <;> simp [regDescriptor, regReadOnly]

/-- A descriptor register is frozen while `tx_busy` is 1 (42_encoder.md R160). -/
theorem execWr_of_busy {r : Reg} {s : State} (val : Half) (hr : regDescriptor r = true) (hbusy : s.tx.busy = true) :
    execWr (regNumber r) val s = .next (s.answer (.refused .txBusy)) := by
  simp [execWr, regReadOnly_of_regDescriptor hr, hr, sending, hbusy, refuse]

/-- A register write keeps the invariant when it finds no frame being sent from the descriptor it changes. -/
theorem regWrite_advances {r : Reg} {val : Half} {s t : State} (h : regWrite r val s = some t)
    (hfree : regDescriptor r = true → s.tx.busy = false) : Advances s t := by
  cases r with
  | ckXor | ckCrc => obtain ⟨_, -, rfl⟩ := Option.map_eq_some_iff.1 h; exact advances_setCk s _
  | txVersion | txResult | txFlags =>
    obtain ⟨_, -, rfl⟩ := Option.map_eq_some_iff.1 h
    exact advances_setTx s fun hs => hs.tx.of_not_busy rfl hs.tx.len (hfree rfl)
  | txCmd => cases h; exact advances_setTx s fun hs => hs.tx.of_not_busy rfl hs.tx.len (hfree rfl)
  | txLen =>
    obtain ⟨hlen, ht⟩ := Option.ite_none_right_eq_some.1 h
    cases ht
    exact advances_setTx s fun hs => hs.tx.of_not_busy rfl hlen (hfree rfl)
  | _ => cases h

theorem execWr_advances {reg : BitVec 8} {val : Half} {s t : State} (h : execWr reg val s = .next t) :
    Advances s t := by
  obtain ⟨_, rfl⟩ | ⟨r, s', rfl, hs', ht⟩ := execWr_cases h
  · exact advances_answer s _
  · by_cases hfrozen : regDescriptor r = true ∧ s.tx.busy = true
    · rw [execWr_of_busy val hfrozen.1 hfrozen.2] at h
      cases h; exact advances_answer s _
    · rw [ht]
      exact (regWrite_advances hs' (by simpa using hfrozen)).answer _

theorem execPlw_advances {addr : Half} {data : Byte} {s t : State} (h : execPlw addr data s = .next t) :
    Advances s t := by
  unfold execPlw at h
  split at h
  · cases h; exact advances_answer s _
  next hbusy =>
  have hidle : s.tx.busy = false := Bool.eq_false_of_not_eq_true hbusy
  split at h
  · cases h; exact advances_answer s _
  next haddr =>
  cases h
  exact (advances_setTx s fun hs => hs.tx.storeByte (Nat.lt_of_not_le haddr) data hidle).answer _

theorem execTxgo_advances {s t : State} (h : execTxgo s = .next t) : Advances s t := by
  obtain ⟨-, hs⟩ | ⟨-, -, hs⟩ | ⟨-, hdir, hs⟩ := execTxgo_cases s <;> rw [hs] at h <;> cases h
  · exact advances_answer s _
  · exact advances_answer s _
  · exact (advances_setTx s fun hi => hi.tx.startFrame hdir).answer _

theorem execTxb_advances {s t : State} (h : execTxb s = .next t) : Advances s t := by
  obtain ⟨-, hs⟩ | ⟨-, -, hs⟩ | ⟨byte, _, hbusy, -, rfl, hs⟩ := execTxb_cases s <;> rw [hs] at h <;> cases h
  · exact advances_answer s _
  · exact ((advances_setTx s fun hi => hi.tx.nextByte (hi.tx.pos hbusy)).trans (advances_produce _ byte)).answer _

/-! ### Every instruction and every step -/

/-- Every instruction advances the block: one case per row of the opcode table. -/
theorem exec_advances {i : Instr} {s t : State} (h : exec i s = .next t) : Advances s t := by
  cases i with
  | rd _ => obtain ⟨_, rfl⟩ := execRd_answers h; exact advances_answer s _
  | ibr _ => obtain ⟨_, rfl⟩ := execIbr_answers h; exact advances_answer s _
  | plr _ => obtain ⟨_, rfl⟩ := execPlr_answers h; exact advances_answer s _
  | wr _ _ => exact execWr_advances h
  | plw _ _ => exact execPlw_advances h
  | xorb _ | crcb _ => cases h; exact (advances_setCk s _).answer _
  | rxb _ => exact presentByte_advances h
  | rxack => exact execRxack_advances h
  | rxrst => cases h; exact (advances_setIdle s).answer _
  | txgo => exact execTxgo_advances h
  | txb => exact execTxb_advances h
  | reserved0 _ | reservedD _ | reservedE _ | reservedF _ => cases h; exact advances_answer s _
  | frameV1 _ _ _ _ | frameV1Jumbo _ _ _ _ | frameV2Native _ _ _ _ _ | frameV2OverV1 _ _ _ _ _ _ _
  | frameV2OverV1Jumbo _ _ _ _ _ _ _ => exact presentBytes_advances h

theorem step_advances {s t : State} (h : step s = .next t) : Advances s t :=
  step_induction .refl .trans exec_advances advances_setPending advances_blockReset h

/-- Settles O12: every instruction and the block reset keep the invariant, so every step does. -/
theorem stepKeepsTheInvariant : Obligations.StepKeepsTheInvariant :=
  fun _ _ hs h => (step_advances h).inv hs

/-- Settles O15: every update of the state leaves the parameters and appends to the port's record. -/
theorem parametersStayAndOutputsOnlyGrow : Obligations.ParametersStayAndOutputsOnlyGrow := by
  intro s t h
  obtain ⟨hcfg, hresponses, hrxs, htxs, -⟩ := step_advances h
  exact ⟨hcfg, hresponses, hrxs, htxs⟩

/-! ### The registers at reset (10_state.md R32) -/

theorem exec_rd_regNumber (r : Reg) (s : State) :
    exec (.rd (regNumber r)) s = .next (s.answer (.ok (regRead r s))) := by
  show execRd (regNumber r) s = _
  simp [execRd, respond]

/-- Settles O10: the statement's list is the register table, in order, with its column reset. -/
theorem resetRegistersReadAsSpecified : Obligations.ResetRegistersReadAsSpecified := by
  refine ⟨?_, rfl, rfl, rfl, rfl⟩
  change ∀ p ∈ allRegs.map fun r => ((regNumber r).toNat, resetValue Config.standard r), _
  intro p hp
  obtain ⟨r, -, rfl⟩ := List.mem_map.1 hp
  have hread : regRead r State.reset = BitVec.ofNat 32 (resetValue Config.standard r) :=
    regRead_of_reset rfl rfl rfl r
  rw [BitVec.ofNat_toNat, BitVec.setWidth_eq, exec_rd_regNumber, hread]

/-! ### Other unspecified content (93_implementation_defined.md U6) -/

/-- Where a byte has been written, the array's unspecified content does not show. -/
theorem memRead_draw_congr {m : Memory} {a : Nat} (h : (memLookup m a).isSome) (space : Space) (n n' : Nat) :
    memRead space n m a = memRead space n' m a := by
  obtain ⟨v, hv⟩ := Option.isSome_iff_exists.1 h
  rw [memRead_of_lookup hv, memRead_of_lookup hv]

/-! ### The deframer on other unspecified content -/

/-- The deframer with the `n`-th unspecified content of `rx_hdr` and `in_buf`. -/
def Deframer.withDraw (n : Nat) (d : Deframer) : Deframer := { d with draw := n }

/-- The same move, with other unspecified content in the deframer it leaves. -/
def RxMove.withDraw (n : Nat) : RxMove → RxMove
  | .go d          => .go (d.withDraw n)
  | .abort cause d => .abort cause (d.withDraw n)
  | .overrun f     => .overrun f

theorem RxMove.result_withDraw (n : Nat) {m : RxMove} {d : Deframer} (h : m.result = some d) :
    (m.withDraw n).result = some (d.withDraw n) := by
  cases m <;> cases h <;> rfl

@[simp] theorem Deframer.withDraw_state (n : Nat) (d : Deframer) : (d.withDraw n).state = d.state := rfl

section
variable (n cap : Nat) (b : Byte) {d : Deframer}

/-! #### Header states: the header is read only when all of it has been written -/

/-- The next header byte fits `rx_hdr`, and those counted before it have been written (10_state.md R16, R19). -/
def Deframer.HeaderWritten (d : Deframer) : Prop := d.offset.toNat < 5 ∧ WrittenTo d.hdr d.offset.toNat

theorem hdrByte_withDraw {i : Nat} (h : WrittenTo d.hdr d.offset.toNat) (hi : i < d.offset.toNat) :
    hdrByte (d.withDraw n) i = hdrByte d i :=
  memRead_draw_congr (h i hi) ..

/-- Staging a header byte leaves it and those before it written, whatever the unspecified content. -/
theorem exists_stageHeader_withDraw (h : d.HeaderWritten) :
    ∃ d', stageHeader b d = some d' ∧ stageHeader b (d.withDraw n) = some (d'.withDraw n) ∧
      WrittenTo d'.hdr d'.offset.toNat := by
  obtain ⟨hlt, hw⟩ := h
  refine ⟨_, stageHeader_of_lt b hlt, stageHeader_of_lt b hlt, ?_⟩
  show WrittenTo _ (d.offset + 1).toNat
  rw [toNat_succ_of_lt hlt (by decide)]
  exact hw.memStore b

/-- A complete V1 header is bytes 0 and 1 (41_deframer.md R115). -/
theorem v1HeaderDone_withDraw (h : WrittenTo d.hdr d.offset.toNat) (hlast : d.offset = 2) :
    v1HeaderDone cap (d.withDraw n) = (v1HeaderDone cap d).withDraw n := by
  have hread {i : Nat} (hi : i < 2) : hdrByte (d.withDraw n) i = hdrByte d i :=
    hdrByte_withDraw n h (by rw [hlast]; exact hi)
  simp only [v1HeaderDone, hread (show 0 < 2 by decide), hread (show 1 < 2 by decide)]
  split
  · rfl
  split
  · split <;> rfl
  · rfl

/-- A complete V2 header is bytes 0 to 4 (41_deframer.md R116, R117). -/
theorem v2HeaderDone_withDraw (payload checksum : RxState) (h : WrittenTo d.hdr d.offset.toNat) (hlast : d.offset = 5) :
    v2HeaderDone cap payload checksum (d.withDraw n) = (v2HeaderDone cap payload checksum d).withDraw n := by
  have hread {i : Nat} (hi : i < 5) : hdrByte (d.withDraw n) i = hdrByte d i :=
    hdrByte_withDraw n h (by rw [hlast]; exact hi)
  simp only [v2HeaderDone, hread (show 0 < 5 by decide), hread (show 1 < 5 by decide), hread (show 2 < 5 by decide),
    hread (show 3 < 5 by decide), hread (show 4 < 5 by decide)]
  split <;> rfl

/-- Going on until the count `k` is reached commutes with the content, when what is done then does. -/
theorem goUnlessComplete_withDraw {k : Half} {complete : Deframer → RxMove}
    (h : d.offset = k → complete (d.withDraw n) = (complete d).withDraw n) :
    (if (d.withDraw n).offset = k then complete (d.withDraw n) else .go (d.withDraw n)) =
      (if d.offset = k then complete d else .go d).withDraw n := by
  by_cases hk : d.offset = k
  · rw [if_pos hk, if_pos (show (d.withDraw n).offset = k from hk), h hk]
  · rw [if_neg hk, if_neg (show (d.withDraw n).offset ≠ k from hk)]; rfl

theorem rxHeaderV1_withDraw (h : d.HeaderWritten) :
    rxHeaderV1 cap b (d.withDraw n) = (rxHeaderV1 cap b d).withDraw n := by
  obtain ⟨d', hd, hn, hw⟩ := exists_stageHeader_withDraw n b h
  simp only [rxHeaderV1, hd, hn]
  exact goUnlessComplete_withDraw n (d := foldCk1 b d') fun hlast => v1HeaderDone_withDraw n cap hw hlast

theorem rxHeaderV2OverV1_withDraw (h : d.HeaderWritten) :
    rxHeaderV2OverV1 cap b (d.withDraw n) = (rxHeaderV2OverV1 cap b d).withDraw n := by
  obtain ⟨d', hd, hn, hw⟩ := exists_stageHeader_withDraw n b h
  simp only [rxHeaderV2OverV1, hd, hn]
  exact goUnlessComplete_withDraw n (d := foldCk2 b (foldCk1 b d')) fun hlast =>
    v2HeaderDone_withDraw n cap _ _ hw hlast

theorem rxHeaderV2Native_withDraw (h : d.HeaderWritten) :
    rxHeaderV2Native cap b (d.withDraw n) = (rxHeaderV2Native cap b d).withDraw n := by
  obtain ⟨d', hd, hn, hw⟩ := exists_stageHeader_withDraw n b h
  simp only [rxHeaderV2Native, hd, hn]
  exact goUnlessComplete_withDraw n (d := foldCk2 b d') fun hlast => v2HeaderDone_withDraw n cap _ _ hw hlast

/-! #### Payload states: the input buffer is written, never read -/

variable (d)

theorem stagePayload_withDraw : stagePayload cap b (d.withDraw n) = (stagePayload cap b d).map (·.withDraw n) := by
  by_cases h : d.offset.toNat < cap
  · rw [stagePayload_of_lt b h, stagePayload_of_lt (d := d.withDraw n) b h]; rfl
  · rw [show stagePayload cap b d = none from if_neg h, show stagePayload cap b (d.withDraw n) = none from if_neg h]
    rfl

theorem payloadDone_withDraw (checksum : RxState) :
    payloadDone checksum (d.withDraw n) = (payloadDone checksum d).withDraw n :=
  goUnlessComplete_withDraw n (k := d.size) (complete := fun d => .go { d with state := checksum }) fun _ => rfl

theorem rxPayloadV1_withDraw : rxPayloadV1 cap b (d.withDraw n) = (rxPayloadV1 cap b d).withDraw n := by
  unfold rxPayloadV1
  rw [stagePayload_withDraw]
  cases stagePayload cap b d with
  | none => rfl
  | some d' => exact payloadDone_withDraw n (foldCk1 b d') _

theorem rxPayloadV2OverV1_withDraw :
    rxPayloadV2OverV1 cap b (d.withDraw n) = (rxPayloadV2OverV1 cap b d).withDraw n := by
  unfold rxPayloadV2OverV1
  rw [stagePayload_withDraw]
  cases stagePayload cap b d with
  | none => rfl
  | some d' => exact payloadDone_withDraw n (foldCk2 b (foldCk1 b d')) _

theorem rxPayloadV2Native_withDraw :
    rxPayloadV2Native cap b (d.withDraw n) = (rxPayloadV2Native cap b d).withDraw n := by
  unfold rxPayloadV2Native
  rw [stagePayload_withDraw]
  cases stagePayload cap b d with
  | none => rfl
  | some d' => exact payloadDone_withDraw n (foldCk2 b d') _

/-! #### The other states: no array is touched -/

theorem rxIdle_withDraw : rxIdle b (d.withDraw n) = (rxIdle b d).withDraw n := by
  unfold rxIdle; split <;> rfl

theorem rxHeaderStart_withDraw : rxHeaderStart b (d.withDraw n) = (rxHeaderStart b d).withDraw n := by
  unfold rxHeaderStart
  split
  · rfl
  · split <;> rfl

theorem rxDirection_withDraw (next : RxState) :
    rxDirection next b (d.withDraw n) = (rxDirection next b d).withDraw n := by
  unfold rxDirection; split <;> rfl

theorem rxChecksumV1_withDraw : rxChecksumV1 b (d.withDraw n) = (rxChecksumV1 b d).withDraw n := by
  show (if b = d.ck1 then _ else _) = _
  unfold rxChecksumV1; split <;> rfl

theorem rxChecksumV2OverV1_withDraw : rxChecksumV2OverV1 b (d.withDraw n) = (rxChecksumV2OverV1 b d).withDraw n := by
  show (if b = d.ck2 then _ else _) = _
  unfold rxChecksumV2OverV1; split <;> rfl

theorem rxChecksumV2Native_withDraw : rxChecksumV2Native b (d.withDraw n) = (rxChecksumV2Native b d).withDraw n := by
  show (if b = d.ck2 then _ else _) = _
  unfold rxChecksumV2Native; split <;> rfl

end

/-- In a header state the invariant says that the bytes counted have been written. -/
theorem Deframer.StateInv.headerWritten {d : Deframer} (h : d.StateInv)
    (hst : d.state = .headerV1 ∨ d.state = .headerV2OverV1 ∨ d.state = .headerV2Native) : d.HeaderWritten := by
  unfold StateInv at h
  obtain hst | hst | hst := hst <;> rw [hst] at h <;> obtain ⟨-, hlt, hw⟩ := h
  · exact ⟨Nat.lt_trans hlt (by decide), hw⟩
  · exact ⟨hlt, hw⟩
  · exact ⟨hlt, hw⟩

/-- The rule of every receive state makes the same move on other unspecified content. -/
theorem rxRule_withDraw (n cap : Nat) (b : Byte) {d : Deframer} (h : d.StateInv) :
    rxRule cap b (d.withDraw n) = (rxRule cap b d).map (·.withDraw n) := by
  have hwritten := h.headerWritten
  unfold rxRule
  rw [Deframer.withDraw_state]
  cases hst : d.state with
  | idle => exact congrArg some (rxIdle_withDraw n b d)
  | headerStart => exact congrArg some (rxHeaderStart_withDraw n b d)
  | headerM | headerX => exact congrArg some (rxDirection_withDraw n b d _)
  | headerV1 => exact congrArg some (rxHeaderV1_withDraw n cap b (hwritten (.inl hst)))
  | headerV2OverV1 => exact congrArg some (rxHeaderV2OverV1_withDraw n cap b (hwritten (.inr (.inl hst))))
  | headerV2Native => exact congrArg some (rxHeaderV2Native_withDraw n cap b (hwritten (.inr (.inr hst))))
  | payloadV1 => exact congrArg some (rxPayloadV1_withDraw n cap b d)
  | payloadV2OverV1 => exact congrArg some (rxPayloadV2OverV1_withDraw n cap b d)
  | payloadV2Native => exact congrArg some (rxPayloadV2Native_withDraw n cap b d)
  | checksumV1 => exact congrArg some (rxChecksumV1_withDraw n b d)
  | checksumV2OverV1 => exact congrArg some (rxChecksumV2OverV1_withDraw n b d)
  | checksumV2Native => exact congrArg some (rxChecksumV2Native_withDraw n b d)
  | commandReceived => rfl

/-- Settles O50: the deframer's rule makes the same move, so the byte is refused or taken alike. -/
theorem deframerIgnoresUnspecifiedContent : Obligations.DeframerIgnoresUnspecifiedContent := by
  intro s t b n hs h
  show presentByte b (s.setRx (s.rx.withDraw n)) = _
  obtain ⟨hst, rfl⟩ | ⟨m, d, hm, hd, rfl⟩ := presentByte_next_iff.1 h
  · exact presentByte_refused b hst
  · have hrule : rxRule s.cfg.inCap b (s.rx.withDraw n) = some (m.withDraw n) := by
      rw [rxRule_withDraw n _ b hs.rx.state, hm]; rfl
    exact presentByte_next_iff.2 (.inr ⟨_, _, hrule, m.result_withDraw n hd, rfl⟩)

/-! ### The encoder on other unspecified content -/

/-- The encoder with the `n`-th unspecified content of `out_buf`. -/
def Encoder.withDraw (n : Nat) (e : Encoder) : Encoder := { e with draw := n }

theorem replyPayload_withDraw (n : Nat) {e : Encoder} (h : WrittenTo e.outBuf e.len.toNat) :
    replyPayload (e.withDraw n) = replyPayload e :=
  List.map_congr_left fun i hi => memRead_draw_congr (h i (List.mem_range.1 hi)) ..

/-- A frame shows of the payload buffer its payload only (42_encoder.md R150). -/
theorem replyFrame_withDraw (n : Nat) {e : Encoder} (h : WrittenTo e.outBuf e.len.toNat) :
    replyFrame (e.withDraw n) = replyFrame e :=
  congrArg (frame e.version e.result e.cmd e.flags) (replyPayload_withDraw n h)

theorem execTxb_refused {s : State} (h : s.tx.busy = false) : execTxb s = .next (s.answer (.refused .txIdle)) := by
  simp [execTxb, sending, h, refuse]

/-- What `TXB` hands out is a byte of the frame (42_encoder.md R158). -/
theorem execTxb_of_frame {s : State} {whole : List Byte} {byte : Byte} (hbusy : s.tx.busy = true)
    (hwhole : replyFrame s.tx = whole) (hbyte : whole[s.tx.pos.toNat]? = some byte) :
    execTxb s = .next (((s.setTx
      { s.tx with pos := s.tx.pos + 1, busy := !(s.tx.pos.toNat + 1 == whole.length) }).produce byte).answer
        (.ok (byte.setWidth 32 ||| (BitVec.ofBool (s.tx.pos.toNat + 1 == whole.length)).setWidth 32 <<< 8))) := by
  subst hwhole
  simp [execTxb, sending, hbusy, hbyte, respond]

/-- Settles O60: the frame is the same, so `TXB` hands out the same byte of it. -/
theorem writtenPayloadHidesUnspecifiedContent : Obligations.WrittenPayloadHidesUnspecifiedContent := by
  intro s t n hwritten h
  show execTxb (s.setTx (s.tx.withDraw n)) = _
  obtain ⟨hidle, hs⟩ | ⟨-, -, hs⟩ | ⟨byte, _, hbusy, hbyte, rfl, hs⟩ := execTxb_cases s <;>
    cases hs.symm.trans h
  · exact execTxb_refused hidle
  · exact execTxb_of_frame hbusy (replyFrame_withDraw n hwritten) hbyte

end Sys2Proof.Machine
end

section
/-! The family of 20_memory.md: operations of different units commute (O17), reads change nothing and repeat (O19), and a
step runs the instruction that its input decodes to (O6). -/

namespace Sys2Proof.Machine

/-! ### States that one unit cannot tell apart -/

/-- The parameters and the unit `u` are the same in `s` and `s'`. -/
def AgreeOn (u : UnitName) (s s' : State) : Prop :=
  s'.cfg = s.cfg ∧
    match u with
    | .checksum => s'.ck = s.ck
    | .deframer => s'.rx = s.rx
    | .encoder  => s'.tx = s.tx

/-- Where both outcomes go on, they agree on the unit `u`. -/
def AlikeOn (u : UnitName) (o o' : Outcome) : Prop := ∀ ⦃t t'⦄, o = .next t → o' = .next t' → AgreeOn u t t'

section
variable {s s' : State} (h : s'.cfg = s.cfg)
include h

theorem agreeOn_setCk (c : ChecksumUnit) : AgreeOn .checksum (s.setCk c) (s'.setCk c) := ⟨h, rfl⟩
theorem agreeOn_setRx (d : Deframer) : AgreeOn .deframer (s.setRx d) (s'.setRx d) := ⟨h, rfl⟩
theorem agreeOn_setTx (e : Encoder) : AgreeOn .encoder (s.setTx e) (s'.setTx e) := ⟨h, rfl⟩

end

/-- What is confined to another unit leaves this one as it is. -/
theorem TouchesOnly.agreeOn {w : Option UnitName} {u : UnitName} {s t : State} (h : TouchesOnly w s t)
    (hw : w ≠ some u) : AgreeOn u s t := by
  cases u with
  | checksum => exact ⟨h.cfg, h.ck hw⟩
  | deframer => exact ⟨h.cfg, h.rx hw⟩
  | encoder  => exact ⟨h.cfg, h.tx hw⟩

section
variable {u : UnitName} {s t v : State} (h : AgreeOn u s t)
include h

theorem AgreeOn.symm : AgreeOn u t s := by
  obtain ⟨hcfg, hunit⟩ := h
  cases u <;> exact ⟨hcfg.symm, hunit.symm⟩

theorem AgreeOn.trans (k : AgreeOn u t v) : AgreeOn u s v := by
  obtain ⟨hcfg, hunit⟩ := h
  obtain ⟨kcfg, kunit⟩ := k
  cases u <;> exact ⟨kcfg.trans hcfg, kunit.trans hunit⟩

/-- Responses and the two byte streams are of no unit. -/
theorem AgreeOn.answer (r r' : Response) : AgreeOn u (s.answer r) (t.answer r') := by cases u <;> exact h
theorem AgreeOn.consume (b b' : Byte) : AgreeOn u (s.consume b) (t.consume b') := by cases u <;> exact h
theorem AgreeOn.produce (b b' : Byte) : AgreeOn u (s.produce b) (t.produce b') := by cases u <;> exact h

theorem AgreeOn.respond (x x' : Word) : AlikeOn u (respond x s) (respond x' t) := by
  rintro _ _ ⟨⟩ ⟨⟩
  exact h.answer ..

theorem AgreeOn.refuse (c c' : RefusalCause) : AlikeOn u (refuse c s) (refuse c' t) := by
  rintro _ _ ⟨⟩ ⟨⟩
  exact h.answer ..

end

section
variable {u : UnitName} {o o' p p' : Outcome} (h : AlikeOn u o o')
include h

theorem AlikeOn.ite {c : Prop} [Decidable c] (k : AlikeOn u p p') :
    AlikeOn u (if c then o else p) (if c then o' else p') := by
  split
  · exact h
  · exact k

theorem AlikeOn.andThen {f : State → Outcome} (k : ∀ {s s'}, AgreeOn u s s' → AlikeOn u (f s) (f s')) :
    AlikeOn u (andThen o f) (andThen o' f) := by
  intro t t' ht ht'
  obtain ⟨s, hs, ht⟩ := andThen_next_iff.1 ht
  obtain ⟨s', hs', ht'⟩ := andThen_next_iff.1 ht'
  exact k (h hs hs') ht ht'

end

theorem rel_map_of_agreeOn {α : Type} {u : UnitName} {f g : α → State} {o : Option α} (h : ∀ x, AgreeOn u (f x) (g x)) :
    Option.Rel (AgreeOn u) (o.map f) (o.map g) := by
  cases o with
  | none => exact .none
  | some x => exact .some (h x)

/-! ### What an instruction does to its unit depends on that unit alone -/

section
variable {s s' : State}

theorem presentByte_alikeOn (b : Byte) (h : AgreeOn .deframer s s') :
    AlikeOn .deframer (presentByte b s) (presentByte b s') := by
  have ⟨hcfg, hrx⟩ := h
  unfold presentByte
  rw [hcfg, hrx]
  cases rxRule s.cfg.inCap b s.rx with
  | none => exact h.refuse ..
  | some m =>
    cases m with
    | go d | abort _ d => exact ((agreeOn_setRx hcfg _).consume ..).respond ..
    | overrun f => exact fun _ _ => nofun

theorem presentBytes_alikeOn (bs : List Byte) (h : AgreeOn .deframer s s') :
    AlikeOn .deframer (presentBytes bs s) (presentBytes bs s') := by
  induction bs generalizing s s' with
  | nil => rintro _ _ ⟨⟩ ⟨⟩; exact h
  | cons b bs ih => exact (presentByte_alikeOn b h).andThen ih

theorem execRxack_alikeOn (h : AgreeOn .deframer s s') : AlikeOn .deframer (execRxack s) (execRxack s') := by
  have ⟨hcfg, hrx⟩ := h
  unfold execRxack packetReady
  rw [hrx]
  exact ((agreeOn_setRx hcfg _).respond ..).ite (h.refuse ..)

theorem execTxgo_alikeOn (h : AgreeOn .encoder s s') : AlikeOn .encoder (execTxgo s) (execTxgo s') := by
  have ⟨hcfg, htx⟩ := h
  unfold execTxgo sending
  rw [htx]
  refine (h.refuse ..).ite ?_
  cases replyDirection s.tx.result with
  | none => exact h.respond ..
  | some _ => exact (agreeOn_setTx hcfg _).respond ..

theorem execTxb_alikeOn (h : AgreeOn .encoder s s') : AlikeOn .encoder (execTxb s) (execTxb s') := by
  have ⟨hcfg, htx⟩ := h
  unfold execTxb sending
  rw [htx]
  refine AlikeOn.ite ?_ (h.refuse ..)
  dsimp only
  cases (replyFrame s.tx)[s.tx.pos.toNat]? with
  | none => exact fun _ _ => nofun
  | some byte => exact ((agreeOn_setTx hcfg _).produce ..).respond ..

theorem execPlw_alikeOn (addr : Half) (data : Byte) (h : AgreeOn .encoder s s') :
    AlikeOn .encoder (execPlw addr data s) (execPlw addr data s') := by
  have ⟨hcfg, htx⟩ := h
  unfold execPlw sending
  rw [hcfg, htx]
  exact (h.refuse ..).ite ((h.refuse ..).ite ((agreeOn_setTx hcfg _).respond ..))

/-- The register is accepted in both states or in neither: a value is legal whatever the other units hold
(43_host_access.md R181). -/
theorem regWrite_agreeOn {r : Reg} {val : Half} {u : UnitName} (hu : unitOf (.wr (regNumber r) val) = some u)
    (h : AgreeOn u s s') : Option.Rel (AgreeOn u) (regWrite r val s) (regWrite r val s') := by
  cases r with
  | ckXor | ckCrc =>
    cases hu
    obtain ⟨hcfg, hck⟩ := h
    simp only [regWrite, hck]
    exact rel_map_of_agreeOn fun _ => agreeOn_setCk hcfg _
  | txVersion | txResult | txFlags =>
    cases hu
    obtain ⟨hcfg, htx⟩ := h
    simp only [regWrite, htx]
    exact rel_map_of_agreeOn fun _ => agreeOn_setTx hcfg _
  | txCmd =>
    cases hu
    obtain ⟨hcfg, htx⟩ := h
    simp only [regWrite, htx]
    exact .some (agreeOn_setTx hcfg _)
  | txLen =>
    cases hu
    obtain ⟨hcfg, htx⟩ := h
    simp only [regWrite, hcfg, htx]
    split
    · exact .some (agreeOn_setTx hcfg _)
    · exact .none
  | _ => cases hu

/-- A register that `tx_busy` freezes is one of the encoder (42_encoder.md R160). -/
theorem unitOf_wr_of_regDescriptor {r : Reg} (h : regDescriptor r = true) (val : Half) :
    unitOf (.wr (regNumber r) val) = some .encoder := by
  cases r with
  | txVersion | txResult | txCmd | txFlags | txLen => rfl
  | _ => cases h

theorem regDescriptor_and_sending_congr {r : Reg} {val : Half} {u : UnitName}
    (hu : unitOf (.wr (regNumber r) val) = some u) (h : AgreeOn u s s') :
    (regDescriptor r && sending s') = (regDescriptor r && sending s) := by
  cases hr : regDescriptor r with
  | false => rfl
  | true =>
    cases hu.symm.trans (unitOf_wr_of_regDescriptor hr val)
    exact congrArg Encoder.busy h.2

theorem execWr_alikeOn {reg : BitVec 8} {val : Half} {u : UnitName} (hu : unitOf (.wr reg val) = some u)
    (h : AgreeOn u s s') : AlikeOn u (execWr reg val s) (execWr reg val s') := by
  unfold execWr
  cases hr : regOf reg with
  | none => exact h.refuse ..
  | some r =>
    obtain rfl := regOf_eq_some_iff.1 hr
    simp only [regDescriptor_and_sending_congr hu h]
    refine (h.refuse ..).ite ((h.refuse ..).ite ?_)
    match regWrite r val s, regWrite r val s', regWrite_agreeOn hu h with
    | _, _, .none => exact h.refuse ..
    | _, _, .some k => exact k.respond ..

/-- From states that an instruction's unit cannot tell apart, the instruction leads to such states: one case per row of
the opcode table. -/
theorem exec_alikeOn_own {i : Instr} {u : UnitName} (hu : unitOf i = some u) (h : AgreeOn u s s') :
    AlikeOn u (exec i s) (exec i s') := by
  cases i with
  | wr _ _ => exact execWr_alikeOn hu h
  | rd _ | reserved0 _ | reservedD _ | reservedE _ | reservedF _ => cases hu
  | xorb _ | crcb _ =>
    cases hu
    obtain ⟨hcfg, hck⟩ := h
    simp only [exec, execXorb, execCrcb, hck]
    exact (agreeOn_setCk hcfg _).respond ..
  | ibr _ =>
    simp only [exec, execIbr, h.1]
    exact (h.respond ..).ite (h.refuse ..)
  | plr _ =>
    simp only [exec, execPlr, h.1]
    exact (h.respond ..).ite (h.refuse ..)
  | rxb b => cases hu; exact presentByte_alikeOn b h
  | rxack => cases hu; exact execRxack_alikeOn h
  | rxrst =>
    cases hu
    obtain ⟨hcfg, hrx⟩ := h
    simp only [exec, execRxrst, hrx]
    exact (agreeOn_setRx hcfg _).respond ..
  | plw addr data => cases hu; exact execPlw_alikeOn addr data h
  | txgo => cases hu; exact execTxgo_alikeOn h
  | txb => cases hu; exact execTxb_alikeOn h
  | frameV1 _ _ _ _ | frameV1Jumbo _ _ _ _ | frameV2Native _ _ _ _ _ | frameV2OverV1 _ _ _ _ _ _ _
  | frameV2OverV1Jumbo _ _ _ _ _ _ _ => cases hu; exact presentBytes_alikeOn _ h

/-- The same for every unit: another unit is left as it is. -/
theorem exec_alikeOn {i : Instr} {u : UnitName} (h : AgreeOn u s s') : AlikeOn u (exec i s) (exec i s') := by
  by_cases hu : unitOf i = some u
  · exact exec_alikeOn_own hu h
  · intro t t' ht ht'
    have hst : AgreeOn u s t := (exec_touchesOnly ht).agreeOn hu
    have hst' : AgreeOn u s' t' := (exec_touchesOnly ht').agreeOn hu
    exact hst.symm.trans (h.trans hst')

end

/-! ### Operations of different units (20_memory.md R50) -/

/-- An instruction that leaves the unit `u` alone may come before or after `i` without a difference in `u`. -/
theorem agreeOn_exec_swap {i j : Instr} {u : UnitName} {s t v t' v' : State} (hj : unitOf j ≠ some u)
    (ht : exec i s = .next t) (hv : exec j t = .next v) (ht' : exec j s = .next t') (hv' : exec i t' = .next v') :
    AgreeOn u v v' := by
  have hst' : AgreeOn u s t' := (exec_touchesOnly ht').agreeOn hj
  have htv : AgreeOn u t v := (exec_touchesOnly hv).agreeOn hj
  exact htv.symm.trans (exec_alikeOn hst' ht hv')

/-- Settles O17: one of the two instructions leaves the unit alone. -/
theorem operationsOfDifferentUnitsCommute : Obligations.OperationsOfDifferentUnitsCommute := by
  intro i j a b hi hj hab s t v t' v' ht hv ht' hv'
  have agree (u : UnitName) : AgreeOn u v' v := by
    by_cases hju : unitOf j = some u
    · cases hju.symm.trans hj
      have hib : unitOf i ≠ some b := fun hib => hab (Option.some.inj (hi.symm.trans hib))
      exact agreeOn_exec_swap hib ht' hv' ht hv
    · exact (agreeOn_exec_swap hju ht hv ht' hv').symm
  exact ⟨(agree .checksum).2, (agree .deframer).2, (agree .encoder).2⟩

/-! ### Reads (20_memory.md R44) -/

/-- A read answers, changes nothing else, and gives the same response after any response. -/
theorem read_answers {i : Instr} (hi : (∃ reg, i = .rd reg) ∨ (∃ addr, i = .ibr addr) ∨ ∃ addr, i = .plr addr)
    (s : State) : ∃ r, exec i s = .next (s.answer r) ∧ ∀ r', exec i (s.answer r') = .next ((s.answer r').answer r) := by
  obtain ⟨reg, rfl⟩ | ⟨addr, rfl⟩ | ⟨addr, rfl⟩ := hi
  · simp only [exec, execRd]
    cases regOf reg with
    | none => exact ⟨_, rfl, fun _ => rfl⟩
    | some r => exact ⟨_, rfl, fun r' => by simp only [regRead_answer, respond_eq]⟩
  · by_cases haddr : addr.toNat < s.cfg.inCap
    · exact ⟨_, if_pos haddr, fun _ => if_pos haddr⟩
    · exact ⟨_, if_neg haddr, fun _ => if_neg haddr⟩
  · by_cases haddr : addr.toNat < s.cfg.outCap
    · exact ⟨_, if_pos haddr, fun _ => if_pos haddr⟩
    · exact ⟨_, if_neg haddr, fun _ => if_neg haddr⟩

theorem sameContent_answer (s : State) (r : Response) : SameContent s (s.answer r) :=
  ⟨fun reg _ => regRead_answer reg s r, fun _ _ => rfl, fun _ _ => rfl, fun _ _ => rfl⟩

/-- Settles O19: the response of a read does not depend on the responses before it. -/
theorem readsChangeNothingAndRepeat : Obligations.ReadsChangeNothingAndRepeat := by
  intro i s t hi h
  obtain ⟨r, hr, again⟩ := read_answers hi s
  cases hr.symm.trans h
  exact ⟨r, rfl, sameContent_answer s r, again r⟩

/-! ### Steps and inputs (20_memory.md R47) -/

theorem runEncoding_of_decode {e : Encoding} {i : Instr} (h : decode e = .ok i) (s : State) :
    runEncoding e s = exec i s := by simp [runEncoding, h]

/-- Settles O6: the oldest input is taken, and its encoding runs as the instruction it decodes to. -/
theorem stepRunsTheDecodedInstruction : Obligations.StepRunsTheDecodedInstruction := by
  intro s e rest i hp hd
  calc step s = runEncoding e (s.setPending rest) := step_of_pending_cons hp
    _ = exec i (s.setPending rest) := runEncoding_of_decode hd _

end Sys2Proof.Machine
end

section
/-! The family of 30_encoding.md: decoding and encoding are inverse to each other (O1, O2, O5, O52), the words that
stand for no operation (O3, O4), the checksums that cover a frame (O14), the pseudo-operations of R79 (O24, O27), and
frames with direction `'!'` (O49). -/

namespace Sys2Proof.Machine

/-! ### Every well-formed instruction is read back -/

/-- The round trip, one law per row of the opcode table (30_encoding.md R63 to R68, R74, R75). -/
theorem decode_encode {i : Instr} (h : i.wf = true) : decode (encode i) = .ok i := by
  revert h
  cases i with
  | rd _ => exact Laws.RoundTrip.rd _
  | wr _ _ => exact Laws.RoundTrip.wr _ _
  | ibr _ => exact Laws.RoundTrip.ibr _
  | plr _ => exact Laws.RoundTrip.plr _
  | plw _ _ => exact Laws.RoundTrip.plw _ _
  | xorb _ => exact Laws.RoundTrip.xorb _
  | crcb _ => exact Laws.RoundTrip.crcb _
  | rxb _ => exact Laws.RoundTrip.rxb _
  | rxack => exact Laws.RoundTrip.rxack
  | rxrst => exact Laws.RoundTrip.rxrst
  | txgo => exact Laws.RoundTrip.txgo
  | txb => exact Laws.RoundTrip.txb
  | reserved0 _ => exact Laws.RoundTrip.reserved0 _
  | reservedD _ => exact Laws.RoundTrip.reservedD _
  | reservedE _ => exact Laws.RoundTrip.reservedE _
  | reservedF _ => exact Laws.RoundTrip.reservedF _
  | frameV1 _ _ _ _ => exact Laws.RoundTrip.frameV1 _ _ _ _
  | frameV1Jumbo _ _ _ _ => exact Laws.RoundTrip.frameV1Jumbo _ _ _ _
  | frameV2Native _ _ _ _ _ => exact Laws.RoundTrip.frameV2Native _ _ _ _ _
  | frameV2OverV1 _ _ _ _ _ _ _ => exact Laws.RoundTrip.frameV2OverV1 _ _ _ _ _ _ _
  | frameV2OverV1Jumbo _ _ _ _ _ _ _ => exact Laws.RoundTrip.frameV2OverV1Jumbo _ _ _ _ _ _ _

/-- Settles O1: the round trip of every row. -/
theorem decodeOfEncodeIsIdentity : Obligations.DecodeOfEncodeIsIdentity := fun _ => decode_encode

/-! ### Fields of an operation word (30_encoding.md R74) -/

/-- The bits that a field of `n` bits at bit `lo` occupies. -/
def fieldMask (lo n : Nat) : Word := field lo (BitVec.allOnes n)

/-- Taking a field out of a word and placing it again keeps the bits of the field and clears the others. -/
theorem field_extractLsb' (lo n : Nat) (w : Word) : field lo (w.extractLsb' lo n) = w &&& fieldMask lo n := by
  ext i hi
  by_cases h : i < lo
  · simp [field, fieldMask, h]
  · have hbit : lo + (i - lo) = i := by omega
    simp [field, fieldMask, h, hbit, hi, Bool.and_comm]

/-- The opcode field placed again is the top four bits of the word. -/
theorem field_opcode {w : Word} {op : BitVec 4} (h : opcodeOf w = op) : field 28 op = w &&& fieldMask 28 4 := by
  rw [← h]; exact field_extractLsb' 28 4 w

/-- A word whose unnamed bits are zero is made of its named bits. -/
theorem and_not_of_clear {w unnamed : Word} (h : w &&& unnamed = 0#32) : w &&& ~~~unnamed = w :=
  calc w &&& ~~~unnamed
    _ = (w &&& ~~~unnamed) ||| (w &&& unnamed) := by rw [h, BitVec.or_zero]
    _ = w &&& (~~~unnamed ||| unnamed) := BitVec.and_or_distrib_left.symm
    _ = w := by rw [BitVec.or_comm, BitVec.or_not_self, BitVec.and_allOnes]

/-! ### The opcode map (30_encoding.md R75) -/

/-- The 12 operations: the opcode, and the bits that the operation's format leaves unnamed. -/
def operationFormats : List (BitVec 4 × Word) :=
  [(0x1, 0x000FFFFF), (0x2, 0x000F0000), (0x3, 0x0F0000FF), (0x4, 0x0F0000FF), (0x5, 0x0F000000), (0x6, 0x0FFFFF00),
   (0x7, 0x0FFFFF00), (0x8, 0x0FFFFF00), (0x9, 0x0FFFFFFF), (0xA, 0x0FFFFFFF), (0xB, 0x0FFFFFFF), (0xC, 0x0FFFFFFF)]

/-- One of the four reserved opcodes, with its other bits. -/
inductive IsReserved : Instr → Prop where
  | reserved0 (rest : BitVec 28) : IsReserved (.reserved0 rest)
  | reservedD (rest : BitVec 28) : IsReserved (.reservedD rest)
  | reservedE (rest : BitVec 28) : IsReserved (.reservedE rest)
  | reservedF (rest : BitVec 28) : IsReserved (.reservedF rest)

/-- What the decoder makes of `w`: an operation whose unnamed bits have to be zero, and whose encoding has the named
bits of `w`, or a reserved instruction, whose encoding has all of them. -/
inductive WordReads (w : Word) : Prop where
  | operation {i : Instr} {op : BitVec 4} (unnamed : Word) (opcode : opcodeOf w = op)
      (format : (op, unnamed) ∈ operationFormats) (isOp : isOperation i = true)
      (decodes : decodeWord w = whenClear w unnamed i) (encodes : encode i = .word (w &&& ~~~unnamed))
  | reserved {i : Instr} {op : BitVec 4} (opcode : opcodeOf w = op)
      (free : op ∉ operationFormats.map Prod.fst) (isReserved : IsReserved i)
      (decodes : decodeWord w = .ok i) (encodes : encode i = .word w)

/-- A word of a format with one field, rebuilt from its opcode and that field. -/
theorem field_or_field {w : Word} {op : BitVec 4} (h : opcodeOf w = op) (lo n : Nat) :
    field 28 op ||| field lo (w.extractLsb' lo n) = w &&& (fieldMask 28 4 ||| fieldMask lo n) := by
  rw [field_opcode h, field_extractLsb', ← BitVec.and_or_distrib_left]

/-- A word of a format with two fields, rebuilt from its opcode and those fields. -/
theorem field_or_field_or_field {w : Word} {op : BitVec 4} (h : opcodeOf w = op) (lo n lo' n' : Nat) :
    field 28 op ||| field lo (w.extractLsb' lo n) ||| field lo' (w.extractLsb' lo' n') =
      w &&& (fieldMask 28 4 ||| fieldMask lo n ||| fieldMask lo' n') := by
  rw [field_or_field h, field_extractLsb', ← BitVec.and_or_distrib_left]

theorem field_or_rest {w : Word} {op : BitVec 4} (h : opcodeOf w = op) :
    field 28 op ||| field 0 (w.extractLsb' 0 28) = w := by
  rw [field_or_field h, show fieldMask 28 4 ||| fieldMask 0 28 = BitVec.allOnes 32 by decide, BitVec.and_allOnes]

theorem opcode_cases : ∀ op : BitVec 4,
    op = 0x0 ∨ op = 0x1 ∨ op = 0x2 ∨ op = 0x3 ∨ op = 0x4 ∨ op = 0x5 ∨ op = 0x6 ∨ op = 0x7 ∨ op = 0x8 ∨ op = 0x9 ∨
    op = 0xA ∨ op = 0xB ∨ op = 0xC ∨ op = 0xD ∨ op = 0xE ∨ op = 0xF := by decide

/-- The opcode map, opcode by opcode. -/
theorem wordReads (w : Word) : WordReads w := by
  obtain h | h | h | h | h | h | h | h | h | h | h | h | h | h | h | h := opcode_cases (opcodeOf w)
  · exact .reserved h (by decide) (.reserved0 _) (by rw [decodeWord, h]; rfl) (congrArg _ (field_or_rest h))
  · exact .operation 0x000FFFFF h (by decide) rfl (by rw [decodeWord, h]; rfl) (congrArg _ (field_or_field h 20 8))
  · exact .operation 0x000F0000 h (by decide) rfl (by rw [decodeWord, h]; rfl)
      (congrArg _ (field_or_field_or_field h 20 8 0 16))
  · exact .operation 0x0F0000FF h (by decide) rfl (by rw [decodeWord, h]; rfl) (congrArg _ (field_or_field h 8 16))
  · exact .operation 0x0F0000FF h (by decide) rfl (by rw [decodeWord, h]; rfl) (congrArg _ (field_or_field h 8 16))
  · exact .operation 0x0F000000 h (by decide) rfl (by rw [decodeWord, h]; rfl)
      (congrArg _ (field_or_field_or_field h 8 16 0 8))
  · exact .operation 0x0FFFFF00 h (by decide) rfl (by rw [decodeWord, h]; rfl) (congrArg _ (field_or_field h 0 8))
  · exact .operation 0x0FFFFF00 h (by decide) rfl (by rw [decodeWord, h]; rfl) (congrArg _ (field_or_field h 0 8))
  · exact .operation 0x0FFFFF00 h (by decide) rfl (by rw [decodeWord, h]; rfl) (congrArg _ (field_or_field h 0 8))
  · exact .operation 0x0FFFFFFF h (by decide) rfl (by rw [decodeWord, h]; rfl) (congrArg _ (field_opcode h))
  · exact .operation 0x0FFFFFFF h (by decide) rfl (by rw [decodeWord, h]; rfl) (congrArg _ (field_opcode h))
  · exact .operation 0x0FFFFFFF h (by decide) rfl (by rw [decodeWord, h]; rfl) (congrArg _ (field_opcode h))
  · exact .operation 0x0FFFFFFF h (by decide) rfl (by rw [decodeWord, h]; rfl) (congrArg _ (field_opcode h))
  · exact .reserved h (by decide) (.reservedD _) (by rw [decodeWord, h]; rfl) (congrArg _ (field_or_rest h))
  · exact .reserved h (by decide) (.reservedE _) (by rw [decodeWord, h]; rfl) (congrArg _ (field_or_rest h))
  · exact .reserved h (by decide) (.reservedF _) (by rw [decodeWord, h]; rfl) (congrArg _ (field_or_rest h))

/-! ### Words and frames that the decoder accepts (30_encoding.md R63 to R70) -/

theorem wf_of_isOperation {i : Instr} (h : isOperation i = true) : i.wf = true := by
  cases i with
  | frameV1 _ _ _ _ | frameV1Jumbo _ _ _ _ | frameV2Native _ _ _ _ _ | frameV2OverV1 _ _ _ _ _ _ _
  | frameV2OverV1Jumbo _ _ _ _ _ _ _ => cases h
  | _ => rfl

theorem IsReserved.wf {i : Instr} (h : IsReserved i) : i.wf = true := by cases h <;> rfl

/-- `i` is well-formed and is presented as `e`. -/
structure IsReading (e : Encoding) (i : Instr) : Prop where
  wf      : i.wf = true
  encodes : encode i = e

theorem isReading_of_decodeWord {w : Word} {i : Instr} (h : decodeWord w = .ok i) : IsReading (.word w) i := by
  cases wordReads w with
  | operation unnamed _ _ isOp decodes encodes =>
    obtain ⟨hclear, rfl⟩ := whenClear_eq_ok_iff.1 (decodes.symm.trans h)
    exact ⟨wf_of_isOperation isOp, encodes.trans (by rw [and_not_of_clear hclear])⟩
  | reserved _ _ isReserved decodes encodes =>
    cases decodes.symm.trans h
    exact ⟨isReserved.wf, encodes⟩

/-- A frame's tail that is longer than the announced payload begins with a payload of the announced length. -/
theorem eq_append_of_drop {len : Nat} {rest trailer : List Byte} (h : rest.drop len = trailer) (hne : trailer ≠ []) :
    rest = rest.take len ++ trailer ∧ (rest.take len).length = len := by
  have hlt : len < rest.length := by
    by_contra hge
    exact hne (h ▸ List.drop_eq_nil_of_le (Nat.le_of_not_lt hge))
  exact ⟨h ▸ (List.take_append_drop len rest).symm, List.length_take_of_le hlt.le⟩

theorem exists_of_decodeTail1 {len : Nat} {rest : List Byte} {mk : List Byte → Byte → Instr} {i : Instr}
    (h : decodeTail1 len rest mk = .ok i) : ∃ p x, rest = p ++ [x] ∧ p.length = len ∧ i = mk p x := by
  unfold decodeTail1 at h
  split at h
  · next x hx =>
    cases h
    obtain ⟨hrest, hlen⟩ := eq_append_of_drop hx (List.cons_ne_nil _ _)
    exact ⟨_, x, hrest, hlen, rfl⟩
  · cases h

theorem exists_of_decodeTail2 {len : Nat} {rest : List Byte} {mk : List Byte → Byte → Byte → Instr} {i : Instr}
    (h : decodeTail2 len rest mk = .ok i) : ∃ p k x, rest = p ++ [k, x] ∧ p.length = len ∧ i = mk p k x := by
  unfold decodeTail2 at h
  split at h
  · next k x hx =>
    cases h
    obtain ⟨hrest, hlen⟩ := eq_append_of_drop hx (List.cons_ne_nil _ _)
    exact ⟨_, k, x, hrest, hlen, rfl⟩
  · cases h

/-- A length field is the length it announces. -/
theorem ofNat_length_eq {n : Nat} {len : BitVec n} {p : List Byte} (h : p.length = len.toNat) :
    BitVec.ofNat n p.length = len := by simp [h]

theorem toNat_half_le (v : Half) : v.toNat ≤ 65535 := Nat.le_of_lt_succ v.isLt

theorem toNat_byte_le_of_ne_sentinel {b : Byte} (h : b ≠ sentinel) : b.toNat ≤ 254 := by
  have hlt : b.toNat < 256 := b.isLt
  have hne : b.toNat ≠ 255 := fun e => h (BitVec.eq_of_toNat_eq e)
  omega

section
variable {dir : Direction} {rest : List Byte} {i : Instr}

theorem isReading_of_decodeNative (h : decodeNative dir rest = .ok i) :
    IsReading (.wire (chDollar :: chX :: dirByte dir :: rest)) i := by
  unfold decodeNative at h
  split at h
  · next flags c0 c1 l0 l1 rest =>
    obtain ⟨p, x, rfl, hlen, rfl⟩ := exists_of_decodeTail1 h
    have hle : p.length ≤ 65535 := hlen ▸ toNat_half_le _
    exact ⟨by simp [Instr.wf, hle], by simp [encode, frameV2NativeBytes, v2Header, ofNat_length_eq hlen]⟩
  · cases h

theorem isReading_of_decodeV2OverV1 {v1Size : Byte} (hsize : v1Size ≠ sentinel)
    (h : decodeV2OverV1 dir v1Size rest = .ok i) :
    IsReading (.wire (chDollar :: chM :: dirByte dir :: v1Size :: sentinel :: rest)) i := by
  unfold decodeV2OverV1 at h
  split at h
  · next flags c0 c1 l0 l1 rest =>
    split at h
    · cases h
    next h6 =>
    obtain ⟨p, k, x, rfl, hlen, rfl⟩ := exists_of_decodeTail2 h
    have hle : p.length ≤ 65535 := hlen ▸ toNat_half_le _
    have hmin : 6 ≤ v1Size.toNat := Nat.le_of_not_lt h6
    have hmax : v1Size.toNat ≤ 254 := toNat_byte_le_of_ne_sentinel hsize
    exact ⟨by simp [Instr.wf, hle, hmin, hmax], by simp [encode, frameV2OverV1Bytes, v2Header, ofNat_length_eq hlen]⟩
  · cases h

theorem isReading_of_decodeV2OverV1Jumbo {j0 j1 : Byte} (h : decodeV2OverV1Jumbo dir (u16le j0 j1) rest = .ok i) :
    IsReading (.wire (chDollar :: chM :: dirByte dir :: sentinel :: sentinel :: j0 :: j1 :: rest)) i := by
  unfold decodeV2OverV1Jumbo at h
  split at h
  · next flags c0 c1 l0 l1 rest =>
    split at h
    · cases h
    next h255 =>
    obtain ⟨p, k, x, rfl, hlen, rfl⟩ := exists_of_decodeTail2 h
    have hle : p.length ≤ 65535 := hlen ▸ toNat_half_le _
    have hmin : 255 ≤ (u16le j0 j1).toNat := Nat.le_of_not_lt h255
    exact ⟨by simp [Instr.wf, hle, hmin], by simp [encode, frameV2OverV1JumboBytes, v2Header, ofNat_length_eq hlen]⟩
  · cases h

theorem isReading_of_decodeJumbo {cmd : Byte} (h : decodeJumbo dir cmd rest = .ok i) :
    IsReading (.wire (chDollar :: chM :: dirByte dir :: sentinel :: cmd :: rest)) i := by
  unfold decodeJumbo at h
  split at h
  · next j0 j1 rest =>
    split at h
    · next hcmd => subst hcmd; exact isReading_of_decodeV2OverV1Jumbo h
    next hcmd =>
    split at h
    · cases h
    next h255 =>
    obtain ⟨p, x, rfl, hlen, rfl⟩ := exists_of_decodeTail1 h
    have hle : p.length ≤ 65535 := hlen ▸ toNat_half_le _
    have hmin : 255 ≤ p.length := hlen ▸ Nat.le_of_not_lt h255
    have hcmd' : cmd ≠ 255#8 := hcmd
    exact ⟨by simp [Instr.wf, hle, hmin, hcmd'], by simp [encode, frameV1JumboBytes, ofNat_length_eq hlen]⟩
  · cases h

theorem isReading_of_decodeM (h : decodeM dir rest = .ok i) :
    IsReading (.wire (chDollar :: chM :: dirByte dir :: rest)) i := by
  unfold decodeM at h
  split at h
  · next size cmd rest =>
    split at h
    · next hsize => subst hsize; exact isReading_of_decodeJumbo h
    next hsize =>
    split at h
    · next hcmd => subst hcmd; exact isReading_of_decodeV2OverV1 hsize h
    next hcmd =>
    obtain ⟨p, x, rfl, hlen, rfl⟩ := exists_of_decodeTail1 h
    have hle : p.length ≤ 254 := hlen ▸ toNat_byte_le_of_ne_sentinel hsize
    have hcmd' : cmd ≠ 255#8 := hcmd
    exact ⟨by simp [Instr.wf, hle, hcmd'], by simp [encode, frameV1Bytes, ofNat_length_eq hlen]⟩
  · cases h

end

theorem isReading_of_decodeWire {bytes : List Byte} {i : Instr} (h : decodeWire bytes = .ok i) :
    IsReading (.wire bytes) i := by
  unfold decodeWire at h
  split at h
  · next start magic d rest =>
    split at h
    · cases h
    next hstart =>
    split at h
    · cases h
    next hmagic =>
    obtain rfl : start = chDollar := by simpa using hstart
    split at h
    · cases h
    next dir hdir =>
    obtain rfl := dirOfByte_eq_some_iff.1 hdir
    split at h
    · next hX => subst hX; exact isReading_of_decodeNative h
    · next hX =>
      obtain rfl : magic = chM := by simpa [hX] using hmagic
      exact isReading_of_decodeM h
  · cases h

/-- Settles O2: what is read is presented by all bits of the word, or by all bytes of the frame in every layout. -/
theorem encodeOfDecodeIsIdentity : Obligations.EncodeOfDecodeIsIdentity := by
  intro e i h
  have hread : IsReading e i := by
    cases e with
    | word w => exact isReading_of_decodeWord h
    | wire bytes => exact isReading_of_decodeWire h
  exact ⟨hread.wf, hread.encodes⟩

/-! ### Illegal words (30_encoding.md R76) -/

/-- The opcode of a word built from an opcode and the 28 bits below it. -/
theorem opcodeOf_field_or_rest (op : BitVec 4) (rest : BitVec 28) : opcodeOf (field 28 op ||| field 0 rest) = op := by
  refine BitVec.eq_of_getLsbD_eq fun i hi => ?_
  have hword : 28 + i < 32 := by omega
  simp [opcodeOf, field, hi, hword]

/-- The 28 bits below the opcode of such a word. -/
theorem extractLsb'_field_or_rest (op : BitVec 4) (rest : BitVec 28) :
    (field 28 op ||| field 0 rest).extractLsb' 0 28 = rest := by
  refine BitVec.eq_of_getLsbD_eq fun i hi => ?_
  have hword : i < 32 := by omega
  simp [field, hi, hword]

theorem opcodeOf_field (op : BitVec 4) : opcodeOf (field 28 op) = op := by
  simpa [field] using opcodeOf_field_or_rest op 0

/-- The opcode and the unnamed bits of a format lie apart. -/
theorem field_and_unnamed : ∀ p ∈ operationFormats, field 28 p.1 &&& p.2 = 0 := by
  simp [operationFormats, field]

/-- No opcode has two formats. -/
theorem operationFormats_nodup : (operationFormats.map Prod.fst).Nodup := by decide

/-- The rows of the opcode table test the opcode and the unnamed bits. -/
theorem operationRows_eq : operationRows = operationFormats.map fun p => (fieldMask 28 4 ||| p.2, field 28 p.1) := by
  decide

theorem and_or_and_self (w a b : Word) : w &&& (a ||| b) &&& a = w &&& a := by
  ext i hi
  cases h : a[i] <;> simp [h]

theorem and_mask_eq_iff (w : Word) {p : BitVec 4 × Word} (hp : p ∈ operationFormats) :
    w &&& (fieldMask 28 4 ||| p.2) = field 28 p.1 ↔ opcodeOf w = p.1 ∧ w &&& p.2 = 0 := by
  constructor
  · intro h
    have hop : field 28 (opcodeOf w) = field 28 p.1 :=
      calc field 28 (opcodeOf w)
        _ = w &&& fieldMask 28 4 := field_opcode rfl
        _ = w &&& (fieldMask 28 4 ||| p.2) &&& fieldMask 28 4 := (and_or_and_self ..).symm
        _ = field 28 p.1 &&& fieldMask 28 4 := by rw [h]
        _ = field 28 p.1 := by rw [field_opcode (opcodeOf_field p.1), BitVec.and_assoc]; rfl
    have hclear : w &&& p.2 = 0 :=
      calc w &&& p.2
        _ = w &&& (fieldMask 28 4 ||| p.2) &&& p.2 := by rw [BitVec.or_comm, and_or_and_self]
        _ = field 28 p.1 &&& p.2 := by rw [h]
        _ = 0 := field_and_unnamed p hp
    exact ⟨by simpa only [opcodeOf_field] using congrArg opcodeOf hop, hclear⟩
  · rintro ⟨hop, hclear⟩
    rw [BitVec.and_or_distrib_left, hclear, field_opcode hop, BitVec.ofNat_eq_ofNat, BitVec.or_zero]

/-- A word matches a row exactly when its opcode is an operation's and the unnamed bits of the format are zero. -/
theorem matches_row_iff (w : Word) :
    (∃ row ∈ operationRows, w &&& row.1 = row.2) ↔ ∃ p ∈ operationFormats, opcodeOf w = p.1 ∧ w &&& p.2 = 0 := by
  rw [operationRows_eq]
  simp only [List.mem_map, exists_exists_and_eq_and]
  exact exists_congr fun p => and_congr_right (and_mask_eq_iff w)

/-- A word that matches a row decodes to an operation. -/
theorem exists_operation_of_matches {w : Word} (h : ∃ row ∈ operationRows, w &&& row.1 = row.2) :
    ∃ i, isOperation i = true ∧ decodeWord w = .ok i := by
  obtain ⟨p, hp, hop, hclear⟩ := (matches_row_iff w).1 h
  cases wordReads w with
  | operation unnamed opcode format isOp decodes _ =>
    cases List.inj_on_of_nodup_map operationFormats_nodup hp format (hop.symm.trans opcode)
    exact ⟨_, isOp, decodes.trans (whenClear_of_clear _ hclear)⟩
  | reserved opcode free _ _ _ => exact absurd (List.mem_map_of_mem (f := Prod.fst) hp) (hop.symm.trans opcode ▸ free)

/-- A reserved instruction is refused as an illegal word. -/
theorem exec_of_isReserved {i : Instr} (h : IsReserved i) (s : State) : exec i s = illegalWord s := by
  cases h <;> rfl

/-- A word that matches no row has a stray bit or a reserved opcode; either way it runs as an illegal word. -/
theorem runEncoding_word_of_no_match {w : Word} (h : ∀ row ∈ operationRows, w &&& row.1 ≠ row.2) (s : State) :
    runEncoding (.word w) s = illegalWord s := by
  cases wordReads w with
  | operation unnamed opcode format _ decodes _ =>
    have hstray : w &&& unnamed ≠ 0 := fun hclear =>
      let ⟨row, hrow, hw⟩ := (matches_row_iff w).2 ⟨_, format, opcode, hclear⟩
      h row hrow hw
    have hdecode : decode (.word w) = .error .strayBits := decodes.trans (whenClear_of_stray _ hstray)
    simp [runEncoding, hdecode, runUndecoded]
  | reserved _ _ isReserved decodes _ =>
    rw [runEncoding_of_decode (e := .word w) decodes, exec_of_isReserved isReserved]

/-- Settles O3: no row is matched by a stray bit or a reserved opcode, one row by an operation. -/
theorem illegalWordsAreRefused : Obligations.IllegalWordsAreRefused := by
  intro s w rest hp
  have hstep : step s = runEncoding (.word w) (s.setPending rest) := step_of_pending_cons hp
  refine ⟨fun h => ⟨hstep.trans (runEncoding_word_of_no_match h _), rfl, rfl⟩, fun h => ?_⟩
  obtain ⟨i, hi, hd⟩ := exists_operation_of_matches h
  exact ⟨i, hi, hd, hstep.trans (runEncoding_of_decode (e := .word w) hd _)⟩

/-- Settles O4: the four arms are one refusal, and a reserved word is its opcode above its rest. -/
theorem reservedOpcodesAreRefused : Obligations.ReservedOpcodesAreRefused := by
  intro s rest
  have hencode (op : BitVec 4) : ∃ w, Encoding.word (field 28 op ||| field 0 rest) = .word w ∧
      w.extractLsb' 28 4 = op ∧ w.extractLsb' 0 28 = rest :=
    ⟨_, rfl, opcodeOf_field_or_rest op rest, extractLsb'_field_or_rest op rest⟩
  simp only [List.forall_mem_cons]
  exact ⟨⟨rfl, rfl, rfl, rfl, nofun⟩, hencode 0x0, hencode 0xD, hencode 0xE, hencode 0xF, nofun⟩

/-- Settles O5: closed words, which the decoder evaluates. -/
theorem sampleWordsDecodeAsListed : Obligations.SampleWordsDecodeAsListed := by
  unfold Obligations.SampleWordsDecodeAsListed
  decide

/-! ### Frames that the encoder makes (42_encoder.md R151 to R155) -/

section
variable (dir : Direction) (cmd : Half) (flags : Byte) {p : List Byte}

/-- The plain V1 frame (42_encoder.md R153). -/
theorem exists_frameV1Of_eq (hlen : p.length ≤ 254) :
    ∃ x, frameV1Of (dirByte dir) cmd p = frameV1Bytes dir (lo8 cmd) p x := by
  have hplain : p.length < 255 := by omega
  exact ⟨_, by rw [frameV1Of, if_pos hplain]; rfl⟩

/-- The V1 jumbo frame (42_encoder.md R153). -/
theorem exists_frameV1Of_eq_jumbo (hlen : 255 ≤ p.length) :
    ∃ x, frameV1Of (dirByte dir) cmd p = frameV1JumboBytes dir (lo8 cmd) p x := by
  have hjumbo : ¬ p.length < 255 := by omega
  exact ⟨_, by rw [frameV1Of, if_neg hjumbo]; rfl⟩

/-- The plain V2-over-V1 frame (42_encoder.md R154). -/
theorem exists_frameV2OverV1Of_eq (hlen : p.length ≤ 248) : ∃ k x, frameV2OverV1Of (dirByte dir) cmd flags p =
    frameV2OverV1Bytes dir (BitVec.ofNat 8 (6 + p.length)) flags cmd p k x := by
  have hplain : 6 + p.length < 255 := by omega
  exact ⟨_, _, by rw [frameV2OverV1Of, if_pos hplain]; rfl⟩

/-- The V2-over-V1 jumbo frame (42_encoder.md R154). -/
theorem exists_frameV2OverV1Of_eq_jumbo (hlen : 249 ≤ p.length) : ∃ k x, frameV2OverV1Of (dirByte dir) cmd flags p =
    frameV2OverV1JumboBytes dir (BitVec.ofNat 16 (6 + p.length)) flags cmd p k x := by
  have hjumbo : ¬ 6 + p.length < 255 := by omega
  exact ⟨_, _, by rw [frameV2OverV1Of, if_neg hjumbo]; rfl⟩

end

/-- The direction byte of a reply that sends something (42_encoder.md R151). -/
theorem replyDirection_eq_dirByte {result : ReplyResult} {dir : Direction}
    (h : (result = .ack ∧ dir = .replySuccess) ∨ (result = .error ∧ dir = .replyError)) :
    replyDirection result = some (dirByte dir) := by
  obtain ⟨rfl, rfl⟩ | ⟨rfl, rfl⟩ := h <;> rfl

/-- Settles O52: each frame is the presentation of the row of its layout, which is well-formed and so is read back. -/
theorem sentFramesDecodeToTheirLayout : Obligations.SentFramesDecodeToTheirLayout := by
  intro cmd flags p result dir hmax hresult
  have hdir := replyDirection_eq_dirByte hresult
  simp only [frame, hdir]
  refine ⟨fun hlen hcmd => ?_, fun hlen hcmd => ?_, fun hlen => ?_, fun hlen => ?_, ?_⟩
  · obtain ⟨x, hx⟩ := exists_frameV1Of_eq dir cmd hlen
    have hwf : (Instr.frameV1 dir (lo8 cmd) p x).wf = true := by simpa [Instr.wf, hlen] using hcmd
    exact ⟨x, hx ▸ decode_encode hwf⟩
  · obtain ⟨x, hx⟩ := exists_frameV1Of_eq_jumbo dir cmd hlen
    have hle : p.length ≤ 65535 := by omega
    have hwf : (Instr.frameV1Jumbo dir (lo8 cmd) p x).wf = true := by simpa [Instr.wf, hlen, hle] using hcmd
    exact ⟨x, hx ▸ decode_encode hwf⟩
  · obtain ⟨k, x, hkx⟩ := exists_frameV2OverV1Of_eq dir cmd flags hlen
    have hsize : (BitVec.ofNat 8 (6 + p.length)).toNat = 6 + p.length := toNat_ofNat_byte (by omega)
    have hwf : (Instr.frameV2OverV1 dir (BitVec.ofNat 8 (6 + p.length)) flags cmd p k x).wf = true := by
      simp only [Instr.wf, hsize, Bool.and_eq_true, decide_eq_true_eq]
      omega
    exact ⟨k, x, hkx ▸ decode_encode hwf⟩
  · obtain ⟨k, x, hkx⟩ := exists_frameV2OverV1Of_eq_jumbo dir cmd flags hlen
    have hsize : (BitVec.ofNat 16 (6 + p.length)).toNat = 6 + p.length := toNat_ofNat_half (by omega)
    have hwf : (Instr.frameV2OverV1Jumbo dir (BitVec.ofNat 16 (6 + p.length)) flags cmd p k x).wf = true := by
      simp only [Instr.wf, hsize, Bool.and_eq_true, decide_eq_true_eq]
      omega
    exact ⟨k, x, hkx ▸ decode_encode hwf⟩
  · have hwf (k : Byte) : (Instr.frameV2Native dir flags cmd p k).wf = true := decide_eq_true (by omega)
    exact ⟨_, decode_encode (hwf (crc8DvbUpdate 0 (v2Header flags cmd (BitVec.ofNat 16 p.length) ++ p)))⟩

/-! ### The running checksums (30_encoding.md R71) -/

/-- The invariant of reachable states and the checksum invariant of the deframer together. -/
structure State.Sound (s : State) : Prop where
  inv     : s.Inv
  checked : s.rx.Checked s.cfg.inCap

/-- A move that keeps the checksum invariant leaves a deframer that meets it: an abort ends in `Idle`. -/
theorem MoveChk.result {cap : Nat} {m : RxMove} {d : Deframer} (h : MoveChk cap m) (hd : m.result = some d) :
    d.Checked cap := by
  cases m with
  | go d => cases hd; exact h
  | abort _ d => cases hd; exact trivial
  | overrun _ => cases hd

/-- In `Idle` the checksum invariant asks for nothing. -/
theorem checked_setIdle (cap : Nat) (d : Deframer) : Deframer.Checked cap { d with state := .idle } := trivial

theorem presentByte_keeps_sound {b : Byte} {s t : State} (hs : s.Sound) (h : presentByte b s = .next t) : t.Sound := by
  refine ⟨(presentByte_advances h).inv hs.inv, ?_⟩
  obtain ⟨-, rfl⟩ | ⟨m, d, hm, hd, rfl⟩ := presentByte_next_iff.1 h
  · exact hs.checked
  · exact (rxRule_checked hs.inv.cfg.1 hs.inv.rx hs.checked hm).result hd

theorem presentBytes_keeps_sound {bs : List Byte} {s t : State} (hs : s.Sound) (h : presentBytes bs s = .next t) :
    t.Sound := by
  induction bs generalizing s with
  | nil => cases h; exact hs
  | cons b bs ih =>
    obtain ⟨v, hv, ht⟩ := andThen_next_iff.1 h
    exact ih (presentByte_keeps_sound hs hv) ht

theorem execRxack_keeps_sound {s t : State} (hs : s.Sound) (h : execRxack s = .next t) : t.Sound := by
  refine ⟨(execRxack_advances h).inv hs.inv, ?_⟩
  unfold execRxack at h
  split at h
  · cases h; exact checked_setIdle ..
  · cases h; exact hs.checked

/-- No register of the deframer is writable (10_state.md R32). -/
theorem unitOf_wr_ne_deframer (reg : BitVec 8) (val : Half) : unitOf (.wr reg val) ≠ some .deframer := by
  simp only [unitOf]
  split
  · nofun
  · split <;> nofun

/-- An instruction of another unit leaves the deframer alone; those of the deframer are received bytes, `RXACK` and
`RXRST`, and `IBR`, which only reads. -/
theorem exec_keeps_sound {i : Instr} {s t : State} (hs : s.Sound) (h : exec i s = .next t) : t.Sound := by
  by_cases hu : unitOf i = some .deframer
  · cases i with
    | ibr _ => obtain ⟨_, rfl⟩ := execIbr_answers h; exact ⟨(exec_advances h).inv hs.inv, hs.checked⟩
    | rxb _ => exact presentByte_keeps_sound hs h
    | rxack => exact execRxack_keeps_sound hs h
    | rxrst => refine ⟨(exec_advances h).inv hs.inv, ?_⟩; cases h; exact checked_setIdle ..
    | frameV1 _ _ _ _ | frameV1Jumbo _ _ _ _ | frameV2Native _ _ _ _ _ | frameV2OverV1 _ _ _ _ _ _ _
    | frameV2OverV1Jumbo _ _ _ _ _ _ _ => exact presentBytes_keeps_sound hs h
    | wr reg val => exact absurd hu (unitOf_wr_ne_deframer reg val)
    | _ => cases hu
  · have ht := exec_touchesOnly h
    exact ⟨(exec_advances h).inv hs.inv, by rw [ht.rx hu, ht.cfg]; exact hs.checked⟩

/-- Settles O14: `Sound` is kept by every instruction and by the block reset, which leaves the deframer in `Idle`. -/
theorem stepKeepsTheRunningChecksums : Obligations.StepKeepsTheRunningChecksums := by
  intro s t hinv hchecked h
  have hkeeps : s.Sound → t.Sound :=
    step_induction (R := fun s t => s.Sound → t.Sound) (fun _ => id) (fun h k => k ∘ h)
      (fun h hs => exec_keeps_sound hs h) (fun s p hs => ⟨(advances_setPending s p).inv hs.inv, hs.checked⟩)
      (fun s hs => ⟨(advances_blockReset s).inv hs.inv, trivial⟩) h
  exact (hkeeps ⟨hinv, hchecked⟩).checked

/-! ### Folds (30_encoding.md R79) -/

/-- The checksum unit after `XORB` (40_checksum.md R96). -/
def ChecksumUnit.xorStep (c : ChecksumUnit) (b : Byte) : ChecksumUnit := { c with xor := c.xor ^^^ b }

/-- The checksum unit after `CRCB` (40_checksum.md R97). -/
def ChecksumUnit.crcStep (c : ChecksumUnit) (b : Byte) : ChecksumUnit := { c with crc := crc8Dvb c.crc b }

theorem exec_xorb (b : Byte) (s : State) :
    exec (.xorb b) s = .next ((s.setCk (s.ck.xorStep b)).answer (.ok ((s.ck.xorStep b).xor.setWidth 32))) := rfl

theorem exec_crcb (b : Byte) (s : State) :
    exec (.crcb b) s = .next ((s.setCk (s.ck.crcStep b)).answer (.ok ((s.ck.crcStep b).crc.setWidth 32))) := rfl

theorem foldl_xorStep (bytes : List Byte) (c : ChecksumUnit) :
    bytes.foldl ChecksumUnit.xorStep c = { c with xor := xorChecksum c.xor bytes } := by
  induction bytes generalizing c with
  | nil => rfl
  | cons b bs ih => exact ih (c.xorStep b)

theorem foldl_crcStep (bytes : List Byte) (c : ChecksumUnit) :
    bytes.foldl ChecksumUnit.crcStep c = { c with crc := crc8DvbUpdate c.crc bytes } := by
  induction bytes generalizing c with
  | nil => rfl
  | cons b bs ih => exact ih (c.crcStep b)

/-- One byte after another, each applied by `f` to the checksum unit, which is all of the block that changes. -/
theorem exists_execAll_map_foldl {instr : Byte → Instr} {f : ChecksumUnit → Byte → ChecksumUnit}
    (hinstr : ∀ b s, ∃ r, exec (instr b) s = .next ((s.setCk (f s.ck b)).answer r)) (bytes : List Byte) (s : State) :
    ∃ t, execAll (bytes.map instr) s = .next t ∧ t.ck = bytes.foldl f s.ck ∧ t.rx = s.rx ∧ t.tx = s.tx := by
  induction bytes generalizing s with
  | nil => exact ⟨s, rfl, rfl, rfl, rfl⟩
  | cons b bs ih =>
    obtain ⟨r, hb⟩ := hinstr b s
    obtain ⟨t, ht, hck, hrx, htx⟩ := ih ((s.setCk (f s.ck b)).answer r)
    exact ⟨t, by rw [List.map_cons, execAll_cons, hb, andThen_next, ht], hck, hrx, htx⟩

/-- The same after an instruction that seeds the unit with `c`. -/
theorem exists_execAll_seed_foldl {seed : Instr} {instr : Byte → Instr} {f : ChecksumUnit → Byte → ChecksumUnit}
    {s : State} {c : ChecksumUnit} {r : Response} (hseed : exec seed s = .next ((s.setCk c).answer r))
    (hinstr : ∀ b s, ∃ r, exec (instr b) s = .next ((s.setCk (f s.ck b)).answer r)) (bytes : List Byte) :
    ∃ t, execAll ([seed] ++ bytes.map instr) s = .next t ∧ t.ck = bytes.foldl f c ∧ t.rx = s.rx ∧ t.tx = s.tx := by
  rw [List.singleton_append, execAll_cons, hseed, andThen_next]
  exact exists_execAll_map_foldl hinstr bytes ((s.setCk c).answer r)

/-- A byte is a legal value of an 8-bit register (43_host_access.md R181). -/
theorem byteValue_setWidth (b : Byte) : byteValue (b.setWidth 16) = some b := by
  have hle : (b.setWidth 16).toNat ≤ 255 := by
    have hlt : b.toNat < 256 := b.isLt
    rw [BitVec.toNat_setWidth]
    omega
  rw [byteValue, if_pos hle, lo8_setWidth]

theorem regReadOnly_of_regWrite {r : Reg} {val : Half} {s t : State} (h : regWrite r val s = some t) :
    regReadOnly r = false := by
  cases r with
  | ckXor | ckCrc | txVersion | txResult | txCmd | txFlags | txLen => rfl
  | _ => cases h

/-- A legal value written to a register that is not frozen (43_host_access.md R181). -/
theorem exec_wr_of_regWrite {r : Reg} {val : Half} {s t : State} (h : regWrite r val s = some t)
    (hfree : (regDescriptor r && sending s) = false) : exec (.wr (regNumber r) val) s = .next (t.answer (.ok 0)) := by
  show execWr (regNumber r) val s = _
  simp [execWr, regReadOnly_of_regWrite h, hfree, h, respond]

/-- Settles O27: the seed is written, then the bytes are folded one by one. -/
theorem foldsComputeTheChecksumFunctions : Obligations.FoldsComputeTheChecksumFunctions := by
  intro s seed bytes
  constructor
  · have hseed : exec (.wr (regNumber .ckXor) (seed.setWidth 16)) s =
        .next ((s.setCk { s.ck with xor := seed }).answer (.ok 0)) :=
      exec_wr_of_regWrite (by simp [regWrite, byteValue_setWidth]) rfl
    obtain ⟨t, ht, hck, hrx, htx⟩ := exists_execAll_seed_foldl hseed (fun b s => ⟨_, exec_xorb b s⟩) bytes
    rw [foldl_xorStep] at hck
    exact ⟨t, ht, by rw [hck], by rw [hck], hrx, htx⟩
  · have hseed : exec (.wr (regNumber .ckCrc) (seed.setWidth 16)) s =
        .next ((s.setCk { s.ck with crc := seed }).answer (.ok 0)) :=
      exec_wr_of_regWrite (by simp [regWrite, byteValue_setWidth]) rfl
    obtain ⟨t, ht, hck, hrx, htx⟩ := exists_execAll_seed_foldl hseed (fun b s => ⟨_, exec_crcb b s⟩) bytes
    rw [foldl_crcStep] at hck
    exact ⟨t, ht, by rw [hck], by rw [hck], hrx, htx⟩

/-! ### Filling the payload buffer (30_encoding.md R79) -/

/-- The payload buffer after bytes have been stored from index `k` on. -/
def storeBytes (m : Memory) (k : Nat) : List Byte → Memory
  | []      => m
  | b :: bs => storeBytes (memStore m k b) (k + 1) bs

/-- A byte below the first index is kept. -/
theorem memLookup_storeBytes_of_lt (bytes : List Byte) (m : Memory) {k a : Nat} (h : a < k) :
    memLookup (storeBytes m k bytes) a = memLookup m a := by
  induction bytes generalizing m k with
  | nil => rfl
  | cons b bs ih => rw [storeBytes, ih _ (Nat.lt_succ_of_lt h), memLookup_memStore_of_ne _ _ h.ne]

theorem memLookup_storeBytes (bytes : List Byte) (m : Memory) (k : Nat) {i : Nat} (h : i < bytes.length) :
    memLookup (storeBytes m k bytes) (k + i) = some bytes[i] := by
  induction bytes generalizing m k i with
  | nil => cases h
  | cons b bs ih =>
    cases i with
    | zero =>
      have hkeep := memLookup_storeBytes_of_lt bs (memStore m k b) (Nat.lt_succ_self k)
      exact hkeep.trans (memLookup_memStore_self m k b)
    | succ i =>
      have hi : i < bs.length := Nat.lt_of_succ_lt_succ h
      have hrest := ih (memStore m k b) (k + 1) hi
      rwa [Nat.add_right_comm] at hrest

/-- The bytes stored from index 0 on are the payload when `tx_len` is their number (10_state.md R28). -/
theorem replyPayload_storeBytes {e : Encoder} {m : Memory} {payload : List Byte}
    (hbuf : e.outBuf = storeBytes m 0 payload) (hlen : e.len.toNat = payload.length) : replyPayload e = payload := by
  refine List.ext_getElem (by rw [replyPayload_length, hlen]) fun i _ hi => ?_
  have hstored : memLookup e.outBuf i = some payload[i] := by
    simpa [hbuf] using memLookup_storeBytes payload m 0 hi
  simpa [replyPayload, outByte] using memRead_of_lookup hstored .outBuf e.draw

/-- A byte stored inside the buffer of an idle encoder (43_host_access.md R184). -/
theorem exec_plw_of_lt {addr : Half} {s : State} (data : Byte) (hbusy : s.tx.busy = false)
    (haddr : addr.toNat < s.cfg.outCap) : exec (.plw addr data) s =
      .next ((s.setTx { s.tx with outBuf := memStore s.tx.outBuf addr.toNat data }).answer (.ok 0)) := by
  have hin : ¬ s.cfg.outCap ≤ addr.toNat := Nat.not_le_of_lt haddr
  show execPlw addr data s = _
  simp [execPlw, sending, hbusy, hin, respond]

/-- `PLW k, p0`; `PLW k+1, p1`; .. on an idle encoder. -/
theorem exists_execAll_plwFrom (payload : List Byte) {k : Nat} {s : State} (hbusy : s.tx.busy = false)
    (hcap : s.cfg.outCap ≤ 65535) (hfits : k + payload.length ≤ s.cfg.outCap) :
    ∃ t, execAll (plwFrom k payload) s = .next t ∧
      t.tx = { s.tx with outBuf := storeBytes s.tx.outBuf k payload } ∧ t.ck = s.ck ∧ t.rx = s.rx ∧ t.cfg = s.cfg ∧
      t.responses = s.responses ++ List.replicate payload.length (.ok 0) := by
  induction payload generalizing k s with
  | nil => exact ⟨s, rfl, rfl, rfl, rfl, rfl, by simp⟩
  | cons p ps ih =>
    rw [List.length_cons] at hfits
    have hk : (BitVec.ofNat 16 k).toNat = k := toNat_ofNat_half (by omega)
    have hp := exec_plw_of_lt (addr := BitVec.ofNat 16 k) p hbusy (by omega)
    rw [hk] at hp
    obtain ⟨t, ht, htx, hck, hrx, hcfg, hresponses⟩ :=
      ih (k := k + 1) (s := (s.setTx { s.tx with outBuf := memStore s.tx.outBuf k p }).answer (.ok 0)) hbusy hcap
        (by simp; omega)
    refine ⟨t, by rw [plwFrom, execAll_cons, hp, andThen_next, ht], htx, hck, hrx, hcfg, ?_⟩
    simp [hresponses, List.replicate_succ]

/-- Settles O24: the bytes are stored from index 0 on, then `tx_len` is set to their number. -/
theorem plfillBuildsThePayload : Obligations.PlfillBuildsThePayload := by
  intro s payload hlegal hbusy hfits
  obtain ⟨-, -, hmax⟩ := hlegal
  have hlen : (BitVec.ofNat 16 payload.length).toNat = payload.length := toNat_ofNat_half (by omega)
  obtain ⟨t, ht, htx, hck, hrx, hcfg, hresponses⟩ :=
    exists_execAll_plwFrom payload (k := 0) hbusy (by omega) (by omega)
  have hwr : exec (.wr (regNumber .txLen) (BitVec.ofNat 16 payload.length)) t =
      .next ((t.setTx { t.tx with len := BitVec.ofNat 16 payload.length }).answer (.ok 0)) :=
    exec_wr_of_regWrite (if_pos (by rw [hlen, hcfg]; exact hfits)) (by simp [sending, htx, hbusy])
  refine ⟨_, by rw [plFill, execAll_append, ht, andThen_next, execAll_singleton, hwr], ?_⟩
  refine ⟨replyPayload_storeBytes (m := s.tx.outBuf) (by simp [htx]) hlen, hlen, ?_⟩
  simp [htx, hck, hrx, hresponses, hbusy, List.replicate_succ']

/-! ### Frames with direction `'!'` (30_encoding.md R61, R72) -/

/-- Every wire frame acts as its bytes, presented one after another. -/
theorem exec_of_encode_wire {i : Instr} {bytes : List Byte} (h : encode i = .wire bytes) (s : State) :
    exec i s = presentBytes bytes s := by
  cases i with
  | frameV1 _ _ _ _ | frameV1Jumbo _ _ _ _ | frameV2Native _ _ _ _ _ | frameV2OverV1 _ _ _ _ _ _ _
  | frameV2OverV1Jumbo _ _ _ _ _ _ _ => cases h; rfl
  | _ => cases h

/-- A byte is taken with the deframer that the state's rule leaves (41_deframer.md R110). -/
theorem exists_presentByte {b : Byte} {s : State} {m : RxMove} {d : Deframer} (hm : rxRule s.cfg.inCap b s.rx = some m)
    (hd : m.result = some d) : ∃ t, presentByte b s = .next t ∧ t.rx = d :=
  ⟨_, presentByte_next_iff.2 (.inr ⟨m, d, hm, hd, rfl⟩), rfl⟩

/-- Bytes other than `'$'` that arrive in `Idle` leave the deframer as it is (41_deframer.md R111). -/
theorem exists_presentBytes_noise {bytes : List Byte} {s : State} (hidle : s.rx.state = .idle)
    (hnoise : ∀ b ∈ bytes, b ≠ chDollar) : ∃ t, presentBytes bytes s = .next t ∧ t.rx = s.rx := by
  induction bytes generalizing s with
  | nil => exact ⟨s, rfl, rfl⟩
  | cons b bs ih =>
    obtain ⟨hb, hbs⟩ := List.forall_mem_cons.1 hnoise
    have hmove : rxIdle b s.rx = .go s.rx := by rw [rxIdle, if_neg hb, ← hidle]
    obtain ⟨u, hu, hurx⟩ := exists_presentByte ((rxRule_idle _ b hidle).trans (congrArg some hmove)) rfl
    obtain ⟨t, ht, htrx⟩ := ih (s := u) (by rw [hurx, hidle]) hbs
    exact ⟨t, by rw [presentBytes_cons, hu, andThen_next, ht], htrx.trans hurx⟩

/-- The version and the header state of a magic byte (41_deframer.md R112). -/
theorem rxHeaderStart_of_magic {magic : Byte} (h : magic = chM ∨ magic = chX) (d : Deframer) :
    ∃ next, (next = .headerM ∨ next = .headerX) ∧ rxHeaderStart magic d =
      .go { d with version := if magic = chM then .v1 else .v2Native, state := next } := by
  obtain rfl | rfl := h
  · exact ⟨.headerM, .inl rfl, rfl⟩
  · exact ⟨.headerX, .inr rfl, rfl⟩

/-- A direction state aborts on a byte that is neither `'<'` nor `'>'` (41_deframer.md R113, R114). -/
theorem rxRule_badDirection {d : Deframer} {b : Byte} (cap : Nat) (hst : d.state = .headerM ∨ d.state = .headerX)
    (hb : ¬ (b = chLess ∨ b = chGreater)) : rxRule cap b d = some (.abort .badDirection d) := by
  obtain hst | hst := hst
  · rw [rxRule_headerM _ _ hst, rxHeaderM, rxDirection, if_neg hb]
  · rw [rxRule_headerX _ _ hst, rxHeaderX, rxDirection, if_neg hb]

/-- The head of a frame with direction `'!'`, in `Idle`: the frame is aborted, with its version kept. -/
theorem exists_presentBytes_errorHead {magic : Byte} {s : State} (hidle : s.rx.state = .idle)
    (hmagic : magic = chM ∨ magic = chX) : ∃ t, presentBytes [chDollar, magic, chBang] s = .next t ∧
      t.rx = { s.rx with version := if magic = chM then .v1 else .v2Native } := by
  have hmove : rxIdle chDollar s.rx = .go { s.rx with state := .headerStart } := if_pos rfl
  obtain ⟨u, hu, hurx⟩ := exists_presentByte ((rxRule_idle _ chDollar hidle).trans (congrArg some hmove)) rfl
  obtain ⟨next, hnext, hstart⟩ := rxHeaderStart_of_magic hmagic u.rx
  obtain ⟨v, hv, hvrx⟩ := exists_presentByte
    ((rxRule_headerStart _ magic (by rw [hurx])).trans (congrArg some hstart)) rfl
  obtain ⟨t, ht, htrx⟩ := exists_presentByte
    (rxRule_badDirection (b := chBang) _ (by rw [hvrx]; exact hnext) (by decide)) rfl
  refine ⟨t, by simp only [presentBytes_cons, presentBytes_nil, hu, hv, ht, andThen_next], ?_⟩
  rw [htrx, hvrx, hurx]
  show ({ s.rx with version := _, state := .idle } : Deframer) = _
  rw [← hidle]

/-- Settles O49: the frame is aborted at its direction byte and the rest is noise in `Idle`. -/
theorem errorDirectionIsNotReceived : Obligations.ErrorDirectionIsNotReceived := by
  intro s i magic rest hidle hbytes hmagic hnoise
  obtain ⟨u, hu, hurx⟩ := exists_presentBytes_errorHead hidle hmagic
  obtain ⟨t, ht, htrx⟩ := exists_presentBytes_noise (s := u) (by rw [hurx]; exact hidle) hnoise
  have hexec : exec i s = .next t := by
    rw [exec_of_encode_wire hbytes, presentBytes_append]
    exact (congrArg (andThen · _) hu).trans ht
  have htouch : TouchesOnly (some .deframer) s t :=
    presentBytes_touchesOnly ((exec_of_encode_wire hbytes s).symm.trans hexec)
  exact ⟨t, hexec, htrx.trans hurx, htouch.ck nofun, htouch.tx nofun⟩

end Sys2Proof.Machine
end

section
/-! The family of 40_checksum.md: the CRC is linear over XOR (O28) and one-to-one in its seed and in each byte, which
gives the residues (O29) and the changed byte (O30); `XORB` and `CRCB` fold one byte (O25, O26). -/

namespace Sys2Proof.Machine

open Function (Injective)

/-! ### Linearity (40_checksum.md R94 item 3) -/

/-- One byte of the CRC is linear over XOR, in the seed and the byte at once. -/
theorem crc8Dvb_xor (s t a b : Byte) : crc8Dvb (s ^^^ t) (a ^^^ b) = crc8Dvb s a ^^^ crc8Dvb t b :=
  calc crcShifts 8 (s ^^^ t ^^^ (a ^^^ b))
    _ = crcShifts 8 ((s ^^^ a) ^^^ (t ^^^ b)) := congrArg _ (by ac_rfl)
    _ = crc8Dvb s a ^^^ crc8Dvb t b := crcShifts_xor 8 _ _

theorem crc8DvbUpdate_xor {xs ys : List Byte} (h : xs.length = ys.length) (s t : Byte) :
    crc8DvbUpdate (s ^^^ t) (List.zipWith (· ^^^ ·) xs ys) = crc8DvbUpdate s xs ^^^ crc8DvbUpdate t ys := by
  induction xs generalizing ys s t with
  | nil =>
    obtain rfl := List.length_eq_zero_iff.1 h.symm
    rfl
  | cons x xs ih =>
    obtain ⟨y, ys, rfl⟩ := List.exists_cons_of_length_eq_add_one h.symm
    simp [crc8Dvb_xor, ih (Nat.succ.inj h)]

theorem crc8DvbUpdate_replicate_zero (n : Nat) : crc8DvbUpdate 0 (List.replicate n 0) = 0 := by
  induction n with
  | zero => rfl
  | succ n ih => exact ih

/-- Settles O28: linearity byte by byte, and the zero bytes leave the seed 0 to the message. -/
theorem crcIsLinearOverXor : Obligations.CrcIsLinearOverXor := by
  constructor
  · exact fun s₁ s₂ _ _ h => crc8DvbUpdate_xor h s₁ s₂
  · intro n m
    rw [crc8DvbUpdate_append, crc8DvbUpdate_replicate_zero]

/-! ### One-to-one in the seed and in each byte (40_checksum.md R94 items 4 and 8) -/

/-- A linear step that takes only 0 to 0 is one-to-one. -/
theorem crcShift_injective : Injective crcShift := by
  intro a b h
  have hzero : crcShift (a ^^^ b) = 0 := by rw [crcShift_xor, h]; exact BitVec.xor_self
  exact BitVec.xor_eq_zero_iff.1 ((crcShift_eq_zero_iff _).1 hzero)

theorem crcShifts_injective (n : Nat) : Injective (crcShifts n) := by
  induction n with
  | zero => exact fun _ _ h => h
  | succ n ih => exact ih.comp crcShift_injective

theorem crc8Dvb_injective (s : Byte) : Injective (crc8Dvb s) :=
  fun _ _ h => (BitVec.xor_right_inj _).1 (crcShifts_injective 8 h)

theorem crc8Dvb_injective_seed (b : Byte) : Injective (crc8Dvb · b) :=
  fun _ _ h => (BitVec.xor_left_inj _).1 (crcShifts_injective 8 h)

theorem crc8DvbUpdate_injective_seed (bytes : List Byte) : Injective (crc8DvbUpdate · bytes) := by
  induction bytes with
  | nil => exact fun _ _ h => h
  | cons b bs ih => exact ih.comp (crc8Dvb_injective_seed b)

theorem xorChecksum_injective_seed (bytes : List Byte) : Injective (xorChecksum · bytes) := by
  induction bytes with
  | nil => exact fun _ _ h => h
  | cons b bs ih => exact ih.comp fun _ _ h => (BitVec.xor_left_inj _).1 h

/-- Settles O30: the changed byte gives another value, and the bytes after it keep the two values apart. -/
theorem oneChangedByteChangesTheChecksum : Obligations.OneChangedByteChangesTheChecksum := by
  intro s x y pre post hxy
  simp only [crc8DvbUpdate_append, xorChecksum_append, crc8DvbUpdate_cons, xorChecksum_cons]
  constructor
  · exact fun h => hxy (crc8Dvb_injective _ (crc8DvbUpdate_injective_seed post h))
  · exact fun h => hxy ((BitVec.xor_right_inj _).1 (xorChecksum_injective_seed post h))

/-! ### Residues and the order of the bytes (40_checksum.md R94 items 5 and 6) -/

/-- A byte equal to the running CRC folds it to 0. -/
theorem crc8Dvb_self (s : Byte) : crc8Dvb s s = 0 := by
  show crcShifts 8 (s ^^^ s) = 0
  rw [BitVec.xor_self]
  rfl

theorem xorChecksum_of_perm {xs ys : List Byte} (h : xs.Perm ys) (s : Byte) : xorChecksum s xs = xorChecksum s ys := by
  induction h generalizing s with
  | nil => rfl
  | cons b _ ih => exact ih (s ^^^ b)
  | swap a b bs =>
    have hcomm : s ^^^ b ^^^ a = s ^^^ a ^^^ b := by ac_rfl
    exact congrArg (xorChecksum · bs) hcomm
  | trans _ _ ih ih' => exact (ih s).trans (ih' s)

/-- Settles O29: the last byte meets an accumulator equal to it. -/
theorem checksumResiduesAndByteOrder : Obligations.ChecksumResiduesAndByteOrder := by
  intro s m
  refine ⟨?_, ?_, fun m' h => xorChecksum_of_perm h s⟩
  · rw [crc8DvbUpdate_append]
    exact crc8Dvb_self _
  · rw [xorChecksum_append]
    exact BitVec.xor_self

/-! ### `XORB` and `CRCB` (40_checksum.md R96, R97) -/

/-- The word of an operation whose only operand is a byte in its low bits (30_encoding.md R74). -/
theorem field_or_byte (op : BitVec 4) (b : Byte) :
    field 28 op ||| field 0 b = BitVec.ofNat 32 (op.toNat <<< 28 + b.toNat) := by
  have hop : op.toNat < 0x100000000 := Nat.lt_trans op.isLt (by decide)
  have hb : b.toNat < 2 ^ 28 := Nat.lt_trans b.isLt (by decide)
  apply BitVec.eq_of_toNat_eq
  rw [Nat.shiftLeft_add_eq_or_of_lt hb]
  simp [field, Nat.mod_eq_of_lt hop]

/-- Replacing the checksum unit and answering keeps every buffer byte, and every register but an accumulator whose value
differs. -/
theorem frame_setCk_answer {except : List Reg} (s : State) (c : ChecksumUnit)
    (hxor : .ckXor ∉ except → c.xor = s.ck.xor) (hcrc : .ckCrc ∉ except → c.crc = s.ck.crc) (r : Response) :
    let t := (s.setCk c).answer r
    RegsKept except s t ∧ InBufKept [] s t ∧ OutBufKept [] s t ∧ HdrKept [] s t ∧ Answered r [] [] s t := by
  refine ⟨fun reg hreg => ?_, fun _ _ => rfl, fun _ _ => rfl, fun _ _ => rfl, ?_⟩
  · cases reg with
    | ckXor => exact congrArg (BitVec.setWidth 32) (hxor hreg)
    | ckCrc => exact congrArg (BitVec.setWidth 32) (hcrc hreg)
    | _ => rfl
  · simp [Answered]

/-- Settles O25: the step of `XORB` writes `ck_xor` alone. -/
theorem xorbFoldsOneByte : Obligations.XorbFoldsOneByte := by
  intro s byte
  have hframe := frame_setCk_answer s (s.ck.xorStep byte) (except := [.ckXor])
    (fun h => absurd (List.mem_singleton_self _) h) (fun _ => rfl) (.ok ((s.ck.xorStep byte).xor.setWidth 32))
  refine ⟨⟨_, exec_xorb byte s, rfl, hframe⟩, congrArg Encoding.word (field_or_byte 0x6 byte), ?_, ?_⟩
  · rintro rfl; exact BitVec.xor_zero
  · rintro rfl; exact BitVec.xor_self

/-- Settles O26: the step of `CRCB` writes `ck_crc` alone. -/
theorem crcbFoldsOneByte : Obligations.CrcbFoldsOneByte := by
  intro s byte
  have hframe := frame_setCk_answer s (s.ck.crcStep byte) (except := [.ckCrc])
    (fun _ => rfl) (fun h => absurd (List.mem_singleton_self _) h) (.ok ((s.ck.crcStep byte).crc.setWidth 32))
  refine ⟨⟨_, exec_crcb byte s, rfl, hframe⟩, congrArg Encoding.word (field_or_byte 0x7 byte), ?_, by decide,
    by decide⟩
  rintro rfl
  exact crc8Dvb_self _

end Sys2Proof.Machine
end

section
/-! The family of 41_deframer.md: received bytes are `RXB` one by one (O7, O8), the rule of each receive state (O31 to
O38), what happens to bytes outside a frame and behind a pending packet (O40, O41), and whole frames: which are
delivered (O42 to O44, O46), which are dropped (O45) and which are not received (O47). -/

namespace Sys2Proof.Machine

/-! ### Byte sequences as `RXB` of their bytes (41_deframer.md R110) -/

theorem runEncoding_wire (bytes : List Byte) (s : State) : runEncoding (.wire bytes) s = presentBytes bytes s := by
  unfold runEncoding
  cases hd : decode (.wire bytes) with
  | error _ => rfl
  | ok i => exact exec_of_encode_wire (encodeOfDecodeIsIdentity _ i hd).2 s

/-- Settles O7: a frame acts as the presentation of its bytes, and other bytes are presented all the same. -/
theorem wireBytesActAsRxframe : Obligations.WireBytesActAsRxframe := by
  intro s bytes rest hp
  calc step s = runEncoding (.wire bytes) (s.setPending rest) := step_of_pending_cons hp
    _ = presentBytes bytes (s.setPending rest) := runEncoding_wire bytes _
    _ = execAll (rxFrame bytes) (s.setPending rest) := (execAll_rxFrame bytes _).symm

/-- A byte is answered once, whether it is taken or refused. -/
theorem presentByte_responses_length {b : Byte} {s t : State} (h : presentByte b s = .next t) :
    t.responses.length = s.responses.length + 1 := by
  obtain ⟨-, rfl⟩ | ⟨_, _, -, -, rfl⟩ := presentByte_next_iff.1 h <;> simp

theorem presentBytes_responses_length {bytes : List Byte} {s t : State} (h : presentBytes bytes s = .next t) :
    t.responses.length = s.responses.length + bytes.length := by
  induction bytes generalizing s with
  | nil => cases h; rfl
  | cons b bs ih =>
    obtain ⟨u, hu, ht⟩ := andThen_next_iff.1 h
    rw [ih ht, presentByte_responses_length hu, List.length_cons]
    omega

/-- Settles O8: a wire frame is the presentation of its bytes, which completes in every good state. -/
theorem frameInstructionsActAsRxframe : Obligations.FrameInstructionsActAsRxframe := by
  intro i bytes s hi
  have hexec : exec i s = presentBytes bytes s := exec_of_encode_wire hi s
  refine ⟨hexec.trans (execAll_rxFrame bytes s).symm, fun hs => ?_⟩
  obtain ⟨t, ht, hinv, hck, htx, -, hpending, htxs⟩ := presentBytes_ok bytes hs
  exact ⟨t, hexec.trans ht, hinv, hck, htx, htxs, hpending, presentBytes_responses_length ht⟩

/-! ### The next deframer -/

/-- The deframer after byte `b`, whether the frame goes on or is aborted; none where the byte is refused, or has no
place, which no reachable state meets (assumption 7). -/
def nextDeframer (cap : Nat) (b : Byte) (d : Deframer) : Option Deframer := (rxRule cap b d).bind RxMove.result

/-- A byte for which there is a next deframer is taken with it (41_deframer.md R110). -/
theorem presentByte_of_next {b : Byte} {s : State} {d : Deframer} (h : nextDeframer s.cfg.inCap b s.rx = some d) :
    presentByte b s = .next (Took b d s) := by
  obtain ⟨m, hm, hd⟩ := Option.bind_eq_some_iff.1 h
  exact presentByte_next_iff.2 (.inr ⟨m, d, hm, hd, rfl⟩)

/-- The layout's checksum-1 after `bytes`: none in a V2-native frame (30_encoding.md R71). -/
def WireVersion.ck1 : WireVersion → Byte → List Byte → Byte
  | .v1, seed, bytes | .v2OverV1, seed, bytes => xorChecksum seed bytes
  | .v2Native, seed, _ => seed

/-- The layout's checksum-2 after `bytes`: none in a V1 frame (30_encoding.md R71). -/
def WireVersion.ck2 : WireVersion → Byte → List Byte → Byte
  | .v1, seed, _ => seed
  | .v2OverV1, seed, bytes | .v2Native, seed, bytes => crc8DvbUpdate seed bytes

/-- The receive state that takes the innermost header of a layout. -/
def WireVersion.headerState : WireVersion → RxState
  | .v1 => .headerV1
  | .v2OverV1 => .headerV2OverV1
  | .v2Native => .headerV2Native

/-- The receive state that takes the payload of a layout. -/
def WireVersion.payloadState : WireVersion → RxState
  | .v1 => .payloadV1
  | .v2OverV1 => .payloadV2OverV1
  | .v2Native => .payloadV2Native

/-- The receive state that takes the first trailer byte of a layout. -/
def WireVersion.checksumState : WireVersion → RxState
  | .v1 => .checksumV1
  | .v2OverV1 => .checksumV2OverV1
  | .v2Native => .checksumV2Native

/-- How many bytes the innermost header of a layout has (30_encoding.md R63, R65). -/
def WireVersion.headerLength : WireVersion → Nat
  | .v1 => 2
  | .v2OverV1 | .v2Native => 5

/-- What a layout does with its complete header (41_deframer.md R115 to R117). -/
def WireVersion.headerDone (cap : Nat) : WireVersion → Deframer → RxMove
  | .v1 => v1HeaderDone cap
  | .v2OverV1 => v2HeaderDone cap .payloadV2OverV1 .checksumV2OverV1
  | .v2Native => v2HeaderDone cap .payloadV2Native .checksumV2Native

/-- The deframer with a header byte staged and folded into the checksums of the layout. -/
def Deframer.stage (v : WireVersion) (b : Byte) (d : Deframer) : Deframer :=
  { d with
    hdr := memStore d.hdr d.offset.toNat b, offset := d.offset + 1, ck1 := v.ck1 d.ck1 [b], ck2 := v.ck2 d.ck2 [b] }

/-- The deframer with a payload byte stored and folded into the checksums of the layout. -/
def Deframer.store (v : WireVersion) (b : Byte) (d : Deframer) : Deframer :=
  { d with
    inBuf := memStore d.inBuf d.offset.toNat b, offset := d.offset + 1, ck1 := v.ck1 d.ck1 [b], ck2 := v.ck2 d.ck2 [b]
    state := if d.offset + 1 = d.size then v.checksumState else d.state }

/-- A staged byte is read back, and the bytes staged before it as they were. -/
theorem hdrByte_stage_self (v : WireVersion) (b : Byte) (d : Deframer) :
    hdrByte (d.stage v b) d.offset.toNat = b := memRead_memStore_self ..

theorem hdrByte_stage_of_ne (v : WireVersion) (b : Byte) {d : Deframer} {i : Nat} (h : i ≠ d.offset.toNat) :
    hdrByte (d.stage v b) i = hdrByte d i := memRead_memStore_of_ne _ _ _ _ h

section
variable {cap : Nat} {b : Byte} {d : Deframer}

theorem nextDeframer_idle (h : d.state = .idle) :
    nextDeframer cap b d = some { d with state := if b = chDollar then .headerStart else .idle } := by
  rw [nextDeframer, rxRule_idle cap b h, rxIdle]
  split_ifs <;> rfl

theorem nextDeframer_headerStart (h : d.state = .headerStart) : nextDeframer cap b d = some
    (if b = chM then { d with version := .v1, state := .headerM }
     else if b = chX then { d with version := .v2Native, state := .headerX }
     else { d with state := .idle }) := by
  rw [nextDeframer, rxRule_headerStart cap b h, rxHeaderStart]
  split_ifs <;> rfl

/-- The deframer at the start of a header: type recorded, counter and checksums cleared (41_deframer.md R113, R114). -/
def Deframer.enter (next : RxState) (ptype : PacketType) (d : Deframer) : Deframer :=
  { d with ptype := ptype, offset := 0, ck1 := 0, ck2 := 0, state := next }

/-- Both expect-direction states. -/
theorem nextDeframer_direction {next : RxState}
    (h : d.state = .headerM ∧ next = .headerV1 ∨ d.state = .headerX ∧ next = .headerV2Native) :
    nextDeframer cap b d = some
      (if b = chLess then d.enter next .command
       else if b = chGreater then d.enter next .reply
       else { d with state := .idle }) := by
  have hrule : rxRule cap b d = some (rxDirection next b d) := by
    obtain ⟨hst, rfl⟩ | ⟨hst, rfl⟩ := h
    · exact rxRule_headerM cap b hst
    · exact rxRule_headerX cap b hst
  rw [nextDeframer, hrule, rxDirection]
  by_cases hless : b = chLess
  · simp only [hless, true_or, if_true]; rfl
  · simp only [hless, false_or, if_false]; split_ifs <;> rfl

/-- A header state stages its byte, and completes the header with its last one (41_deframer.md R115 to R117). -/
theorem rxRule_header (v : WireVersion) (hst : d.state = v.headerState) (h : d.offset.toNat < 5) :
    rxRule cap b d = some (if (d.stage v b).offset = BitVec.ofNat 16 v.headerLength then v.headerDone cap (d.stage v b)
      else .go (d.stage v b)) := by
  cases v with
  | v1 => rw [rxRule_headerV1 cap b hst, rxHeaderV1, stageHeader_of_lt b h]; rfl
  | v2OverV1 => rw [rxRule_headerV2OverV1 cap b hst, rxHeaderV2OverV1, stageHeader_of_lt b h]; rfl
  | v2Native => rw [rxRule_headerV2Native cap b hst, rxHeaderV2Native, stageHeader_of_lt b h]; rfl

theorem WireVersion.headerLength_of_ne_v1 (v : WireVersion) (hv : v ≠ .v1) : v.headerLength = 5 := by
  cases v with
  | v1 => exact absurd rfl hv
  | _ => rfl

theorem WireVersion.headerLength_le (v : WireVersion) : v.headerLength ≤ 5 := by cases v <;> decide

theorem toNat_offset_stage (v : WireVersion) (h : d.offset.toNat < 5) :
    (d.stage v b).offset.toNat = d.offset.toNat + 1 := toNat_succ_of_lt h (by decide)

/-- The count reaches the length of the header with its last byte. -/
theorem offset_stage_eq_iff (v : WireVersion) (h : d.offset.toNat < 5) :
    (d.stage v b).offset = BitVec.ofNat 16 v.headerLength ↔ d.offset.toNat + 1 = v.headerLength := by
  have hlen := v.headerLength_le
  rw [← BitVec.toNat_inj, toNat_offset_stage v h, toNat_ofNat_half (by omega)]

theorem nextDeframer_stage (v : WireVersion) (hst : d.state = v.headerState)
    (h : d.offset.toNat + 1 < v.headerLength) : nextDeframer cap b d = some (d.stage v b) := by
  have hlt : d.offset.toNat < 5 := by have hlen := v.headerLength_le; omega
  rw [nextDeframer, rxRule_header v hst hlt, if_neg ((offset_stage_eq_iff v hlt).not.2 h.ne)]
  rfl

theorem nextDeframer_headerDone (v : WireVersion) (hst : d.state = v.headerState)
    (h : d.offset.toNat + 1 = v.headerLength) : nextDeframer cap b d = (v.headerDone cap (d.stage v b)).result := by
  have hlt : d.offset.toNat < 5 := by have hlen := v.headerLength_le; omega
  rw [nextDeframer, rxRule_header v hst hlt, if_pos ((offset_stage_eq_iff v hlt).2 h)]
  rfl

/-- The deframer with a complete header recorded; an empty payload skips the payload state. -/
def Deframer.record (v : WireVersion) (size cmd : Half) (flags : Byte) (d : Deframer) : Deframer :=
  { d with
    size := size, cmd := cmd, flags := flags, offset := 0
    state := if size = 0 then v.checksumState else v.payloadState }

theorem ite_toNat_pos {n : Nat} (size : BitVec n) (payload checksum : RxState) :
    (if 0 < size.toNat then payload else checksum) = if size = 0 then checksum else payload := by
  by_cases h : size = 0
  · simp [h]
  · rw [if_neg h, if_pos (Nat.pos_of_ne_zero fun h0 => h (BitVec.eq_of_toNat_eq h0))]

theorem setWidth_eq_zero_iff (b : Byte) : b.setWidth 16 = 0 ↔ b = 0 := by
  refine ⟨fun h => ?_, fun h => by rw [h]; rfl⟩
  rw [← lo8_setWidth b, h]
  rfl

/-- The deframer at the start of the V2 header inside a V1 frame (41_deframer.md R115). -/
def Deframer.enterV2 (d : Deframer) : Deframer :=
  { d with version := .v2OverV1, offset := 0, state := .headerV2OverV1 }

/-- The second byte of a V1 header completes it (41_deframer.md R115). -/
theorem nextDeframer_v1Header (hst : d.state = .headerV1) (hoff : d.offset.toNat = 1) :
    nextDeframer cap b d = some
      (if cap < (hdrByte d 0).toNat then { d.stage .v1 b with state := .idle }
       else if b = sentinel then
         if 6 ≤ (hdrByte d 0).toNat then (d.stage .v1 b).enterV2 else { d.stage .v1 b with state := .idle }
       else (d.stage .v1 b).record .v1 ((hdrByte d 0).setWidth 16) (b.setWidth 16) 0) := by
  have hsize : hdrByte (d.stage .v1 b) 0 = hdrByte d 0 := hdrByte_stage_of_ne _ _ (by omega)
  have hcmd : hdrByte (d.stage .v1 b) 1 = b := by rw [← hoff]; exact hdrByte_stage_self ..
  have hcases := v1HeaderDone_cases cap (d.stage .v1 b)
  rw [hsize, hcmd] at hcases
  rw [nextDeframer_headerDone .v1 hst (by rw [hoff]; rfl), WireVersion.headerDone]
  obtain ⟨hcap, h⟩ | ⟨hcap, hb, h6, h⟩ | ⟨hcap, hb, h6, h⟩ | ⟨hcap, hb, h⟩ := hcases <;> rw [h]
  · rw [if_pos hcap]; rfl
  · rw [if_neg hcap.not_gt, if_pos hb, if_pos h6]; rfl
  · rw [if_neg hcap.not_gt, if_pos hb, if_neg h6.not_ge]; rfl
  · rw [if_neg hcap.not_gt, if_neg hb, Deframer.record]
    simp only [setWidth_eq_zero_iff, ite_toNat_pos]
    rfl

/-- The fifth byte of a V2 header completes it (41_deframer.md R116, R117). -/
theorem nextDeframer_v2Header (v : WireVersion) (hv : v ≠ .v1) (hst : d.state = v.headerState)
    (hoff : d.offset.toNat = 4) : nextDeframer cap b d = some
      (if cap < (u16le (hdrByte d 3) b).toNat then { d.stage v b with state := .idle }
       else (d.stage v b).record v (u16le (hdrByte d 3) b) (u16le (hdrByte d 1) (hdrByte d 2)) (hdrByte d 0)) := by
  have hdone : v.headerDone cap = v2HeaderDone cap v.payloadState v.checksumState := by
    cases v with
    | v1 => exact absurd rfl hv
    | _ => rfl
  have h0 : hdrByte (d.stage v b) 0 = hdrByte d 0 := hdrByte_stage_of_ne _ _ (by omega)
  have h1 : hdrByte (d.stage v b) 1 = hdrByte d 1 := hdrByte_stage_of_ne _ _ (by omega)
  have h2 : hdrByte (d.stage v b) 2 = hdrByte d 2 := hdrByte_stage_of_ne _ _ (by omega)
  have h3 : hdrByte (d.stage v b) 3 = hdrByte d 3 := hdrByte_stage_of_ne _ _ (by omega)
  have h4 : hdrByte (d.stage v b) 4 = b := by rw [← hoff]; exact hdrByte_stage_self ..
  have hcases := v2HeaderDone_cases cap v.payloadState v.checksumState (d.stage v b)
  rw [h0, h1, h2, h3, h4] at hcases
  rw [nextDeframer_headerDone v hst (by rw [hoff, v.headerLength_of_ne_v1 hv]), hdone]
  obtain ⟨hcap, h⟩ | ⟨hcap, h⟩ := hcases <;> rw [h]
  · rw [if_pos hcap]; rfl
  · rw [if_neg hcap.not_gt, Deframer.record, ← ite_toNat_pos]; rfl

theorem payloadDone_result {checksum : RxState} : (payloadDone checksum d).result = some
    { d with state := if d.offset = d.size then checksum else d.state } := by
  obtain ⟨h, hd⟩ | ⟨h, hd⟩ := payloadDone_cases checksum d
  · rw [hd, if_pos h]; rfl
  · rw [hd, if_neg h]; rfl

theorem nextDeframer_store (v : WireVersion) (hst : d.state = v.payloadState) (h : d.offset.toNat < cap) :
    nextDeframer cap b d = some (d.store v b) := by
  unfold nextDeframer
  cases v with
  | v1 => rw [rxRule_payloadV1 cap b hst, rxPayloadV1, stagePayload_of_lt b h]; exact payloadDone_result
  | v2OverV1 =>
    rw [rxRule_payloadV2OverV1 cap b hst, rxPayloadV2OverV1, stagePayload_of_lt b h]; exact payloadDone_result
  | v2Native =>
    rw [rxRule_payloadV2Native cap b hst, rxPayloadV2Native, stagePayload_of_lt b h]; exact payloadDone_result

theorem nextDeframer_checksumV1 (h : d.state = .checksumV1) :
    nextDeframer cap b d = some { d with state := if b = d.ck1 then .commandReceived else .idle } := by
  rw [nextDeframer, rxRule_checksumV1 cap b h, rxChecksumV1]
  split_ifs <;> rfl

theorem nextDeframer_checksumV2OverV1 (h : d.state = .checksumV2OverV1) : nextDeframer cap b d = some
    { d with ck1 := d.ck1 ^^^ b, state := if b = d.ck2 then .checksumV1 else .idle } := by
  rw [nextDeframer, rxRule_checksumV2OverV1 cap b h, rxChecksumV2OverV1]
  split_ifs <;> rfl

theorem nextDeframer_checksumV2Native (h : d.state = .checksumV2Native) :
    nextDeframer cap b d = some { d with state := if b = d.ck2 then .commandReceived else .idle } := by
  rw [nextDeframer, rxRule_checksumV2Native cap b h, rxChecksumV2Native]
  split_ifs <;> rfl

end

/-! ### One rule per receive state (41_deframer.md R111 to R126) -/

theorem exec_rxb_of_next {b : Byte} {s : State} {d : Deframer} (h : nextDeframer s.cfg.inCap b s.rx = some d) :
    exec (.rxb b) s = .next (Took b d s) := presentByte_of_next h

/-- Settles O31: the next deframer of the two states. -/
theorem rxbFindsTheFrameStart : Obligations.RxbFindsTheFrameStart := by
  intro s b
  exact ⟨fun h => exec_rxb_of_next (nextDeframer_idle h), fun h => exec_rxb_of_next (nextDeframer_headerStart h)⟩

/-- Settles O32: the next deframer of the two expect-direction states. -/
theorem rxbTakesTheDirection : Obligations.RxbTakesTheDirection :=
  fun _ _ _ h => exec_rxb_of_next (nextDeframer_direction h)

/-- Settles O33: a byte before the last is staged; the last completes the header. -/
theorem rxbTakesTheV1Header : Obligations.RxbTakesTheV1Header := by
  intro s b hst d size
  refine ⟨fun hfirst => ?_, fun hlast => ?_⟩
  · exact exec_rxb_of_next (nextDeframer_stage .v1 hst (by rw [hfirst]; decide))
  · have hexec := exec_rxb_of_next (nextDeframer_v1Header (b := b) hst (by rw [hlast]; rfl))
    refine ⟨fun hchecked => ?_, fun hcap => ?_, fun hcap hb h6 => ?_, fun hcap hb h6 => ?_, fun hcap hb => ?_⟩
    · rw [Deframer.Checked, hst, hlast] at hchecked
      obtain ⟨hck1, hck2⟩ := hchecked
      exact ⟨congrArg (· ^^^ b) (hck1.trans (BitVec.zero_xor (x := size))), hck2⟩
    · exact hexec.trans (by rw [if_pos hcap]; rfl)
    · exact hexec.trans (by rw [if_neg hcap.not_gt, if_pos (show b = sentinel from hb), if_pos h6]; rfl)
    · exact hexec.trans (by rw [if_neg hcap.not_gt, if_pos (show b = sentinel from hb), if_neg h6.not_ge]; rfl)
    · refine hexec.trans ?_
      rw [if_neg hcap.not_gt, if_neg (show b ≠ sentinel from hb), Deframer.record]
      simp only [setWidth_eq_zero_iff]
      rfl

/-- Settles O34: for each of the two layouts, a byte before the last is staged and the last completes the header. -/
theorem rxbTakesTheV2Header : Obligations.RxbTakesTheV2Header := by
  intro s b payload checksum ck1 h
  obtain ⟨v, hv, hst, rfl, rfl, rfl, hck2⟩ : ∃ v : WireVersion, v ≠ .v1 ∧ s.rx.state = v.headerState ∧
      payload = v.payloadState ∧ checksum = v.checksumState ∧ ck1 = v.ck1 s.rx.ck1 [b] ∧
      crc8Dvb s.rx.ck2 b = v.ck2 s.rx.ck2 [b] := by
    obtain ⟨hst, rfl, rfl, rfl⟩ | ⟨hst, rfl, rfl, rfl⟩ := h
    · exact ⟨.v2OverV1, nofun, hst, rfl, rfl, rfl, rfl⟩
    · exact ⟨.v2Native, nofun, hst, rfl, rfl, rfl, rfl⟩
  rw [hck2]
  intro d size
  refine ⟨fun hmore => ?_, fun hlast => ?_⟩
  · exact exec_rxb_of_next (nextDeframer_stage v hst (by rw [v.headerLength_of_ne_v1 hv]; omega))
  · have hexec := exec_rxb_of_next (nextDeframer_v2Header (b := b) v hv hst (by rw [hlast]; rfl))
    refine ⟨fun hcap => ?_, fun hcap => ?_⟩
    · exact hexec.trans (by rw [if_pos hcap]; rfl)
    · exact hexec.trans (by rw [if_neg hcap.not_gt]; rfl)

/-- In a payload state the count is below the declared length, which is within the buffer (41_deframer.md R118). -/
theorem Deframer.Inv.payload_bounds {cap : Nat} {d : Deframer} (hd : d.Inv cap) (v : WireVersion)
    (hst : d.state = v.payloadState) : d.offset.toNat < d.size.toNat ∧ d.size.toNat ≤ cap := by
  have hinv := hd.state
  rw [Deframer.StateInv, hst] at hinv
  refine ⟨?_, hd.size⟩
  cases v with
  | v1 => obtain ⟨-, -, hlt, -⟩ := hinv; exact hlt
  | v2OverV1 | v2Native => obtain ⟨-, hlt, -⟩ := hinv; exact hlt

/-- Settles O35: the next deframer of the three payload states. -/
theorem rxbStoresThePayload : Obligations.RxbStoresThePayload := by
  intro s b ck1 ck2 checksum h
  obtain ⟨v, hst, rfl, rfl, rfl⟩ : ∃ v : WireVersion, s.rx.state = v.payloadState ∧ ck1 = v.ck1 s.rx.ck1 [b] ∧
      ck2 = v.ck2 s.rx.ck2 [b] ∧ checksum = v.checksumState := by
    obtain ⟨hst, rfl, rfl, rfl⟩ | ⟨hst, rfl, rfl, rfl⟩ | ⟨hst, rfl, rfl, rfl⟩ := h
    · exact ⟨.v1, hst, rfl, rfl, rfl⟩
    · exact ⟨.v2OverV1, hst, rfl, rfl, rfl⟩
    · exact ⟨.v2Native, hst, rfl, rfl, rfl⟩
  refine ⟨fun hs => ?_, fun hcap => exec_rxb_of_next (nextDeframer_store v hst hcap)⟩
  obtain ⟨hlt, hle⟩ := hs.rx.payload_bounds v hst
  exact ⟨by omega, hlt, hle⟩

/-- Settles O36: the next deframer of the three checksum states. -/
theorem rxbVerifiesTheChecksum : Obligations.RxbVerifiesTheChecksum := by
  intro s b
  exact ⟨fun h => exec_rxb_of_next (nextDeframer_checksumV1 h),
    fun h => exec_rxb_of_next (nextDeframer_checksumV2OverV1 h),
    fun h => exec_rxb_of_next (nextDeframer_checksumV2Native h)⟩

theorem execRxack_of_pending {s : State} (h : s.rx.state = .commandReceived) :
    execRxack s = .next ((s.setRx { s.rx with state := .idle }).answer (.ok 0)) := by
  simp [execRxack, packetReady, h, respond]

theorem execRxack_refused {s : State} (h : s.rx.state ≠ .commandReceived) :
    execRxack s = .next (s.answer (.refused .rxNoPacket)) := by
  simp [execRxack, packetReady, h, refuse]

/-- Settles O37: the byte is refused, and both releases write `rx_state` alone. -/
theorem pendingPacketIsHeldUntilReleased : Obligations.PendingPacketIsHeldUntilReleased := by
  intro s b
  exact ⟨presentByte_refused b, execRxack_of_pending, execRxack_refused, rfl, by decide, by decide⟩

/-- Bytes other than `'$'` that arrive in `Idle` are consumed and answered, and change nothing else (41_deframer.md
R111). -/
theorem presentBytes_noise {bytes : List Byte} {s : State} (hidle : s.rx.state = .idle)
    (hnoise : ∀ b ∈ bytes, b ≠ chDollar) : presentBytes bytes s = .next { s with
      rxs := s.rxs ++ bytes, responses := s.responses ++ List.replicate bytes.length (.ok 0) } := by
  induction bytes generalizing s with
  | nil => simp
  | cons b bs ih =>
    obtain ⟨hb, hbs⟩ := List.forall_mem_cons.1 hnoise
    have hnext : nextDeframer s.cfg.inCap b s.rx = some s.rx := by
      rw [nextDeframer_idle hidle, if_neg hb, ← hidle]
    rw [presentBytes_cons, presentByte_of_next hnext, andThen_next, ih (s := Took b s.rx s) hidle hbs]
    simp [Took, hidle, rxStateNumber, List.replicate_succ]

/-- Bytes that arrive behind a pending packet are refused one by one (41_deframer.md R124). -/
theorem presentBytes_pending {bytes : List Byte} {s : State} (hst : s.rx.state = .commandReceived) :
    presentBytes bytes s = .next
      { s with responses := s.responses ++ List.replicate bytes.length (.refused .rxPacketPending) } := by
  induction bytes generalizing s with
  | nil => simp
  | cons b bs ih =>
    rw [presentBytes_cons, presentByte_refused b hst, andThen_next, ih (s := s.answer (.refused .rxPacketPending)) hst]
    simp [State.answer, List.replicate_succ]

/-- Settles O40: `Idle` answers 0 to each byte and stays. -/
theorem noiseIsDiscardedSilently : Obligations.NoiseIsDiscardedSilently := by
  intro s bytes hidle hnoise
  exact ⟨_, (execAll_rxFrame bytes s).trans (presentBytes_noise hidle hnoise), rfl, rfl, rfl, rfl, rfl⟩

/-- Settles O41: each byte is answered with the refusal. -/
theorem noByteIsTakenWhilePending : Obligations.NoByteIsTakenWhilePending := by
  intro s bytes hst
  exact ⟨_, (execAll_rxFrame bytes s).trans (presentBytes_pending hst), rfl, rfl, rfl⟩

/-! ### The transition summary (41_deframer.md R133) -/

/-- From `d` to `d'` there is an arrow of the transition summary, and the unspecified content stays. -/
def FollowsArrow (d d' : Deframer) : Prop := (d.state, d'.state) ∈ rxArrows ∧ d'.draw = d.draw

theorem FollowsArrow.of_states {d d' : Deframer} {p q : RxState} (hd : d.state = p) (hd' : d'.state = q)
    (h : (p, q) ∈ rxArrows) (hdraw : d'.draw = d.draw) : FollowsArrow d d' := ⟨by rw [hd, hd']; exact h, hdraw⟩

section
variable {cap : Nat} {b : Byte} {d : Deframer}

/-- A complete header leads to the payload state, or past it. -/
theorem FollowsArrow.record {v : WireVersion} (hst : d.state = v.headerState) (size cmd : Half) (flags : Byte) :
    FollowsArrow d ((d.stage v b).record v size cmd flags) := by
  refine .of_states hst (q := if size = 0 then v.checksumState else v.payloadState) rfl ?_ rfl
  split_ifs <;> cases v <;> decide

theorem FollowsArrow.stage {v : WireVersion} (hst : d.state = v.headerState) : FollowsArrow d (d.stage v b) :=
  .of_states hst hst (by cases v <;> decide) rfl

theorem FollowsArrow.store {v : WireVersion} (hst : d.state = v.payloadState) : FollowsArrow d (d.store v b) := by
  refine .of_states hst (q := if d.offset + 1 = d.size then v.checksumState else v.payloadState) ?_ ?_ rfl
  · rw [← hst]; rfl
  · split_ifs <;> cases v <;> decide

theorem exists_followsArrow_v1Header (hst : d.state = .headerV1) (hlt : d.offset.toNat < 2) :
    ∃ d', nextDeframer cap b d = some d' ∧ FollowsArrow d d' := by
  obtain hmore | hlast : d.offset.toNat + 1 < 2 ∨ d.offset.toNat = 1 := by omega
  · exact ⟨_, nextDeframer_stage .v1 hst hmore, .stage hst⟩
  · refine ⟨_, nextDeframer_v1Header hst hlast, ?_⟩
    split_ifs
    · exact .of_states hst (q := .idle) rfl (by decide) rfl
    · exact .of_states hst (q := .headerV2OverV1) rfl (by decide) rfl
    · exact .of_states hst (q := .idle) rfl (by decide) rfl
    · exact .record hst ..

theorem exists_followsArrow_v2Header {v : WireVersion} (hv : v ≠ .v1) (hst : d.state = v.headerState)
    (hlt : d.offset.toNat < 5) : ∃ d', nextDeframer cap b d = some d' ∧ FollowsArrow d d' := by
  have hlen := v.headerLength_of_ne_v1 hv
  obtain hmore | hlast : d.offset.toNat + 1 < 5 ∨ d.offset.toNat = 4 := by omega
  · exact ⟨_, nextDeframer_stage v hst (by omega), .stage hst⟩
  · refine ⟨_, nextDeframer_v2Header v hv hst hlast, ?_⟩
    split_ifs
    · exact .of_states hst (q := .idle) rfl (by cases v <;> decide) rfl
    · exact .record hst ..

theorem exists_followsArrow_payload (hd : d.Inv cap) (v : WireVersion) (hst : d.state = v.payloadState) :
    ∃ d', nextDeframer cap b d = some d' ∧ FollowsArrow d d' := by
  obtain ⟨hlt, hle⟩ := hd.payload_bounds v hst
  exact ⟨_, nextDeframer_store v hst (hlt.trans_le hle), .store hst⟩

/-- A direction byte enters the header state of the magic, or the frame is aborted. -/
theorem exists_followsArrow_direction {next : RxState}
    (h : d.state = .headerM ∧ next = .headerV1 ∨ d.state = .headerX ∧ next = .headerV2Native) :
    ∃ d', nextDeframer cap b d = some d' ∧ FollowsArrow d d' := by
  obtain ⟨hheader, hidle⟩ : (d.state, next) ∈ rxArrows ∧ (d.state, .idle) ∈ rxArrows := by
    obtain ⟨hst, rfl⟩ | ⟨hst, rfl⟩ := h <;> rw [hst] <;> decide
  refine ⟨_, nextDeframer_direction h, ?_⟩
  split_ifs
  · exact ⟨hheader, rfl⟩
  · exact ⟨hheader, rfl⟩
  · exact ⟨hidle, rfl⟩

/-- A state whose rule only chooses between two next states. -/
theorem exists_followsArrow_choice {c : Prop} [Decidable c] {p q r : RxState} {ck1 : Byte} (hst : d.state = p)
    (hnext : nextDeframer cap b d = some { d with ck1 := ck1, state := if c then q else r })
    (hq : (p, q) ∈ rxArrows) (hr : (p, r) ∈ rxArrows) :
    ∃ d', nextDeframer cap b d = some d' ∧ FollowsArrow d d' := by
  refine ⟨_, hnext, .of_states hst rfl ?_ rfl⟩
  split_ifs
  · exact hq
  · exact hr

/-- In a good state other than `CommandReceived` every byte is taken along an arrow. -/
theorem exists_followsArrow (hd : d.Inv cap) (hpending : d.state ≠ .commandReceived) :
    ∃ d', nextDeframer cap b d = some d' ∧ FollowsArrow d d' := by
  have hinv := hd.state
  rw [Deframer.StateInv] at hinv
  cases hst : d.state <;> rw [hst] at hinv
  case idle => exact exists_followsArrow_choice hst (nextDeframer_idle hst) (by decide) (by decide)
  case headerStart =>
    refine ⟨_, nextDeframer_headerStart hst, ?_⟩
    split_ifs
    · exact .of_states hst (q := .headerM) rfl (by decide) rfl
    · exact .of_states hst (q := .headerX) rfl (by decide) rfl
    · exact .of_states hst (q := .idle) rfl (by decide) rfl
  case headerM => exact exists_followsArrow_direction (.inl ⟨hst, rfl⟩)
  case headerX => exact exists_followsArrow_direction (.inr ⟨hst, rfl⟩)
  case headerV1 => obtain ⟨-, hlt, -⟩ := hinv; exact exists_followsArrow_v1Header hst hlt
  case headerV2OverV1 =>
    obtain ⟨-, hlt, -⟩ := hinv; exact exists_followsArrow_v2Header (v := .v2OverV1) nofun hst hlt
  case headerV2Native =>
    obtain ⟨-, hlt, -⟩ := hinv; exact exists_followsArrow_v2Header (v := .v2Native) nofun hst hlt
  case payloadV1 => exact exists_followsArrow_payload hd .v1 hst
  case payloadV2OverV1 => exact exists_followsArrow_payload hd .v2OverV1 hst
  case payloadV2Native => exact exists_followsArrow_payload hd .v2Native hst
  case checksumV1 => exact exists_followsArrow_choice hst (nextDeframer_checksumV1 hst) (by decide) (by decide)
  case checksumV2OverV1 =>
    exact exists_followsArrow_choice hst (nextDeframer_checksumV2OverV1 hst) (by decide) (by decide)
  case checksumV2Native =>
    exact exists_followsArrow_choice hst (nextDeframer_checksumV2Native hst) (by decide) (by decide)
  case commandReceived => exact absurd hst hpending

end

/-- Settles O38: the next deframer follows an arrow. -/
theorem rxbTakesEveryByte : Obligations.RxbTakesEveryByte := by
  intro s b hs hst
  obtain ⟨d, hnext, harrow, hdraw⟩ := exists_followsArrow (b := b) hs.rx hst
  exact ⟨d, exec_rxb_of_next hnext, harrow, hdraw⟩

/-! ### Received frames -/

/-- The deframer after a sequence of bytes; none where one of them has no next deframer. -/
def runDeframer (cap : Nat) : List Byte → Deframer → Option Deframer
  | [], d      => some d
  | b :: bs, d => (nextDeframer cap b d).bind (runDeframer cap bs)

theorem presentBytes_of_run {bytes : List Byte} {s : State} {d : Deframer}
    (h : runDeframer s.cfg.inCap bytes s.rx = some d) : ∃ t, presentBytes bytes s = .next t ∧ t.rx = d := by
  induction bytes generalizing s with
  | nil => cases h; exact ⟨s, rfl, rfl⟩
  | cons b bs ih =>
    obtain ⟨d', hnext, hrun⟩ := Option.bind_eq_some_iff.1 h
    obtain ⟨t, ht, hrx⟩ := ih (s := Took b d' s) hrun
    exact ⟨t, by rw [presentBytes_cons, presentByte_of_next hnext, andThen_next, ht], hrx⟩

/-- A wire frame whose bytes take the deframer to `d` completes with it and touches no other unit. -/
theorem exec_of_run {i : Instr} {bytes : List Byte} {s : State} {d : Deframer} (hi : encode i = .wire bytes)
    (h : runDeframer s.cfg.inCap bytes s.rx = some d) :
    ∃ t, exec i s = .next t ∧ t.rx = d ∧ t.ck = s.ck ∧ t.tx = s.tx := by
  obtain ⟨t, ht, hrx⟩ := presentBytes_of_run h
  have htouch := presentBytes_touchesOnly ht
  exact ⟨t, (exec_of_encode_wire hi s).trans ht, hrx, htouch.ck nofun, htouch.tx nofun⟩

section
variable {cap : Nat} {d : Deframer}

theorem runDeframer_cons {b : Byte} {d' : Deframer} (h : nextDeframer cap b d = some d') (bs : List Byte) :
    runDeframer cap (b :: bs) d = runDeframer cap bs d' := by rw [runDeframer, h, Option.bind_some]

theorem runDeframer_append (xs ys : List Byte) :
    runDeframer cap (xs ++ ys) d = (runDeframer cap xs d).bind (runDeframer cap ys) := by
  induction xs generalizing d with
  | nil => rfl
  | cons b bs ih =>
    rw [List.cons_append, runDeframer, runDeframer, Option.bind_assoc]
    exact congrArg _ (funext fun _ => ih)

theorem runDeframer_snoc {bytes : List Byte} {b : Byte} {d' d'' : Deframer} (h : runDeframer cap bytes d = some d')
    (hb : nextDeframer cap b d' = some d'') : runDeframer cap (bytes ++ [b]) d = some d'' := by
  rw [runDeframer_append, h]
  exact runDeframer_cons hb []

/-- The packet type of a frame that is received (41_deframer.md R113). -/
def packetTypeOf (dir : Direction) : PacketType := if dir = .request then .command else .reply

/-- The deframer at the start of a header, its version and type set. -/
def Deframer.started (v : WireVersion) (ptype : PacketType) (d : Deframer) : Deframer :=
  Deframer.enter v.headerState ptype { d with version := v }

theorem nextDeframer_dirByte {next : RxState} {dir : Direction}
    (hst : d.state = .headerM ∧ next = .headerV1 ∨ d.state = .headerX ∧ next = .headerV2Native)
    (hdir : dir ≠ .replyError) : nextDeframer cap (dirByte dir) d = some (d.enter next (packetTypeOf dir)) := by
  rw [nextDeframer_direction hst]
  cases dir with
  | request | replySuccess => rfl
  | replyError => exact absurd rfl hdir

/-- The start, the magic and the direction of a frame, in `Idle`. -/
theorem runDeframer_start {v : WireVersion} {magic : Byte} {dir : Direction} (hidle : d.state = .idle)
    (hmagic : v = .v1 ∧ magic = chM ∨ v = .v2Native ∧ magic = chX) (hdir : dir ≠ .replyError) :
    runDeframer cap [chDollar, magic, dirByte dir] d = some (d.started v (packetTypeOf dir)) := by
  rw [runDeframer_cons (nextDeframer_idle hidle), if_pos rfl, runDeframer_cons (nextDeframer_headerStart rfl)]
  obtain ⟨rfl, rfl⟩ | ⟨rfl, rfl⟩ := hmagic
  · exact runDeframer_cons (nextDeframer_dirByte (.inl ⟨rfl, rfl⟩) hdir) []
  · exact runDeframer_cons (nextDeframer_dirByte (.inr ⟨rfl, rfl⟩) hdir) []

theorem WireVersion.ck1_append (v : WireVersion) (c : Byte) (xs ys : List Byte) :
    v.ck1 c (xs ++ ys) = v.ck1 (v.ck1 c xs) ys := by
  cases v with
  | v1 | v2OverV1 => exact xorChecksum_append c xs ys
  | v2Native => rfl

theorem WireVersion.ck2_append (v : WireVersion) (c : Byte) (xs ys : List Byte) :
    v.ck2 c (xs ++ ys) = v.ck2 (v.ck2 c xs) ys := by
  cases v with
  | v1 => rfl
  | v2OverV1 | v2Native => exact crc8DvbUpdate_append c xs ys

/-- The deframer with header bytes staged one after another. -/
def Deframer.stageAll (v : WireVersion) (bytes : List Byte) (d : Deframer) : Deframer :=
  bytes.foldl (fun d b => d.stage v b) d

@[simp] theorem Deframer.stageAll_ck1 (v : WireVersion) (bytes : List Byte) (d : Deframer) :
    (d.stageAll v bytes).ck1 = v.ck1 d.ck1 bytes := by
  induction bytes generalizing d with
  | nil => cases v <;> rfl
  | cons b bs ih => exact (ih (d.stage v b)).trans (v.ck1_append d.ck1 [b] bs).symm

@[simp] theorem Deframer.stageAll_ck2 (v : WireVersion) (bytes : List Byte) (d : Deframer) :
    (d.stageAll v bytes).ck2 = v.ck2 d.ck2 bytes := by
  induction bytes generalizing d with
  | nil => cases v <;> rfl
  | cons b bs ih => exact (ih (d.stage v b)).trans (v.ck2_append d.ck2 [b] bs).symm

@[simp] theorem Deframer.stageAll_version (v : WireVersion) (bytes : List Byte) (d : Deframer) :
    (d.stageAll v bytes).version = d.version := by
  induction bytes generalizing d with
  | nil => rfl
  | cons b bs ih => exact ih (d.stage v b)

@[simp] theorem Deframer.stageAll_ptype (v : WireVersion) (bytes : List Byte) (d : Deframer) :
    (d.stageAll v bytes).ptype = d.ptype := by
  induction bytes generalizing d with
  | nil => rfl
  | cons b bs ih => exact ih (d.stage v b)

/-- Header bytes before the last are staged in order. -/
theorem runDeframer_stageAll {v : WireVersion} {bytes : List Byte} (hst : d.state = v.headerState)
    (hlt : d.offset.toNat + bytes.length < v.headerLength) :
    runDeframer cap bytes d = some (d.stageAll v bytes) ∧ (d.stageAll v bytes).state = v.headerState ∧
      (d.stageAll v bytes).offset.toNat = d.offset.toNat + bytes.length ∧
      hdrBytes (d.stageAll v bytes) (d.offset.toNat + bytes.length) = hdrBytes d d.offset.toNat ++ bytes := by
  induction bytes generalizing d with
  | nil => exact ⟨rfl, hst, rfl, (List.append_nil _).symm⟩
  | cons b bs ih =>
    have hlen := v.headerLength_le
    rw [List.length_cons] at hlt
    have hoff : (d.stage v b).offset.toNat = d.offset.toNat + 1 := toNat_offset_stage v (by omega)
    obtain ⟨hrun, hstate, hoffset, hbytes⟩ := ih (d := d.stage v b) hst (by omega)
    have hstaged : hdrBytes (d.stage v b) (d.offset.toNat + 1) = hdrBytes d d.offset.toNat ++ [b] :=
      hdrBytes_store _ _ _ _ rfl rfl
    rw [hoff, hstaged, List.append_assoc] at hbytes
    refine ⟨(runDeframer_cons (nextDeframer_stage v hst (by omega)) bs).trans hrun, hstate, ?_, ?_⟩
    · rw [List.length_cons, ← Nat.add_assoc, Nat.add_right_comm, ← hoff]; exact hoffset
    · rw [List.length_cons, ← Nat.add_assoc, Nat.add_right_comm]; exact hbytes

/-- The two bytes of a V1 header. -/
theorem runDeframer_v1Header {size cmd : Byte} (hst : d.state = .headerV1) (hoff : d.offset = 0) :
    let d' := d.stageAll .v1 [size, cmd]
    runDeframer cap [size, cmd] d = some
      (if cap < size.toNat then { d' with state := .idle }
       else if cmd = sentinel then
         if 6 ≤ size.toNat then d'.enterV2 else { d' with state := .idle }
       else d'.record .v1 (size.setWidth 16) (cmd.setWidth 16) 0) := by
  obtain ⟨hrun, hst1, hoff1, hbytes⟩ := runDeframer_stageAll (cap := cap) (v := .v1) (bytes := [size]) hst
    (by rw [hoff]; exact show 0 + 1 < 2 by decide)
  rw [hoff] at hoff1 hbytes
  obtain ⟨hsize, -⟩ := List.cons.inj hbytes
  have hlast := nextDeframer_v1Header (cap := cap) (b := cmd) hst1 hoff1
  rw [hsize] at hlast
  exact runDeframer_snoc hrun hlast

/-- The five bytes of a V2 header. -/
theorem runDeframer_v2Header {v : WireVersion} (hv : v ≠ .v1) (hst : d.state = v.headerState) (hoff : d.offset = 0)
    (flags : Byte) (cmd size : Half) :
    runDeframer cap (v2Header flags cmd size) d = some
      (if cap < size.toNat then { d.stageAll v (v2Header flags cmd size) with state := .idle }
       else (d.stageAll v (v2Header flags cmd size)).record v size cmd flags) := by
  obtain ⟨hrun, hst4, hoff4, hbytes⟩ := runDeframer_stageAll (cap := cap) (v := v)
    (bytes := [flags, lo8 cmd, hi8 cmd, lo8 size]) hst
    (by rw [hoff, v.headerLength_of_ne_v1 hv]; exact show 0 + 4 < 5 by decide)
  rw [hoff] at hoff4 hbytes
  have hread : [hdrByte _ 0, hdrByte _ 1, hdrByte _ 2, hdrByte _ 3] = [flags, lo8 cmd, hi8 cmd, lo8 size] := hbytes
  simp only [List.cons.injEq] at hread
  obtain ⟨h0, h1, h2, h3, -⟩ := hread
  have hlast := nextDeframer_v2Header (cap := cap) (b := hi8 size) v hv hst4 hoff4
  rw [h0, h1, h2, h3, u16le_lo8_hi8, u16le_lo8_hi8] at hlast
  exact runDeframer_snoc hrun hlast

/-- The packet registers hold this packet, whatever the receive state. -/
def Holds (version : WireVersion) (ptype : PacketType) (cmd : Half) (flags : Byte) (payload : List Byte)
    (d : Deframer) : Prop :=
  d.version = version ∧ d.ptype = ptype ∧ d.cmd = cmd ∧ d.flags = flags ∧ d.size.toNat = payload.length ∧
    packetPayload d = payload

/-- `d` is `d₀`, where a header has just been recorded, after the payload bytes `p`. -/
structure Deframer.TookPayload (v : WireVersion) (d₀ : Deframer) (p : List Byte) (d : Deframer) : Prop where
  state   : d.state = if p.length = d₀.size.toNat then v.checksumState else v.payloadState
  version : d.version = d₀.version
  ptype   : d.ptype = d₀.ptype
  cmd     : d.cmd = d₀.cmd
  flags   : d.flags = d₀.flags
  size    : d.size = d₀.size
  offset  : d.offset.toNat = p.length
  payload : inBytes d p.length = p
  ck1     : d.ck1 = v.ck1 d₀.ck1 p
  ck2     : d.ck2 = v.ck2 d₀.ck2 p

theorem tookPayload_nil (v : WireVersion) (size cmd : Half) (flags : Byte) (d : Deframer) :
    Deframer.TookPayload v (d.record v size cmd flags) [] (d.record v size cmd flags) := by
  refine ⟨?_, rfl, rfl, rfl, rfl, rfl, rfl, rfl, by cases v <;> rfl, by cases v <;> rfl⟩
  have hzero : size = 0 ↔ 0 = size.toNat := by rw [← BitVec.toNat_inj, eq_comm]; rfl
  exact if_congr hzero rfl rfl

theorem Deframer.TookPayload.store {v : WireVersion} {d₀ d : Deframer} {p : List Byte} {b : Byte}
    (h : Deframer.TookPayload v d₀ p d) (hcap : cap ≤ 254) (hsize : d₀.size.toNat ≤ cap)
    (hlt : p.length < d₀.size.toNat) :
    nextDeframer cap b d = some (d.store v b) ∧ Deframer.TookPayload v d₀ (p ++ [b]) (d.store v b) := by
  obtain ⟨hst, hversion, hptype, hcmd, hflags, hsz, hoff, hpay, hck1, hck2⟩ := h
  rw [if_neg hlt.ne] at hst
  have hsucc : (d.offset + 1).toNat = p.length + 1 := by
    rw [toNat_succ_of_lt (n := 254) (by omega) (by decide), hoff]
  refine ⟨nextDeframer_store v hst (by omega), ?_, hversion, hptype, hcmd, hflags, hsz, ?_, ?_, ?_, ?_⟩
  · have hdone : d.offset + 1 = d.size ↔ (p ++ [b]).length = d₀.size.toNat := by
      rw [List.length_append, List.length_singleton, ← hsucc, ← hsz]
      exact BitVec.toNat_inj.symm
    exact if_congr hdone rfl hst
  · rw [List.length_append]; exact hsucc
  · have hstore := inBytes_store d (d.store v b) p.length b (by rw [← hoff]; rfl) rfl
    rw [List.length_append, List.length_singleton, hstore, hpay]
  · rw [v.ck1_append, ← hck1]; rfl
  · rw [v.ck2_append, ← hck2]; rfl

theorem Deframer.TookPayload.run {v : WireVersion} {d₀ d : Deframer} {p q : List Byte}
    (h : Deframer.TookPayload v d₀ p d) (hcap : cap ≤ 254) (hsize : d₀.size.toNat ≤ cap)
    (hle : p.length + q.length ≤ d₀.size.toNat) :
    ∃ d', runDeframer cap q d = some d' ∧ Deframer.TookPayload v d₀ (p ++ q) d' := by
  induction q generalizing p d with
  | nil => exact ⟨d, rfl, by rwa [List.append_nil]⟩
  | cons b bs ih =>
    rw [List.length_cons] at hle
    obtain ⟨hnext, hstore⟩ := h.store (b := b) hcap hsize (by omega)
    obtain ⟨d', hrun, htook⟩ := ih hstore (by rw [List.length_append, List.length_singleton]; omega)
    exact ⟨d', by rw [runDeframer_cons hnext, hrun], by rwa [List.append_assoc] at htook⟩

/-- `d'` is `d`, at the start of a packet's innermost header, after the packet's bytes `taken`: the packet is held, and
its checksums are those of `taken`. -/
structure Deframer.TookPacket (v : WireVersion) (d : Deframer) (cmd : Half) (flags : Byte) (p taken : List Byte)
    (d' : Deframer) : Prop where
  state : d'.state = v.checksumState
  holds : Holds d.version d.ptype cmd flags p d'
  ck1   : d'.ck1 = v.ck1 d.ck1 taken
  ck2   : d'.ck2 = v.ck2 d.ck2 taken

/-- The payload after a recorded header. -/
theorem exists_runDeframer_payload {v : WireVersion} {size : Half} {p : List Byte} (cmd : Half) (flags : Byte)
    (hcap : cap ≤ 254) (hp : p.length ≤ cap) (hsize : size.toNat = p.length) :
    ∃ d', runDeframer cap p (d.record v size cmd flags) = some d' ∧ Deframer.TookPacket v d cmd flags p p d' := by
  obtain ⟨d', hrun, htook⟩ := (tookPayload_nil v size cmd flags d).run (q := p) hcap (hsize.trans_le hp)
    (by rw [List.length_nil, Nat.zero_add]; exact hsize.ge)
  obtain ⟨hst, hversion, hptype, hcmd, hflags, hsz, -, hpay, hck1, hck2⟩ := htook
  have hlen : d'.size.toNat = p.length := by rw [hsz]; exact hsize
  refine ⟨d', hrun, hst.trans (if_pos hsize.symm), ⟨hversion, hptype, hcmd, hflags, hlen, ?_⟩, hck1, hck2⟩
  rw [packetPayload, hlen]
  exact hpay

/-- A V1 header and its payload. -/
theorem exists_runDeframer_v1Packet {cmd : Byte} {p : List Byte} (hst : d.state = .headerV1) (hoff : d.offset = 0)
    (hcap : cap ≤ 254) (hp : p.length ≤ cap) (hcmd : cmd ≠ sentinel) :
    let taken := [BitVec.ofNat 8 p.length, cmd] ++ p
    ∃ d', runDeframer cap taken d = some d' ∧ Deframer.TookPacket .v1 d (cmd.setWidth 16) 0 p taken d' := by
  intro taken
  have hsize : (BitVec.ofNat 8 p.length).toNat = p.length := toNat_ofNat_byte (by omega)
  obtain ⟨d', hrun, hst', hholds, hck1, hck2⟩ := exists_runDeframer_payload (v := .v1)
    (d := d.stageAll .v1 [BitVec.ofNat 8 p.length, cmd]) (size := (BitVec.ofNat 8 p.length).setWidth 16)
    (cmd.setWidth 16) 0 hcap hp (by rw [BitVec.toNat_setWidth_of_le (by decide), hsize])
  refine ⟨d', ?_, hst', hholds, hck1, hck2⟩
  rw [runDeframer_append, runDeframer_v1Header hst hoff, Option.bind_some, if_neg (by omega), if_neg hcmd, hrun]

/-- A V2 header and its payload. -/
theorem exists_runDeframer_v2Packet {v : WireVersion} {p : List Byte} (cmd : Half) (flags : Byte) (hv : v ≠ .v1)
    (hst : d.state = v.headerState) (hoff : d.offset = 0) (hcap : cap ≤ 254) (hp : p.length ≤ cap) :
    let taken := v2Header flags cmd (BitVec.ofNat 16 p.length) ++ p
    ∃ d', runDeframer cap taken d = some d' ∧ Deframer.TookPacket v d cmd flags p taken d' := by
  intro taken
  have hsize : (BitVec.ofNat 16 p.length).toNat = p.length := toNat_ofNat_half (by omega)
  obtain ⟨d', hrun, hst', hholds, hck1, hck2⟩ := exists_runDeframer_payload (v := v)
    (d := d.stageAll v (v2Header flags cmd (BitVec.ofNat 16 p.length))) cmd flags hcap hp hsize
  rw [Deframer.stageAll_version, Deframer.stageAll_ptype] at hholds
  refine ⟨d', ?_, hst', hholds, hck1.trans ?_, hck2.trans ?_⟩
  · rw [runDeframer_append, runDeframer_v2Header hv hst hoff, if_neg (by omega), Option.bind_some, hrun]
  · rw [v.ck1_append, Deframer.stageAll_ck1]
  · rw [v.ck2_append, Deframer.stageAll_ck2]

/-- A V1 header that announces a V2 packet, and that packet. -/
theorem exists_runDeframer_v2OverV1Packet {v1Size : Byte} {p : List Byte} (cmd : Half) (flags : Byte)
    (hst : d.state = .headerV1) (hoff : d.offset = 0) (hcap : cap ≤ 254) (hp : p.length ≤ cap)
    (h6 : 6 ≤ v1Size.toNat) (hv1 : v1Size.toNat ≤ cap) :
    let taken := v2Header flags cmd (BitVec.ofNat 16 p.length) ++ p
    ∃ d', runDeframer cap ([v1Size, sentinel] ++ taken) d = some d' ∧
      Deframer.TookPacket .v2OverV1 (d.stageAll .v1 [v1Size, sentinel]).enterV2 cmd flags p taken d' := by
  intro taken
  obtain ⟨d', hrun, htook⟩ := exists_runDeframer_v2Packet (v := .v2OverV1)
    (d := (d.stageAll .v1 [v1Size, sentinel]).enterV2) cmd flags nofun rfl rfl hcap hp
  refine ⟨d', ?_, htook⟩
  rw [runDeframer_append, runDeframer_v1Header hst hoff, if_neg hv1.not_gt, if_pos rfl, if_pos h6, Option.bind_some,
    hrun]

/-- The two trailer bytes of a V2-over-V1 frame: after a wrong inner CRC the second one arrives in `Idle`
(41_deframer.md R121, R122, 60_exceptions.md R203). -/
theorem runDeframer_v2OverV1Trailer (hst : d.state = .checksumV2OverV1) (k x : Byte) :
    runDeframer cap [k, x] d = some { d with
      ck1 := d.ck1 ^^^ k
      state :=
        if k = d.ck2 then if x = d.ck1 ^^^ k then .commandReceived else .idle
        else if x = chDollar then .headerStart else .idle } := by
  rw [runDeframer_cons (nextDeframer_checksumV2OverV1 hst)]
  by_cases hk : k = d.ck2
  · rw [if_pos hk, if_pos hk]
    exact runDeframer_cons (nextDeframer_checksumV1 rfl) []
  · rw [if_neg hk, if_neg hk]
    exact runDeframer_cons (nextDeframer_idle rfl) []

/-! #### Whole frames -/

/-- The V2 header of a packet that fits the buffer, with the length as one byte. -/
theorem v2Header_of_length_le {n : Nat} (flags : Byte) (cmd : Half) (hn : n ≤ 254) :
    v2Header flags cmd (BitVec.ofNat 16 n) = [flags, lo8 cmd, hi8 cmd, BitVec.ofNat 8 n, 0] := by
  have hlo : lo8 (BitVec.ofNat 16 n) = BitVec.ofNat 8 n := by
    apply BitVec.eq_of_toNat_eq
    simp [lo8]
  have hhi : hi8 (BitVec.ofNat 16 n) = 0 := by
    apply BitVec.eq_of_toNat_eq
    simp [hi8, Nat.shiftRight_eq_div_pow]
    omega
  rw [v2Header, hlo, hhi]

/-- A frame is its start, the packet and the trailer. -/
theorem runDeframer_frame {v : WireVersion} {magic : Byte} {dir : Direction} {packet trailer : List Byte}
    {d₁ d₂ : Deframer} (hidle : d.state = .idle) (hdir : dir ≠ .replyError)
    (hmagic : v = .v1 ∧ magic = chM ∨ v = .v2Native ∧ magic = chX)
    (hpacket : runDeframer cap packet (d.started v (packetTypeOf dir)) = some d₁)
    (htrailer : runDeframer cap trailer d₁ = some d₂) :
    runDeframer cap ([chDollar, magic, dirByte dir] ++ packet ++ trailer) d = some d₂ := by
  rw [runDeframer_append, runDeframer_append, runDeframer_start hidle hmagic hdir, Option.bind_some, hpacket,
    Option.bind_some, htrailer]

section
variable {dir : Direction} {p : List Byte} (hidle : d.state = .idle) (hdir : dir ≠ .replyError) (hcap : cap ≤ 254)
  (hp : p.length ≤ cap)
include hidle hdir hcap hp

/-- A V1 frame is held, and delivered if its checksum is right (41_deframer.md R121, R127). -/
theorem exists_runDeframer_frameV1 {cmd : Byte} (hcmd : cmd ≠ sentinel) (x : Byte) :
    ∃ d', runDeframer cap (frameV1Bytes dir cmd p x) d = some d' ∧
      Holds .v1 (packetTypeOf dir) (cmd.setWidth 16) 0 p d' ∧
      d'.state = if x = xorChecksum 0 ([BitVec.ofNat 8 p.length, cmd] ++ p) then .commandReceived else .idle := by
  obtain ⟨d', hrun, hst, hholds, hck1, -⟩ :=
    exists_runDeframer_v1Packet (d := d.started .v1 (packetTypeOf dir)) rfl rfl hcap hp hcmd
  have hlast := nextDeframer_checksumV1 (cap := cap) (b := x) hst
  rw [hck1] at hlast
  have hframe := runDeframer_frame hidle hdir (.inl ⟨rfl, rfl⟩) hrun (runDeframer_cons hlast [])
  have hbytes : frameV1Bytes dir cmd p x =
      [chDollar, chM, dirByte dir] ++ ([BitVec.ofNat 8 p.length, cmd] ++ p) ++ [x] := by simp [frameV1Bytes]
  rw [hbytes]
  exact ⟨_, hframe, hholds, rfl⟩

/-- A V2-native frame is held, and delivered if its CRC is right (41_deframer.md R123, R127). -/
theorem exists_runDeframer_frameV2Native (flags : Byte) (cmd : Half) (k : Byte) :
    ∃ d', runDeframer cap (frameV2NativeBytes dir flags cmd p k) d = some d' ∧
      Holds .v2Native (packetTypeOf dir) cmd flags p d' ∧
      d'.state = if k = crc8DvbUpdate 0 ([flags, lo8 cmd, hi8 cmd, BitVec.ofNat 8 p.length, 0] ++ p)
        then .commandReceived else .idle := by
  obtain ⟨d', hrun, hst, hholds, -, hck2⟩ := exists_runDeframer_v2Packet (v := .v2Native)
    (d := d.started .v2Native (packetTypeOf dir)) cmd flags nofun rfl rfl hcap hp
  have hlast := nextDeframer_checksumV2Native (cap := cap) (b := k) hst
  rw [hck2, v2Header_of_length_le flags cmd (hp.trans hcap)] at hlast
  have hframe := runDeframer_frame hidle hdir (.inr ⟨rfl, rfl⟩) hrun (runDeframer_cons hlast [])
  have hbytes : frameV2NativeBytes dir flags cmd p k =
      [chDollar, chX, dirByte dir] ++ (v2Header flags cmd (BitVec.ofNat 16 p.length) ++ p) ++ [k] := by
    simp [frameV2NativeBytes]
  rw [hbytes]
  exact ⟨_, hframe, hholds, rfl⟩

/-- A V2-over-V1 frame is held, and delivered if both checksums are right (41_deframer.md R121, R122, R127). -/
theorem exists_runDeframer_frameV2OverV1 {v1Size : Byte} (h6 : 6 ≤ v1Size.toNat) (hv1 : v1Size.toNat ≤ cap)
    (flags : Byte) (cmd : Half) (k x : Byte) :
    let header := [flags, lo8 cmd, hi8 cmd, BitVec.ofNat 8 p.length, 0]
    ∃ d', runDeframer cap (frameV2OverV1Bytes dir v1Size flags cmd p k x) d = some d' ∧
      Holds .v2OverV1 (packetTypeOf dir) cmd flags p d' ∧
      d'.state =
        if k = crc8DvbUpdate 0 (header ++ p) then
          if x = xorChecksum 0 ([v1Size, 255] ++ header ++ p ++ [k]) then .commandReceived else .idle
        else if x = chDollar then .headerStart else .idle := by
  intro header
  obtain ⟨d', hrun, hst, hholds, hck1, hck2⟩ := exists_runDeframer_v2OverV1Packet
    (d := d.started .v1 (packetTypeOf dir)) cmd flags rfl rfl hcap hp h6 hv1
  have htrailer := runDeframer_v2OverV1Trailer (cap := cap) hst k x
  have hheader : v2Header flags cmd (BitVec.ofNat 16 p.length) = header :=
    v2Header_of_length_le flags cmd (hp.trans hcap)
  have hxor : d'.ck1 ^^^ k = xorChecksum 0 ([v1Size, 255] ++ header ++ p ++ [k]) := by
    rw [xorChecksum_snoc, List.append_assoc, xorChecksum_append, hck1, hheader]
    rfl
  rw [hck2, hxor, hheader] at htrailer
  have hframe := runDeframer_frame hidle hdir (.inl ⟨rfl, rfl⟩) hrun htrailer
  have hbytes : frameV2OverV1Bytes dir v1Size flags cmd p k x = [chDollar, chM, dirByte dir] ++
      ([v1Size, sentinel] ++ (v2Header flags cmd (BitVec.ofNat 16 p.length) ++ p)) ++ [k, x] := by
    simp [frameV2OverV1Bytes]
  rw [hbytes]
  exact ⟨_, hframe, hholds, rfl⟩

end
end

/-! ### Delivered and dropped frames (41_deframer.md R121 to R123, R127 to R129) -/

/-- Settles O42: a right checksum byte leads to `CommandReceived`. -/
theorem goodV1FrameIsDelivered : Obligations.GoodV1FrameIsDelivered := by
  intro s dir cmd p hs hidle hdir hp hcmd
  obtain ⟨d, hrun, hholds, hst⟩ := exists_runDeframer_frameV1 hidle hdir hs.cfg.1 hp hcmd
    (xorChecksum 0 ([BitVec.ofNat 8 p.length, cmd] ++ p))
  rw [if_pos rfl] at hst
  obtain ⟨t, ht, rfl, hck, htx⟩ := exec_of_run (i := .frameV1 dir _ p _) rfl hrun
  exact ⟨t, ht, ⟨hst, hholds⟩, hck, htx⟩

/-- Settles O43: a right CRC byte leads to `CommandReceived`. -/
theorem goodV2NativeFrameIsDelivered : Obligations.GoodV2NativeFrameIsDelivered := by
  intro s dir flags cmd p hs hidle hdir hp
  obtain ⟨d, hrun, hholds, hst⟩ := exists_runDeframer_frameV2Native hidle hdir hs.cfg.1 hp flags cmd
    (crc8DvbUpdate 0 ([flags, lo8 cmd, hi8 cmd, BitVec.ofNat 8 p.length, 0] ++ p))
  rw [if_pos rfl] at hst
  obtain ⟨t, ht, rfl, hck, htx⟩ := exec_of_run (i := .frameV2Native dir flags cmd p _) rfl hrun
  exact ⟨t, ht, ⟨hst, hholds⟩, hck, htx⟩

/-- Settles O44: two right trailer bytes lead to `CommandReceived`. -/
theorem goodV2OverV1FrameIsDelivered : Obligations.GoodV2OverV1FrameIsDelivered := by
  intro s dir v1Size flags cmd p k hs hidle hdir hp h6 hv1 hk
  obtain ⟨d, hrun, hholds, hst⟩ := exists_runDeframer_frameV2OverV1 hidle hdir hs.cfg.1 hp h6 hv1 flags cmd k
    (xorChecksum 0 ([v1Size, 255, flags, lo8 cmd, hi8 cmd, BitVec.ofNat 8 p.length, 0] ++ p ++ [k]))
  obtain ⟨t, ht, rfl, hck, htx⟩ := exec_of_run (i := .frameV2OverV1 dir v1Size flags cmd p k _) rfl hrun
  exact ⟨t, ht, ⟨hst.trans ((if_pos hk).trans (if_pos rfl)), hholds⟩, hck, htx⟩

/-- Settles O45: a wrong trailer byte does not lead to `CommandReceived`. -/
theorem corruptedFramesAreDropped : Obligations.CorruptedFramesAreDropped := by
  intro s dir v1Size flags cmd p k x hs hidle hdir hp header
  refine ⟨fun hcmd hx => ?_, fun hk => ?_, fun h6 hv1 hk => ?_, fun h6 hv1 hk hx => ?_⟩
  · obtain ⟨d, hrun, -, hst⟩ := exists_runDeframer_frameV1 hidle hdir hs.cfg.1 hp hcmd x
    obtain ⟨t, ht, rfl, -, -⟩ := exec_of_run (i := .frameV1 dir _ p _) rfl hrun
    exact ⟨t, ht, hst.trans (if_neg hx)⟩
  · obtain ⟨d, hrun, -, hst⟩ := exists_runDeframer_frameV2Native hidle hdir hs.cfg.1 hp flags cmd k
    obtain ⟨t, ht, rfl, -, -⟩ := exec_of_run (i := .frameV2Native dir flags cmd p _) rfl hrun
    exact ⟨t, ht, hst.trans (if_neg hk)⟩
  · obtain ⟨d, hrun, -, hst⟩ := exists_runDeframer_frameV2OverV1 hidle hdir hs.cfg.1 hp h6 hv1 flags cmd k x
    obtain ⟨t, ht, rfl, -, -⟩ := exec_of_run (i := .frameV2OverV1 dir v1Size flags cmd p k _) rfl hrun
    exact ⟨t, ht, hst.trans (if_neg hk)⟩
  · obtain ⟨d, hrun, -, hst⟩ := exists_runDeframer_frameV2OverV1 hidle hdir hs.cfg.1 hp h6 hv1 flags cmd k x
    obtain ⟨t, ht, rfl, -, -⟩ := exec_of_run (i := .frameV2OverV1 dir v1Size flags cmd p k _) rfl hrun
    exact ⟨t, ht, (hst.trans (if_pos hk)).trans (if_neg hx)⟩

/-! ### Jumbo frames (41_deframer.md R130) -/

/-- A V1 size of 255 is over the capacity, so the command byte aborts the frame. -/
theorem runDeframer_jumboHead {cap : Nat} {d : Deframer} {dir : Direction} (hidle : d.state = .idle)
    (hdir : dir ≠ .replyError) (hcap : cap ≤ 254) (cmd : Byte) :
    runDeframer cap [chDollar, chM, dirByte dir, sentinel, cmd] d = some
      { Deframer.stageAll .v1 [sentinel, cmd] (d.started .v1 (packetTypeOf dir)) with state := .idle } := by
  have hheader := runDeframer_v1Header (cap := cap) (d := d.started .v1 (packetTypeOf dir)) (size := sentinel)
    (cmd := cmd) rfl rfl
  have hover : cap < sentinel.toNat := show cap < 255 by omega
  have hframe := runDeframer_frame hidle hdir (.inl ⟨rfl, rfl⟩) hheader (trailer := []) rfl
  rwa [if_pos hover] at hframe

/-- Settles O47: the head aborts the frame and the rest is presented in `Idle`. -/
theorem jumboFramesAreNotReceived : Obligations.JumboFramesAreNotReceived := by
  intro s dir i cmd rest hs hidle hdir _ hbytes
  have hrun := runDeframer_jumboHead hidle hdir hs.cfg.1 cmd
  obtain ⟨u, hu, hurx⟩ := presentBytes_of_run hrun
  have hidle' : u.rx.state = .idle := by rw [hurx]
  have hexec : exec i s = presentBytes rest u := by
    rw [exec_of_encode_wire hbytes, presentBytes_append]
    exact congrArg (andThen · _) hu
  refine ⟨u, (execAll_rxFrame _ s).trans hu, hidle', hexec.trans (execAll_rxFrame rest u).symm, fun hnoise => ?_⟩
  have htouch := presentBytes_touchesOnly hu
  refine ⟨_, hexec.trans (presentBytes_noise hidle' hnoise), rfl, ?_⟩
  rw [hurx]
  exact ⟨rfl, rfl, rfl, rfl, rfl, rfl, htouch.ck nofun, htouch.tx nofun⟩

/-! ### Only frames are delivered (41_deframer.md R128) -/

/-- From `d` these bytes lead to `CommandReceived` on the last one, and to `Idle` on none before. -/
inductive Delivers (cap : Nat) : List Byte → Deframer → Prop
  | done {d : Deframer} (h : d.state = .commandReceived) : Delivers cap [] d
  | byte {b : Byte} {bs : List Byte} {d d' : Deframer} (h : d.state ≠ .idle) (hnext : nextDeframer cap b d = some d')
      (hrest : Delivers cap bs d') : Delivers cap (b :: bs) d

/-- Bytes that end in `CommandReceived` with no earlier visit to it or to `Idle`. -/
theorem delivers_of_presentBytes {bytes : List Byte} {s t : State} (h : presentBytes bytes s = .next t)
    (hst : t.rx.state = .commandReceived)
    (hvisit : ∀ k u, k < bytes.length → presentBytes (bytes.take k) s = .next u →
      u.rx.state ≠ .idle ∧ u.rx.state ≠ .commandReceived) : Delivers s.cfg.inCap bytes s.rx := by
  induction bytes generalizing s with
  | nil => cases h; exact .done hst
  | cons b bs ih =>
    obtain ⟨hidle, hpending⟩ := hvisit 0 s (Nat.zero_lt_succ _) rfl
    obtain ⟨v, hv, ht⟩ := andThen_next_iff.1 h
    obtain ⟨hst', -⟩ | ⟨m, d, hm, hd, rfl⟩ := presentByte_next_iff.1 hv
    · exact absurd hst' hpending
    · refine .byte hidle (Option.bind_eq_some_iff.2 ⟨m, hm, hd⟩) (ih ht fun k u hk hu => ?_)
      refine hvisit (k + 1) u (Nat.succ_lt_succ hk) ?_
      rw [List.take_succ_cons, presentBytes_cons, hv, andThen_next, hu]

section
variable {cap : Nat} {d : Deframer} {bytes : List Byte}

theorem Delivers.state_ne_idle (h : Delivers cap bytes d) : d.state ≠ .idle := by
  cases h with
  | done h => rw [h]; nofun
  | byte h _ _ => exact h

theorem Delivers.eq_nil (h : Delivers cap bytes d) (hst : d.state = .commandReceived) : bytes = [] := by
  cases h with
  | done _ => rfl
  | byte _ hnext _ =>
    obtain ⟨m, hm, -⟩ := Option.bind_eq_some_iff.1 hnext
    rw [(rxRule_eq_none_iff cap _).2 hst] at hm
    cases hm

/-- In a state other than `CommandReceived` there is a next byte. -/
theorem Delivers.exists_next (h : Delivers cap bytes d) (hst : d.state ≠ .commandReceived) :
    ∃ b bs d', bytes = b :: bs ∧ nextDeframer cap b d = some d' ∧ Delivers cap bs d' := by
  cases h with
  | done h => exact absurd h hst
  | byte _ hnext hrest => exact ⟨_, _, _, rfl, hnext, hrest⟩

/-- What the first bytes leave is delivered by the others. -/
theorem Delivers.drop {xs ys : List Byte} {d' : Deframer} (h : Delivers cap (xs ++ ys) d)
    (hrun : runDeframer cap xs d = some d') : Delivers cap ys d' := by
  induction xs generalizing d with
  | nil => cases hrun; exact h
  | cons b bs ih =>
    cases h with
    | byte _ hnext hrest =>
      rw [runDeframer_cons hnext] at hrun
      exact ih hrest hrun

/-- Bytes that leave the deframer in another state than `CommandReceived` deliver nothing. -/
theorem Delivers.state_of_run {d' : Deframer} (h : Delivers cap bytes d) (hrun : runDeframer cap bytes d = some d') :
    d'.state = .commandReceived := by
  rw [← List.append_nil bytes] at h
  cases h.drop hrun with
  | done h => exact h

/-! #### The trailer -/

/-- A state that goes on for the byte `x` only accepts `x` only. -/
theorem Delivers.of_choice {q : RxState} {x : Byte} {f : Byte → Byte} (h : Delivers cap bytes d)
    (hst : d.state ≠ .commandReceived)
    (hnext : ∀ b, nextDeframer cap b d = some { d with ck1 := f b, state := if b = x then q else .idle }) :
    ∃ bs, bytes = x :: bs ∧ Delivers cap bs { d with ck1 := f x, state := q } := by
  obtain ⟨b, bs, d', rfl, hb, hrest⟩ := h.exists_next hst
  cases (hnext b).symm.trans hb
  by_cases hx : b = x
  · subst hx
    rw [if_pos rfl] at hrest
    exact ⟨bs, rfl, hrest⟩
  · rw [if_neg hx] at hrest
    exact absurd rfl hrest.state_ne_idle

/-- The trailer that the checksum states of a layout accept, for the running checksums (41_deframer.md R121 to R123). -/
def WireVersion.trailer : WireVersion → Byte → Byte → List Byte
  | .v1, ck1, _ => [ck1]
  | .v2OverV1, ck1, ck2 => [ck2, ck1 ^^^ ck2]
  | .v2Native, _, ck2 => [ck2]

theorem Delivers.checksumV1 (h : Delivers cap bytes d) (hst : d.state = .checksumV1) : bytes = [d.ck1] := by
  obtain ⟨bs, rfl, hrest⟩ := h.of_choice (by rw [hst]; nofun) fun _ => nextDeframer_checksumV1 hst
  rw [hrest.eq_nil rfl]

theorem Delivers.trailer {v : WireVersion} (h : Delivers cap bytes d) (hst : d.state = v.checksumState) :
    bytes = v.trailer d.ck1 d.ck2 := by
  cases v with
  | v1 => exact h.checksumV1 hst
  | v2OverV1 =>
    obtain ⟨bs, rfl, hrest⟩ := h.of_choice (by rw [hst]; nofun) fun _ => nextDeframer_checksumV2OverV1 hst
    rw [hrest.checksumV1 rfl]
    rfl
  | v2Native =>
    obtain ⟨bs, rfl, hrest⟩ := h.of_choice (by rw [hst]; nofun) fun _ => nextDeframer_checksumV2Native hst
    rw [hrest.eq_nil rfl]
    rfl

/-! #### The payload and the headers -/

/-- After a recorded header: as many payload bytes as declared, and the trailer. -/
theorem Delivers.payload {v : WireVersion} {size cmd : Half} {flags : Byte}
    (h : Delivers cap bytes (d.record v size cmd flags)) (hcap : cap ≤ 254) (hsize : size.toNat ≤ cap) :
    ∃ p, size.toNat = p.length ∧ bytes = p ++ v.trailer (v.ck1 d.ck1 p) (v.ck2 d.ck2 p) := by
  have hstart := tookPayload_nil v size cmd flags d
  have hlen : size.toNat ≤ bytes.length := by
    by_contra hlt
    obtain ⟨d', hrun, htook⟩ := hstart.run (q := bytes) hcap hsize
      (by rw [List.length_nil, Nat.zero_add]; exact (Nat.lt_of_not_le hlt).le)
    have hst : d'.state = v.payloadState := htook.state.trans (if_neg (Nat.lt_of_not_le hlt).ne)
    rw [h.state_of_run hrun] at hst
    cases v <;> cases hst
  obtain ⟨p, rest, rfl, hp⟩ : ∃ p rest, bytes = p ++ rest ∧ p.length = size.toNat :=
    ⟨_, _, (List.take_append_drop size.toNat bytes).symm, List.length_take_of_le hlen⟩
  obtain ⟨d', hrun, htook⟩ := hstart.run (q := p) hcap hsize (by rw [List.length_nil, Nat.zero_add]; exact hp.le)
  have htrailer := (h.drop hrun).trailer (htook.state.trans (if_pos hp))
  rw [htook.ck1, htook.ck2] at htrailer
  exact ⟨p, hp.symm, congrArg (p ++ ·) htrailer⟩

/-- A header is not left before its last byte. -/
theorem Delivers.headerLength_le {v : WireVersion} (h : Delivers cap bytes d) (hst : d.state = v.headerState)
    (hoff : d.offset = 0) : v.headerLength ≤ bytes.length := by
  by_contra hlt
  obtain ⟨hrun, hst', -⟩ := runDeframer_stageAll (cap := cap) (bytes := bytes) hst
    (by rw [hoff]; exact (Nat.zero_add _).trans_lt (Nat.lt_of_not_le hlt))
  rw [h.state_of_run hrun] at hst'
  cases v <;> cases hst'

/-- A V1 header within the capacity announces a V2 header or a plain V1 packet. -/
theorem Delivers.v1Header (h : Delivers cap bytes d) (hst : d.state = .headerV1) (hoff : d.offset = 0) :
    ∃ size cmd rest, bytes = size :: cmd :: rest ∧ size.toNat ≤ cap ∧
      (cmd = sentinel ∧ 6 ≤ size.toNat ∧ Delivers cap rest (d.stageAll .v1 [size, cmd]).enterV2 ∨
        cmd ≠ sentinel ∧ Delivers cap rest
          ((d.stageAll .v1 [size, cmd]).record .v1 (size.setWidth 16) (cmd.setWidth 16) 0)) := by
  have hlen : 2 ≤ bytes.length := h.headerLength_le (v := .v1) hst hoff
  obtain ⟨size, cmd, rest, rfl⟩ : ∃ size cmd rest, bytes = size :: cmd :: rest := by
    match bytes, hlen with
    | size :: cmd :: rest, _ => exact ⟨size, cmd, rest, rfl⟩
  have hrest := Delivers.drop (xs := [size, cmd]) h (runDeframer_v1Header hst hoff)
  refine ⟨size, cmd, rest, rfl, ?_⟩
  split_ifs at hrest with hcap hcmd h6
  · exact absurd rfl hrest.state_ne_idle
  · exact ⟨Nat.le_of_not_lt hcap, .inl ⟨hcmd, h6, hrest⟩⟩
  · exact absurd rfl hrest.state_ne_idle
  · exact ⟨Nat.le_of_not_lt hcap, .inr ⟨hcmd, hrest⟩⟩

/-- A V2 header, the payload it declares, and the trailer. -/
theorem Delivers.v2Packet {v : WireVersion} (h : Delivers cap bytes d) (hv : v ≠ .v1) (hst : d.state = v.headerState)
    (hoff : d.offset = 0) (hcap : cap ≤ 254) :
    ∃ f c0 c1 l0 l1 p, p.length ≤ cap ∧ (u16le l0 l1).toNat = p.length ∧
      let taken := [f, c0, c1, l0, l1] ++ p
      bytes = taken ++ v.trailer (v.ck1 d.ck1 taken) (v.ck2 d.ck2 taken) := by
  have hlen : 5 ≤ bytes.length := by rw [← v.headerLength_of_ne_v1 hv]; exact h.headerLength_le hst hoff
  obtain ⟨f, c0, c1, l0, l1, rest, rfl⟩ : ∃ f c0 c1 l0 l1 rest, bytes = [f, c0, c1, l0, l1] ++ rest := by
    match bytes, hlen with
    | f :: c0 :: c1 :: l0 :: l1 :: rest, _ => exact ⟨f, c0, c1, l0, l1, rest, rfl⟩
  have hheader : [f, c0, c1, l0, l1] = v2Header f (u16le c0 c1) (u16le l0 l1) := by simp [v2Header]
  have hrest := h.drop (hheader ▸ runDeframer_v2Header hv hst hoff f (u16le c0 c1) (u16le l0 l1))
  split_ifs at hrest with hover
  · exact absurd rfl hrest.state_ne_idle
  · obtain ⟨p, hsize, rfl⟩ := hrest.payload hcap (Nat.le_of_not_lt hover)
    refine ⟨f, c0, c1, l0, l1, p, by omega, hsize, ?_⟩
    simp only [Deframer.stageAll_ck1, Deframer.stageAll_ck2, v.ck1_append, v.ck2_append, List.append_assoc]

theorem Delivers.direction {next : RxState} (h : Delivers cap bytes d)
    (hst : d.state = .headerM ∧ next = .headerV1 ∨ d.state = .headerX ∧ next = .headerV2Native) :
    ∃ dir ptype rest, (dir = chLess ∨ dir = chGreater) ∧ bytes = dir :: rest ∧
      Delivers cap rest (d.enter next ptype) := by
  have hpending : d.state ≠ .commandReceived := by obtain ⟨hst, -⟩ | ⟨hst, -⟩ := hst <;> rw [hst] <;> nofun
  obtain ⟨dir, rest, d', rfl, hnext, hrest⟩ := h.exists_next hpending
  cases (nextDeframer_direction hst).symm.trans hnext
  split_ifs at hrest with hless hgreater
  · exact ⟨dir, .command, rest, .inl hless, rfl, hrest⟩
  · exact ⟨dir, .reply, rest, .inr hgreater, rfl, hrest⟩
  · exact absurd rfl hrest.state_ne_idle

/-- The magic and the direction of a frame. -/
theorem Delivers.start (h : Delivers cap bytes d) (hst : d.state = .headerStart) :
    ∃ v magic dir ptype rest, (v = .v1 ∧ magic = chM ∨ v = .v2Native ∧ magic = chX) ∧
      (dir = chLess ∨ dir = chGreater) ∧ bytes = magic :: dir :: rest ∧ Delivers cap rest (d.started v ptype) := by
  obtain ⟨magic, bs, d', rfl, hnext, hbs⟩ := h.exists_next (by rw [hst]; nofun)
  cases (nextDeframer_headerStart hst).symm.trans hnext
  split_ifs at hbs with hM hX
  · obtain ⟨dir, ptype, rest, hdir, rfl, hrest⟩ := hbs.direction (.inl ⟨rfl, rfl⟩)
    exact ⟨.v1, magic, dir, ptype, rest, .inl ⟨rfl, hM⟩, hdir, rfl, hrest⟩
  · obtain ⟨dir, ptype, rest, hdir, rfl, hrest⟩ := hbs.direction (.inr ⟨rfl, rfl⟩)
    exact ⟨.v2Native, magic, dir, ptype, rest, .inr ⟨rfl, hX⟩, hdir, rfl, hrest⟩
  · exact absurd rfl hbs.state_ne_idle

/-- After `$ M dir`: form (a) or form (c) of 41_deframer.md R128. -/
theorem Delivers.acceptedFrame_v1 {dir : Byte} {ptype : PacketType} (h : Delivers cap bytes (d.started .v1 ptype))
    (hcap : cap ≤ 254) (hdir : dir = chLess ∨ dir = chGreater) :
    AcceptedFrame cap ([chDollar, chM, dir] ++ bytes) := by
  obtain ⟨size, cmd, rest, rfl, hsize, ⟨rfl, h6, hrest⟩ | ⟨hcmd, hrest⟩⟩ := h.v1Header rfl rfl
  · obtain ⟨f, c0, c1, l0, l1, p, hp, hlen, rfl⟩ := hrest.v2Packet (v := .v2OverV1) nofun rfl rfl hcap
    have hxor : WireVersion.v2OverV1.ck1 (xorChecksum 0 [size, sentinel]) ([f, c0, c1, l0, l1] ++ p) ^^^
        crc8DvbUpdate 0 ([f, c0, c1, l0, l1] ++ p) = xorChecksum 0
          ([size, 255, f, c0, c1, l0, l1] ++ p ++ [crc8DvbUpdate 0 ([f, c0, c1, l0, l1] ++ p)]) := by
      rw [xorChecksum_snoc]; rfl
    refine ⟨dir, hdir, p, hp, .inr (.inr ⟨size, f, c0, c1, l0, l1, _, h6, hsize, hlen, rfl, ?_⟩)⟩
    rw [← hxor]
    rfl
  · have hwide : (size.setWidth 16).toNat = size.toNat := BitVec.toNat_setWidth_of_le (by decide)
    obtain ⟨p, hlen, rfl⟩ := hrest.payload hcap (hwide.trans_le hsize)
    have hbyte : size = BitVec.ofNat 8 p.length := by
      rw [← hlen, hwide, BitVec.ofNat_toNat, BitVec.setWidth_eq]
    refine ⟨dir, hdir, p, by omega, .inl ⟨cmd, hcmd, ?_⟩⟩
    rw [← hbyte]
    rfl

/-- After `$ X dir`: form (b) of 41_deframer.md R128. -/
theorem Delivers.acceptedFrame_v2Native {dir : Byte} {ptype : PacketType}
    (h : Delivers cap bytes (d.started .v2Native ptype)) (hcap : cap ≤ 254) (hdir : dir = chLess ∨ dir = chGreater) :
    AcceptedFrame cap ([chDollar, chX, dir] ++ bytes) := by
  obtain ⟨f, c0, c1, l0, l1, p, hp, hlen, rfl⟩ := h.v2Packet (v := .v2Native) nofun rfl rfl hcap
  exact ⟨dir, hdir, p, hp, .inr (.inl ⟨f, c0, c1, l0, l1, hlen, rfl⟩)⟩

end

/-- Settles O46: the bytes are what the receive states accept one after another. -/
theorem onlyWellFormedFramesAreDelivered : Obligations.OnlyWellFormedFramesAreDelivered := by
  intro s t bytes hs hidle h hst hvisit
  rw [execAll_rxFrame] at h
  cases bytes with
  | nil =>
    cases h
    rw [hidle] at hst
    cases hst
  | cons b bs =>
    have hfirst := presentByte_of_next (s := s) (nextDeframer_idle (b := b) hidle)
    rw [presentBytes_cons, hfirst, andThen_next] at h
    have hdelivers := delivers_of_presentBytes h hst fun k u hk hu => by
      refine hvisit (k + 1) u (Nat.succ_pos k) (Nat.succ_lt_succ hk) ?_
      rw [execAll_rxFrame, List.take_succ_cons, presentBytes_cons, hfirst, andThen_next, hu]
    by_cases hb : b = chDollar
    · subst hb
      rw [if_pos rfl] at hdelivers
      obtain ⟨v, magic, dir, ptype, rest, ⟨rfl, rfl⟩ | ⟨rfl, rfl⟩, hdir, rfl, hrest⟩ := hdelivers.start rfl
      · exact hrest.acceptedFrame_v1 hs.cfg.1 hdir
      · exact hrest.acceptedFrame_v2Native hs.cfg.1 hdir
    · rw [if_neg hb] at hdelivers
      exact absurd rfl hdelivers.state_ne_idle

end Sys2Proof.Machine
end

section
/-! The family of 42_encoder.md: the frames the encoder makes, byte by byte and by length (O51, O53, O58), `TXGO` and
`TXB` (O54, O55) and the draining of a whole frame (O56), the frozen reply (O57), and the way of a sent frame back
through the deframer (O59). -/

namespace Sys2Proof.Machine

/-! ### The bytes of a frame (42_encoder.md R151 to R155) -/

section
variable {result : ReplyResult} {dir : Byte} (hdir : replyDirection result = some dir) (cmd : Half) (flags : Byte)
  {p : List Byte}
include hdir

theorem frame_v1_of_le (hlen : p.length ≤ 254) : frame .v1 result cmd flags p =
    [chDollar, chM, dir, BitVec.ofNat 8 p.length, lo8 cmd] ++ p ++
      [xorChecksum 0 ([BitVec.ofNat 8 p.length, lo8 cmd] ++ p)] := by
  have hplain : p.length < 255 := by omega
  simp only [frame, hdir, frameV1Of, if_pos hplain]
  rfl

theorem frame_v1_jumbo (hlen : 255 ≤ p.length) : frame .v1 result cmd flags p =
    [chDollar, chM, dir, sentinel, lo8 cmd, lo8 (BitVec.ofNat 16 p.length), hi8 (BitVec.ofNat 16 p.length)] ++ p ++
      [xorChecksum 0
        ([sentinel, lo8 cmd, lo8 (BitVec.ofNat 16 p.length), hi8 (BitVec.ofNat 16 p.length)] ++ p)] := by
  have hjumbo : ¬ p.length < 255 := by omega
  simp only [frame, hdir, frameV1Of, if_neg hjumbo]
  rfl

theorem frame_v2OverV1_of_le (hlen : p.length ≤ 248) :
    let header := v2Header flags cmd (BitVec.ofNat 16 p.length)
    let k := crc8DvbUpdate 0 (header ++ p)
    frame .v2OverV1 result cmd flags p =
      [chDollar, chM, dir, BitVec.ofNat 8 (6 + p.length), sentinel] ++ header ++ p ++
        [k, xorChecksum 0 ([BitVec.ofNat 8 (6 + p.length), sentinel] ++ header ++ p ++ [k])] := by
  have hplain : 6 + p.length < 255 := by omega
  simp only [frame, hdir, frameV2OverV1Of, if_pos hplain]
  rfl

theorem frame_v2OverV1_jumbo (hlen : 249 ≤ p.length) :
    let total := BitVec.ofNat 16 (6 + p.length)
    let header := v2Header flags cmd (BitVec.ofNat 16 p.length)
    let k := crc8DvbUpdate 0 (header ++ p)
    frame .v2OverV1 result cmd flags p =
      [chDollar, chM, dir, sentinel, sentinel, lo8 total, hi8 total] ++ header ++ p ++
        [k, xorChecksum 0 ([sentinel, sentinel, lo8 total, hi8 total] ++ header ++ p ++ [k])] := by
  have hjumbo : ¬ 6 + p.length < 255 := by omega
  simp only [frame, hdir, frameV2OverV1Of, if_neg hjumbo]
  rfl

theorem frame_v2Native (p : List Byte) :
    let header := v2Header flags cmd (BitVec.ofNat 16 p.length)
    frame .v2Native result cmd flags p =
      [chDollar, chX, dir] ++ header ++ p ++ [crc8DvbUpdate 0 (header ++ p)] := by
  simp only [frame, hdir]
  rfl

end

/-- Settles O51: one layout per version and size class; `NoReply` and `Unknown` have no direction byte. -/
theorem frameBytesAreTheLayouts : Obligations.FrameBytesAreTheLayouts := by
  intro cmd flags p result dir hresult
  have hdir : replyDirection result = some dir := by obtain ⟨rfl, rfl⟩ | ⟨rfl, rfl⟩ := hresult <;> rfl
  exact ⟨frame_v1_of_le hdir cmd flags, frame_v1_jumbo hdir cmd flags, frame_v2OverV1_of_le hdir cmd flags,
    frame_v2OverV1_jumbo hdir cmd flags, frame_v2Native hdir cmd flags p,
    fun v => ⟨frame_noReply v cmd flags p, frame_unknown v cmd flags p⟩⟩

/-- Settles O53: the lengths of the five layouts. -/
theorem frameLengthsAreAsTabled : Obligations.FrameLengthsAreAsTabled := by
  intro cmd flags p result hresult
  obtain ⟨dir, hdir⟩ : ∃ dir, replyDirection result = some dir := by
    obtain rfl | rfl := hresult <;> exact ⟨_, rfl⟩
  refine ⟨fun h => ?_, fun h => ?_, fun h => ?_, fun h => ?_, ?_⟩
  · rw [frame_v1_of_le hdir cmd flags h]; simp; omega
  · rw [frame_v1_jumbo hdir cmd flags h]; simp; omega
  · rw [frame_v2OverV1_of_le hdir cmd flags h]; simp; omega
  · rw [frame_v2OverV1_jumbo hdir cmd flags h]; simp; omega
  · rw [frame_v2Native hdir cmd flags p]; simp; omega

/-- Settles O58: the V1 layouts hold the low command byte only. -/
theorem v1FrameIgnoresFlagsAndHighCommandByte : Obligations.V1FrameIgnoresFlagsAndHighCommandByte := by
  intro result cmd cmd' flags flags' p hlo
  have hcmd (dir : Byte) : frameV1Of dir cmd p = frameV1Of dir cmd' p := by simp only [frameV1Of, hlo]
  simp only [frame, hcmd]

/-! ### `TXGO` (42_encoder.md R157) -/

theorem replyDirection_ne_none_iff {result : ReplyResult} :
    replyDirection result ≠ none ↔ result = .ack ∨ result = .error := by
  cases result <;> simp [replyDirection]

/-- An encoder that differs in `tx_busy` and `tx_pos` only shows in those two registers. -/
theorem TouchesOnly.frame_of_sending {s t : State} {busy : Bool} {pos : BitVec 17}
    (h : TouchesOnly (some .encoder) s t) (htx : t.tx = { s.tx with busy := busy, pos := pos }) :
    RegsKept [.txBusy, .txPos] s t ∧ InBufKept [] s t ∧ OutBufKept [] s t ∧ HdrKept [] s t := by
  have hck := h.ck nofun
  have hrx := h.rx nofun
  refine ⟨fun r hr => ?_, fun a _ => by rw [hrx], fun a _ => by rw [htx]; rfl, fun a _ => by rw [hrx]⟩
  cases r with
  | txBusy | txPos => simp at hr
  | _ => simp only [regRead, hck, hrx, htx, h.cfg]

section
variable {s : State}

theorem execTxgo_of_busy (h : s.tx.busy = true) : execTxgo s = .next (s.answer (.refused .txBusy)) := by
  simpa [h] using execTxgo_cases s

theorem execTxgo_of_silent (hidle : s.tx.busy = false) (hdir : replyDirection s.tx.result = none) :
    execTxgo s = .next (s.answer (.ok 0)) := by
  simpa [hidle, hdir] using execTxgo_cases s

theorem execTxgo_of_idle (hidle : s.tx.busy = false) (hdir : replyDirection s.tx.result ≠ none) :
    execTxgo s = .next ((s.setTx { s.tx with busy := true, pos := 0 }).answer
      (.ok (BitVec.ofNat 32 (replyFrame s.tx).length))) := by
  simpa [hidle, hdir] using execTxgo_cases s

end

/-- Settles O54: one clause per case of `TXGO`. -/
theorem txgoStartsTheFrame : Obligations.TxgoStartsTheFrame := by
  intro s
  refine ⟨execTxgo_of_busy, fun hidle hresult => ?_, fun hidle hresult => ?_, rfl⟩
  · exact execTxgo_of_silent hidle (replyDirection_eq_none_iff.2 hresult)
  · have hgo := execTxgo_of_idle hidle (replyDirection_ne_none_iff.2 hresult)
    obtain ⟨hregs, hin, hout, hhdr⟩ := (execTxgo_touchesOnly hgo).frame_of_sending rfl
    exact ⟨_, hgo, rfl, hregs, hin, hout, hhdr, by simp [Answered]⟩

/-! ### `TXB` (42_encoder.md R158) -/

/-- The byte in the low bits and the `last` mark in bit 8 do not overlap. -/
theorem byte_or_last (byte : Byte) (last : Bool) : byte.setWidth 32 ||| (BitVec.ofBool last).setWidth 32 <<< 8 =
    byte.setWidth 32 + if last then 256 else 0 := by
  cases last with
  | false => simp
  | true => revert byte; decide

theorem execTxb_of_lt {s : State} {whole : List Byte} (hbusy : s.tx.busy = true) (hwhole : replyFrame s.tx = whole)
    (hpos : s.tx.pos.toNat < whole.length) :
    execTxb s = .next (((s.setTx
      { s.tx with pos := s.tx.pos + 1, busy := decide (s.tx.pos.toNat + 1 ≠ whole.length) }).produce
        (whole.getD s.tx.pos.toNat 0)).answer (txbResponse whole s.tx.pos.toNat)) := by
  have hbyte : whole[s.tx.pos.toNat]? = some (whole.getD s.tx.pos.toNat 0) := by simp [hpos]
  have hmore : (!(s.tx.pos.toNat + 1 == whole.length)) = decide (s.tx.pos.toNat + 1 ≠ whole.length) :=
    (decide_not ..).symm
  rw [execTxb_of_frame hbusy hwhole hbyte, byte_or_last, hmore, txbResponse]
  simp only [beq_iff_eq]

/-- Settles O55: the two cases of `TXB`. -/
theorem txbHandsOutTheNextByte : Obligations.TxbHandsOutTheNextByte := by
  intro s
  refine ⟨execTxb_refused, fun hbusy hpos => ?_, rfl⟩
  have hb := execTxb_of_lt hbusy rfl hpos
  obtain ⟨hregs, hin, hout, hhdr⟩ := (execTxb_touchesOnly hb).frame_of_sending rfl
  exact ⟨_, hb, rfl, hregs, hin, hout, hhdr, by simp [Answered]⟩

/-! ### A whole frame (42_encoder.md R159, 20_memory.md R47) -/

/-- The block after `TXGO` and `k` times `TXB`, for the frame `whole`. -/
def State.sent (whole : List Byte) (k : Nat) (s : State) : State :=
  { s with
    tx := { s.tx with busy := decide (k ≠ whole.length), pos := BitVec.ofNat 17 k }
    txs := s.txs ++ whole.take k
    responses := s.responses ++ .ok (BitVec.ofNat 32 whole.length) :: (List.range k).map (txbResponse whole) }

theorem execTxgo_sent {s : State} (hidle : s.tx.busy = false) (hdir : replyDirection s.tx.result ≠ none) :
    execTxgo s = .next (s.sent (replyFrame s.tx) 0) := by
  have hlen : 6 ≤ (replyFrame s.tx).length := (frame_length_bounds _ _ _ _ hdir).1
  have hne : 0 ≠ (replyFrame s.tx).length := by omega
  rw [execTxgo_of_idle hidle hdir]
  simp [State.sent, State.setTx, State.answer, hne]

/-- `TXB` hands out byte `k` (42_encoder.md R158); the frame fits the 17 bits of `tx_pos` (10_state.md R30). -/
theorem execTxb_sent {s : State} {whole : List Byte} {k : Nat} (hwhole : replyFrame s.tx = whole)
    (hk : k < whole.length) (hlen : whole.length < 2 ^ 17) :
    execTxb (s.sent whole k) = .next (s.sent whole (k + 1)) := by
  have hpos : (s.sent whole k).tx.pos.toNat = k := Nat.mod_eq_of_lt (hk.trans hlen)
  rw [execTxb_of_lt (s := s.sent whole k) (decide_eq_true hk.ne) hwhole (by rwa [hpos]), hpos]
  have htake : whole.take (k + 1) = whole.take k ++ [whole.getD k 0] := by
    rw [List.take_succ_eq_append_getElem hk, List.getD_eq_getElem _ _ hk]
  simp [State.sent, State.setTx, State.answer, State.produce, List.range_succ, htake, BitVec.ofNat_add]

theorem execAll_txDrain_sent {s : State} {whole : List Byte} (hwhole : replyFrame s.tx = whole)
    (hlen : whole.length < 2 ^ 17) {k n : Nat} (h : k + n ≤ whole.length) :
    execAll (txDrain n) (s.sent whole k) = .next (s.sent whole (k + n)) := by
  induction n generalizing k with
  | zero => rfl
  | succ n ih =>
    have htxb : exec .txb (s.sent whole k) = .next (s.sent whole (k + 1)) :=
      execTxb_sent hwhole (by omega) hlen
    rw [txDrain, List.replicate_succ, execAll_cons, htxb, andThen_next, Nat.add_comm n, ← Nat.add_assoc]
    exact ih (by omega)

/-- Settles O56: after the last `TXB` the whole frame has been sent. -/
theorem drainSendsExactlyTheFrame : Obligations.DrainSendsExactlyTheFrame := by
  intro s _ hidle hresult whole
  have hdir := replyDirection_ne_none_iff.2 hresult
  have hlen : whole.length < 2 ^ 17 := by
    have hmax : whole.length ≤ 14 + (replyPayload s.tx).length := (frame_length_bounds _ _ _ _ hdir).2
    rw [replyPayload_length] at hmax
    have hpayload := s.tx.len.isLt
    omega
  have hgo : exec .txgo s = .next (s.sent whole 0) := execTxgo_sent hidle hdir
  have hdrain := execAll_txDrain_sent (s := s) (whole := whole) rfl hlen (Nat.zero_add _).le
  rw [Nat.zero_add] at hdrain
  refine ⟨s.sent whole whole.length, by rw [execAll_cons, hgo, andThen_next, hdrain], ?_, rfl, ?_,
    Nat.mod_eq_of_lt hlen, rfl, rfl, rfl⟩
  · simp [State.sent]
  · simp [State.sent]

/-! ### The frozen reply (42_encoder.md R160) -/

/-- While a frame is being sent only `tx_busy` and `tx_pos` can change, by `TXB`. -/
theorem exec_tx_of_busy {i : Instr} {s t : State} (hbusy : s.tx.busy = true) (h : exec i s = .next t) :
    ∃ busy pos, t.tx = { s.tx with busy := busy, pos := pos } := by
  have kept {t : State} (ht : t.tx = s.tx) : ∃ busy pos, t.tx = { s.tx with busy := busy, pos := pos } :=
    ⟨s.tx.busy, s.tx.pos, ht⟩
  cases i with
  | wr reg val =>
    obtain ⟨_, rfl⟩ | ⟨r, s', rfl, hs', ht⟩ := execWr_cases h
    · exact kept rfl
    · obtain ⟨_, rfl⟩ | ⟨_, -, hr, -⟩ := regWrite_cases hs'
      · exact kept (by rw [ht]; rfl)
      · cases (execWr_of_busy val hr hbusy).symm.trans h
        exact kept rfl
  | plr _ => obtain ⟨_, rfl⟩ := execPlr_answers h; exact kept rfl
  | plw addr data =>
    have hrefused : execPlw addr data s = .next (s.answer (.refused .txBusy)) := if_pos hbusy
    cases hrefused.symm.trans h
    exact kept rfl
  | txgo => cases (execTxgo_of_busy hbusy).symm.trans h; exact kept rfl
  | txb =>
    obtain ⟨-, hs⟩ | ⟨-, -, hs⟩ | ⟨_, _, -, -, -, hs⟩ := execTxb_cases s <;> cases hs.symm.trans h
    · exact kept rfl
    · exact ⟨_, _, rfl⟩
  | _ => exact kept ((exec_touchesOnly h).tx nofun)

/-- Settles O57: the frame depends on neither `tx_busy` nor `tx_pos`. -/
theorem busyFreezesTheReply : Obligations.BusyFreezesTheReply := by
  intro i s t hbusy h
  obtain ⟨busy, pos, htx⟩ := exec_tx_of_busy hbusy h
  rw [htx]
  exact ⟨rfl, rfl, rfl, rfl, rfl, rfl, replyFrame_setPos s.tx busy pos⟩

/-! ### A sent frame is received (42_encoder.md R164) -/

section
variable {cap : Nat} {d d' : Deframer}

/-- Before the last of the bytes that a deframer takes no packet is pending, for it would not take the next one. -/
theorem exists_runDeframer_take {bytes : List Byte} (h : runDeframer cap bytes d = some d') {k : Nat}
    (hk : k < bytes.length) :
    ∃ d₁, runDeframer cap (bytes.take k) d = some d₁ ∧ d₁.state ≠ .commandReceived := by
  rw [← List.take_append_drop k bytes, runDeframer_append] at h
  obtain ⟨d₁, hrun, hrest⟩ := Option.bind_eq_some_iff.1 h
  refine ⟨d₁, hrun, fun hst => ?_⟩
  rw [List.drop_eq_getElem_cons hk, runDeframer, nextDeframer, (rxRule_eq_none_iff cap _).2 hst] at hrest
  cases hrest

variable {dir : Direction} {p : List Byte} (hidle : d.state = .idle) (hdir : dir ≠ .replyError) (hcap : cap ≤ 254)
  (hp : p.length ≤ cap)
include hidle hdir hcap hp

theorem exists_runDeframer_sentV1 {cmd : Half} (flags : Byte) (hcmd : cmd.toNat ≤ 254) :
    ∃ d', runDeframer cap ((frame .v1 .ack cmd flags p).set 2 (dirByte dir)) d = some d' ∧
      Delivered .v1 (packetTypeOf dir) cmd 0 p d' := by
  have hlo : lo8 cmd ≠ sentinel := by simp [lo8, sentinel, ← BitVec.toNat_inj]; omega
  have hwide : (lo8 cmd).setWidth 16 = cmd := by simp [lo8, ← BitVec.toNat_inj]; omega
  obtain ⟨d', hrun, hholds, hst⟩ := exists_runDeframer_frameV1 hidle hdir hcap hp hlo
    (xorChecksum 0 ([BitVec.ofNat 8 p.length, lo8 cmd] ++ p))
  rw [hwide] at hholds
  rw [frame_v1_of_le rfl cmd flags (hp.trans hcap)]
  exact ⟨d', hrun, hst.trans (if_pos rfl), hholds⟩

theorem exists_runDeframer_sentV2OverV1 (cmd : Half) (flags : Byte) (htotal : 6 + p.length ≤ cap) :
    ∃ d', runDeframer cap ((frame .v2OverV1 .ack cmd flags p).set 2 (dirByte dir)) d = some d' ∧
      Delivered .v2OverV1 (packetTypeOf dir) cmd flags p d' := by
  have hsize : (BitVec.ofNat 8 (6 + p.length)).toNat = 6 + p.length := toNat_ofNat_byte (by omega)
  let taken := v2Header flags cmd (BitVec.ofNat 16 p.length) ++ p
  let k := crc8DvbUpdate 0 taken
  let x := xorChecksum 0 ([BitVec.ofNat 8 (6 + p.length), sentinel] ++ taken ++ [k])
  obtain ⟨d', hrun, hholds, hst⟩ := exists_runDeframer_frameV2OverV1 hidle hdir hcap hp
    (v1Size := BitVec.ofNat 8 (6 + p.length)) (by omega) (by omega) flags cmd k x
  rw [← v2Header_of_length_le flags cmd (hp.trans hcap)] at hst
  rw [frame_v2OverV1_of_le rfl cmd flags (by omega)]
  exact ⟨d', hrun, hst.trans ((if_pos rfl).trans (if_pos rfl)), hholds⟩

theorem exists_runDeframer_sentV2Native (cmd : Half) (flags : Byte) :
    ∃ d', runDeframer cap ((frame .v2Native .ack cmd flags p).set 2 (dirByte dir)) d = some d' ∧
      Delivered .v2Native (packetTypeOf dir) cmd flags p d' := by
  obtain ⟨d', hrun, hholds, hst⟩ := exists_runDeframer_frameV2Native hidle hdir hcap hp flags cmd
    (crc8DvbUpdate 0 (v2Header flags cmd (BitVec.ofNat 16 p.length) ++ p))
  rw [← v2Header_of_length_le flags cmd (hp.trans hcap)] at hst
  rw [frame_v2Native rfl cmd flags p]
  exact ⟨d', hrun, hst.trans (if_pos rfl), hholds⟩

end

/-- Settles O59: the last byte of the frame is taken, and delivers it; so no byte before it did. -/
theorem sentFrameIsReceivedBack : Obligations.SentFrameIsReceivedBack := by
  intro s version cmd flags p b hs hidle hdirByte hover hp hcmd bytes
  obtain ⟨dir, hdir, rfl, hptype⟩ : ∃ dir, dir ≠ .replyError ∧ dirByte dir = b ∧
      packetTypeOf dir = if b = 0x3C then .command else .reply := by
    obtain rfl | rfl := hdirByte
    · exact ⟨.request, nofun, rfl, rfl⟩
    · exact ⟨.replySuccess, nofun, rfl, rfl⟩
  obtain ⟨d, hrun, hdelivered⟩ : ∃ d, runDeframer s.cfg.inCap bytes s.rx = some d ∧
      Delivered version (packetTypeOf dir) cmd (if version = .v1 then 0 else flags) p d := by
    cases version with
    | v1 => exact exists_runDeframer_sentV1 hidle hdir hs.cfg.1 hp flags (hcmd rfl)
    | v2OverV1 => exact exists_runDeframer_sentV2OverV1 hidle hdir hs.cfg.1 hp cmd flags (hover rfl)
    | v2Native => exact exists_runDeframer_sentV2Native hidle hdir hs.cfg.1 hp cmd flags
  constructor
  · obtain ⟨t, ht, rfl⟩ := presentBytes_of_run hrun
    exact ⟨t, (execAll_rxFrame bytes s).trans ht, hptype ▸ hdelivered⟩
  · intro k hk
    obtain ⟨d₁, hrun₁, hst⟩ := exists_runDeframer_take hrun hk
    obtain ⟨u, hu, rfl⟩ := presentBytes_of_run hrun₁
    exact ⟨u, (execAll_rxFrame _ s).trans hu, hst⟩

end Sys2Proof.Machine
end

section
/-! The family of 43_host_access.md: the operations that read (O20, O22) and write (O21, O23) the registers and the
buffers, with their words. -/

namespace Sys2Proof.Machine

/-! ### Words with an operand at a bit `lo` (30_encoding.md R74) -/

theorem toNat_shiftLeft_lt {lo n k : Nat} (v : BitVec n) (h : lo + n ≤ k) : v.toNat <<< lo < 2 ^ k :=
  calc v.toNat <<< lo
    _ < 2 ^ (n + lo) := Nat.shiftLeft_lt v.isLt
    _ ≤ 2 ^ k := Nat.pow_le_pow_right (by decide) (by omega)

theorem toNat_field {lo n : Nat} (v : BitVec n) (h : lo + n ≤ 32) : (field lo v).toNat = v.toNat <<< lo := by
  rw [field, BitVec.toNat_shiftLeft, BitVec.toNat_setWidth_of_le (by omega), Nat.mod_eq_of_lt (toNat_shiftLeft_lt v h)]

/-- A word of an operation with a bit set that the operation's format leaves unnamed is illegal (30_encoding.md R76). -/
theorem decode_of_stray {w : Word} {p : BitVec 4 × Word} (hformat : p ∈ operationFormats) (hop : opcodeOf w = p.1)
    (hstray : w &&& p.2 ≠ 0) : decode (.word w) = .error .strayBits := by
  cases wordReads w with
  | operation unnamed opcode format _ decodes _ =>
    cases List.inj_on_of_nodup_map operationFormats_nodup hformat format (hop.symm.trans opcode)
    exact decodes.trans (whenClear_of_stray _ hstray)
  | reserved opcode free _ _ _ =>
    exact absurd (List.mem_map_of_mem (f := Prod.fst) hformat) (hop.symm.trans opcode ▸ free)

section
variable {lo n m : Nat} (op : BitVec 4) (v : BitVec n) (x : BitVec m) (hm : m ≤ lo) (hn : lo + n ≤ 28)
include hm hn

/-- The word of an opcode, an operand at bit `lo`, and the bits from bit 0 on. -/
theorem fields_eq_ofNat : field 28 op ||| field lo v ||| field 0 x =
    BitVec.ofNat 32 (op.toNat * 0x10000000 + v.toNat * 2 ^ lo + x.toNat) := by
  have hx : x.toNat < 2 ^ lo := BitVec.toNat_lt_twoPow_of_le hm
  have hrest : v.toNat <<< lo ||| x.toNat < 2 ^ 28 :=
    Nat.or_lt_two_pow (toNat_shiftLeft_lt v hn) (BitVec.toNat_lt_twoPow_of_le (by omega))
  have hword : (field 28 op ||| field lo v ||| field 0 x).toNat = op.toNat * 2 ^ 28 + v.toNat * 2 ^ lo + x.toNat :=
    calc (field 28 op ||| field lo v ||| field 0 x).toNat
      _ = op.toNat <<< 28 ||| (v.toNat <<< lo ||| x.toNat) := by
        rw [BitVec.toNat_or, BitVec.toNat_or, toNat_field op (by decide), toNat_field v (by omega),
          toNat_field x (by omega), Nat.shiftLeft_zero, Nat.or_assoc]
      _ = op.toNat <<< 28 + (v.toNat <<< lo + x.toNat) := by
        rw [← Nat.shiftLeft_add_eq_or_of_lt hrest, ← Nat.shiftLeft_add_eq_or_of_lt hx]
      _ = op.toNat * 2 ^ 28 + v.toNat * 2 ^ lo + x.toNat := by
        rw [Nat.shiftLeft_eq, Nat.shiftLeft_eq, Nat.add_assoc]
  calc field 28 op ||| field lo v ||| field 0 x
    _ = BitVec.ofNat 32 (field 28 op ||| field lo v ||| field 0 x).toNat := by
      rw [BitVec.ofNat_toNat, BitVec.setWidth_eq]
    _ = _ := congrArg (BitVec.ofNat 32) hword

theorem opcodeOf_fields : opcodeOf (field 28 op ||| field lo v ||| field 0 x) = op := by
  refine BitVec.eq_of_getLsbD_eq fun i hi => ?_
  have hword : 28 + i < 32 := by omega
  have hv : v.getLsbD (28 + i - lo) = false := BitVec.getLsbD_of_ge _ _ (by omega)
  have hx : x.getLsbD (28 + i) = false := BitVec.getLsbD_of_ge _ _ (by omega)
  simp [opcodeOf, field, hi, hword, hv, hx]

theorem extractLsb'_fields : (field 28 op ||| field lo v ||| field 0 x).extractLsb' 0 m = x := by
  refine BitVec.eq_of_getLsbD_eq fun i hi => ?_
  have hword : i < 32 := by omega
  have hop : i < 28 := by omega
  have hv : i < lo := by omega
  simp [field, hi, hword, hop, hv]

/-- Where the low bits are unnamed, a word with one of them set is illegal (30_encoding.md R76). -/
theorem decode_ofNat_of_stray {unnamed : Word} (hformat : (op, unnamed) ∈ operationFormats)
    (hlow : unnamed.extractLsb' 0 m = BitVec.allOnes m) (hx : x ≠ 0) :
    decode (.word (BitVec.ofNat 32 (op.toNat * 0x10000000 + v.toNat * 2 ^ lo + x.toNat))) = .error .strayBits := by
  rw [← fields_eq_ofNat op v x hm hn]
  refine decode_of_stray hformat (opcodeOf_fields op v x hm hn) fun hclear => hx ?_
  calc x
    _ = (field 28 op ||| field lo v ||| field 0 x).extractLsb' 0 m &&& unnamed.extractLsb' 0 m := by
      rw [extractLsb'_fields op v x hm hn, hlow, BitVec.and_allOnes]
    _ = 0 := by rw [← BitVec.extractLsb'_and, hclear]; exact BitVec.extractLsb'_zero ..

end

/-- The word of an operation whose only operand stands at bit `lo`. -/
theorem field_or_field_eq_ofNat {lo n : Nat} (op : BitVec 4) (v : BitVec n) (hn : lo + n ≤ 28) :
    field 28 op ||| field lo v = BitVec.ofNat 32 (op.toNat * 0x10000000 + v.toNat * 2 ^ lo) := by
  simpa [field] using fields_eq_ofNat op v 0#0 (Nat.zero_le lo) hn

/-! ### The register table (10_state.md R32) -/

theorem mem_allRegs (r : Reg) : r ∈ allRegs := by cases r <;> decide

theorem mem_mappedNumbers_iff {n : BitVec 8} : n ∈ mappedNumbers ↔ ∃ r, regNumber r = n := by
  have htable : mappedNumbers = allRegs.map regNumber := rfl
  simp [htable, mem_allRegs]

theorem mem_descriptorNumbers_iff {n : BitVec 8} :
    n ∈ descriptorNumbers ↔ ∃ r, regDescriptor r = true ∧ regNumber r = n := by
  have htable : descriptorNumbers = (allRegs.filter regDescriptor).map regNumber := rfl
  simp [htable, mem_allRegs]

/-- The largest legal value of a writable register (43_host_access.md R181). -/
def regBound (c : Config) : Reg → Nat
  | .txVersion => 2
  | .txResult => 3
  | .txCmd => 65535
  | .txLen => c.outCap
  | _ => 255

theorem mem_writableNumbers_iff {c : Config} {n : BitVec 8} {bound : Nat} :
    (n, bound) ∈ writableNumbers c ↔ ∃ r, regReadOnly r = false ∧ regNumber r = n ∧ regBound c r = bound := by
  have htable : writableNumbers c =
      (allRegs.filter fun r => !regReadOnly r).map fun r => (regNumber r, regBound c r) := rfl
  simp [htable, mem_allRegs]

theorem regOf_of_unmapped {n : BitVec 8} (h : n ∉ mappedNumbers) : regOf n = none :=
  regOf_eq_none_iff.2 fun r hr => h (mem_mappedNumbers_iff.2 ⟨r, hr.symm⟩)

/-! ### `RD` (43_host_access.md R180) -/

theorem exec_rd_unmapped {n : BitVec 8} (h : n ∉ mappedNumbers) (s : State) :
    exec (.rd n) s = .next (s.answer (.refused .badRegister)) := by
  show execRd n s = _
  rw [execRd, regOf_of_unmapped h, refuse_eq]

/-- Settles O20: the statement's list is the register table, in order, with the value of each register. -/
theorem rdReadsTheNumberedRegister : Obligations.RdReadsTheNumberedRegister := by
  intro s
  have hread (r : Reg) := exec_rd_regNumber r s
  refine ⟨?_, fun n hn => exec_rd_unmapped hn s, fun n => ?_, fun n v hv => ?_⟩
  · simp only [← BitVec.toNat_ofBool, BitVec.ofNat_toNat, List.forall_mem_cons]
    exact ⟨hread .ckXor, hread .ckCrc, hread .cfgInCap, hread .cfgOutCap, hread .rxState, hread .rxVersion,
      hread .rxPtype, hread .rxCmd, hread .rxFlags, hread .rxSize, hread .rxOffset, hread .rxCk1, hread .rxCk2,
      hread .txVersion, hread .txResult, hread .txCmd, hread .txFlags, hread .txLen, hread .txBusy, hread .txPos,
      nofun⟩
  · simpa [encode] using field_or_field_eq_ofNat (lo := 20) 0x1 n (by decide)
  · simpa using decode_ofNat_of_stray (lo := 20) (unnamed := 0x000FFFFF) 0x1 n v (by decide) (by decide) (by decide)
      (by decide) hv

/-! ### `WR` (43_host_access.md R181) -/

theorem exists_versionOf_iff {n : Nat} : (∃ v, versionOf n = some v) ↔ n ≤ 2 := by
  match n with
  | 0 | 1 | 2 | n + 3 => simp [versionOf]

theorem exists_resultOf_iff {n : Nat} : (∃ r, resultOf n = some r) ↔ n ≤ 3 := by
  match n with
  | 0 | 1 | 2 | 3 | n + 4 => simp [resultOf]

section
variable {s : State} {val : Half}

theorem exec_wr_unmapped {n : BitVec 8} (h : n ∉ mappedNumbers) :
    exec (.wr n val) s = .next (s.answer (.refused .badRegister)) := by
  show execWr n val s = _
  rw [execWr, regOf_of_unmapped h, refuse_eq]

theorem exec_wr_readOnly {r : Reg} (h : regReadOnly r = true) :
    exec (.wr (regNumber r) val) s = .next (s.answer (.refused .readOnly)) := by
  show execWr (regNumber r) val s = _
  simp [execWr, h, refuse]

/-- A value that the register does not take (43_host_access.md R181). -/
theorem exec_wr_badValue {r : Reg} (hro : regReadOnly r = false) (hfree : (regDescriptor r && sending s) = false)
    (h : regWrite r val s = none) : exec (.wr (regNumber r) val) s = .next (s.answer (.refused .badValue)) := by
  show execWr (regNumber r) val s = _
  simp [execWr, hro, hfree, h, refuse]

/-- The legal values of a writable register are those up to its bound (43_host_access.md R181). -/
theorem exists_regWrite_iff {r : Reg} (hro : regReadOnly r = false) :
    (∃ t, regWrite r val s = some t) ↔ val.toNat ≤ regBound s.cfg r := by
  have hbyte : (∃ b, byteValue val = some b) ↔ val.toNat ≤ 255 := by simp [byteValue]
  cases r with
  | ckXor | ckCrc | txFlags => simpa [regWrite, regBound] using hbyte
  | txVersion => simpa [regWrite, regBound] using exists_versionOf_iff
  | txResult => simpa [regWrite, regBound] using exists_resultOf_iff
  | txCmd => simpa [regWrite, regBound] using toNat_half_le val
  | txLen => simp [regWrite, regBound]
  | _ => cases hro

theorem setWidth_of_byteValue {b : Byte} (h : byteValue val = some b) : b.setWidth 32 = val.setWidth 32 := by
  obtain ⟨hle, h⟩ := Option.ite_none_right_eq_some.1 h
  cases h
  apply BitVec.eq_of_toNat_eq
  simp [lo8]
  omega

section
variable {r : Reg} {t : State} (h : regWrite r val s = some t)
include h

theorem regRead_regWrite_self : regRead r t = val.setWidth 32 := by
  cases r with
  | ckXor | ckCrc | txFlags =>
    obtain ⟨b, hb, rfl⟩ := Option.map_eq_some_iff.1 h
    exact setWidth_of_byteValue hb
  | txVersion =>
    obtain ⟨v, hv, rfl⟩ := Option.map_eq_some_iff.1 h
    simp [regRead, ← versionOf_eq_some_iff.1 hv]
  | txResult =>
    obtain ⟨v, hv, rfl⟩ := Option.map_eq_some_iff.1 h
    simp [regRead, ← resultOf_eq_some_iff.1 hv]
  | txCmd => cases h; rfl
  | txLen => obtain ⟨-, ht⟩ := Option.ite_none_right_eq_some.1 h; cases ht; rfl
  | _ => cases h

/-- A register write leaves every other register as it is: no two registers share a field of the state. -/
theorem regRead_regWrite_of_ne {r' : Reg} (hne : r' ≠ r) : regRead r' t = regRead r' s := by
  cases r with
  | ckXor | ckCrc | txVersion | txResult | txFlags =>
    obtain ⟨_, -, rfl⟩ := Option.map_eq_some_iff.1 h
    cases r' <;> simp [regRead] at hne ⊢
  | txCmd => cases h; cases r' <;> simp [regRead] at hne ⊢
  | txLen =>
    obtain ⟨-, ht⟩ := Option.ite_none_right_eq_some.1 h
    cases ht; cases r' <;> simp [regRead] at hne ⊢
  | _ => cases h

/-- A register write changes no buffer byte and nothing at the port. -/
theorem regWrite_frame : InBufKept [] s t ∧ OutBufKept [] s t ∧ HdrKept [] s t ∧
    Answered (.ok 0) [] [] s (t.answer (.ok 0)) := by
  obtain ⟨c, rfl⟩ | ⟨e, rfl, -, -, -, hbuf, hdraw⟩ := regWrite_cases h
  · exact ⟨fun _ _ => rfl, fun _ _ => rfl, fun _ _ => rfl, by simp [Answered]⟩
  · exact ⟨fun _ _ => rfl, fun _ _ => by simp [outByte, hbuf, hdraw], fun _ _ => rfl, by simp [Answered]⟩

end
end

/-- Settles O21: each of the tests refuses; behind them the value is within the register's bound and is written. -/
theorem wrTestsThenWritesOneRegister : Obligations.WrTestsThenWritesOneRegister := by
  intro s reg val
  refine ⟨exec_wr_unmapped, fun hmapped hro => ?_, fun hdesc hbusy => ?_, fun bound hbound hfree => ?_, ?_⟩
  · obtain ⟨r, rfl⟩ := mem_mappedNumbers_iff.1 hmapped
    refine exec_wr_readOnly (Bool.eq_true_of_not_eq_false fun hwritable => ?_)
    exact hro (regNumber r, regBound s.cfg r) (mem_writableNumbers_iff.2 ⟨r, hwritable, rfl, rfl⟩) rfl
  · obtain ⟨r, hr, rfl⟩ := mem_descriptorNumbers_iff.1 hdesc
    exact execWr_of_busy val hr hbusy
  · obtain ⟨r, hro, rfl, rfl⟩ := mem_writableNumbers_iff.1 hbound
    have hidle : (regDescriptor r && sending s) = false :=
      Bool.and_eq_false_imp.2 fun hr => hfree (mem_descriptorNumbers_iff.2 ⟨r, hr, rfl⟩)
    constructor
    · intro hlt
      refine exec_wr_badValue hro hidle (Option.eq_none_iff_forall_ne_some.2 fun t ht => ?_)
      exact Nat.not_le_of_lt hlt ((exists_regWrite_iff hro).1 ⟨t, ht⟩)
    · intro hle
      obtain ⟨t, ht⟩ := (exists_regWrite_iff hro).2 hle
      obtain ⟨hin, hout, hhdr, hanswered⟩ := regWrite_frame ht
      refine ⟨_, r, exec_wr_of_regWrite ht hidle, rfl, ?_, fun r' hr' => ?_, hin, hout, hhdr, hanswered⟩
      · rw [regRead_answer, regRead_regWrite_self ht]
      · rw [regRead_answer, regRead_regWrite_of_ne ht (by simpa using hr')]
  · simpa [encode] using fields_eq_ofNat (lo := 20) 0x2 reg val (by decide) (by decide)

/-! ### `IBR` and `PLR` (43_host_access.md R182, R183) -/

theorem exec_plr_of_lt {addr : Half} {s : State} {b : Byte} (h : addr.toNat < s.cfg.outCap)
    (hb : outByte s.tx addr.toNat = b) : exec (.plr addr) s = .next (s.answer (.ok (b.setWidth 32))) := by
  rw [← hb]; exact if_pos h

/-- Settles O22: each read is one test of the address, and the data field has to be zero. -/
theorem bufferReadsAnswerTheByte : Obligations.BufferReadsAnswerTheByte := by
  intro s addr
  refine ⟨fun h => ⟨if_pos h, fun b hb => memRead_of_lookup hb .inBuf _⟩, fun h => if_neg (Nat.not_lt_of_le h),
    fun h => ⟨exec_plr_of_lt h rfl, fun b hb => memRead_of_lookup hb .outBuf _⟩,
    fun h => if_neg (Nat.not_lt_of_le h), ?_, ?_, fun data hdata => ⟨?_, ?_⟩⟩
  · simpa [encode] using field_or_field_eq_ofNat (lo := 8) 0x3 addr (by decide)
  · simpa [encode] using field_or_field_eq_ofNat (lo := 8) 0x4 addr (by decide)
  · simpa using decode_ofNat_of_stray (lo := 8) (unnamed := 0x0F0000FF) 0x3 addr data (by decide) (by decide)
      (by decide) (by decide) hdata
  · simpa using decode_ofNat_of_stray (lo := 8) (unnamed := 0x0F0000FF) 0x4 addr data (by decide) (by decide)
      (by decide) (by decide) hdata

/-! ### `PLW` (43_host_access.md R184) -/

/-- Storing a byte in the payload buffer changes no register and no other byte. -/
theorem frame_storeByte (s : State) (a : Nat) (v : Byte) (r : Response) :
    let t := (s.setTx { s.tx with outBuf := memStore s.tx.outBuf a v }).answer r
    OutBufKept [a] s t ∧ RegsKept [] s t ∧ InBufKept [] s t ∧ HdrKept [] s t ∧ Answered r [] [] s t := by
  refine ⟨fun b hb => ?_, fun reg _ => ?_, fun _ _ => rfl, fun _ _ => rfl, by simp [Answered]⟩
  · exact memRead_memStore_of_ne .outBuf s.tx.draw s.tx.outBuf v (by simpa using hb)
  · cases reg <;> rfl

/-- Settles O23: the two tests in order, then one store to the payload buffer. -/
theorem plwWritesOneByte : Obligations.PlwWritesOneByte := by
  intro s addr data
  refine ⟨fun hbusy => if_pos hbusy, fun hidle hout => ?_, fun hidle hin => ?_, ?_⟩
  · have hnot : ¬ sending s = true := by simp [sending, hidle]
    exact (if_neg hnot).trans (if_pos hout)
  · exact ⟨_, exec_plw_of_lt data hidle hin, exec_plr_of_lt hin (memRead_memStore_self ..),
      frame_storeByte s addr.toNat data (.ok 0)⟩
  · simpa [encode] using fields_eq_ofNat (lo := 8) 0x5 addr data (by decide) (by decide)

end Sys2Proof.Machine
end

section
/-! The family of 60_exceptions.md: when an operation is refused (O18), that no event stops the block (O13), and when a
frame is aborted (O39). -/

namespace Sys2Proof.Machine

/-! ### One answer for every operation word (60_exceptions.md R202) -/

/-- What the table of refusal causes says of an outcome: the refusal it names; where it names none, a good state goes
on, and what goes on has completed with `ok = 1`. -/
def AnswersAs (s : State) (o : Outcome) : Option RefusalCause → Prop
  | some cause => o = .next (s.answer (.refused cause))
  | none => (s.Inv → ∃ t, o = .next t) ∧ ∀ t, o = .next t → ∃ data, t.responses = s.responses ++ [.ok data]

section
variable {s : State}

theorem answersAs_of_next {o : Outcome} {t : State} {data : Word} (h : o = .next t)
    (ht : t.responses = s.responses ++ [.ok data]) : AnswersAs s o none := by
  refine ⟨fun _ => ⟨t, h⟩, fun t' ht' => ?_⟩
  cases h.symm.trans ht'
  exact ⟨data, ht⟩

/-- From a good state an outcome that follows the table goes on. -/
theorem AnswersAs.exists_next {o : Outcome} {cause : Option RefusalCause} (h : AnswersAs s o cause) (hs : s.Inv) :
    ∃ t, o = .next t := by
  cases cause with
  | some cause => exact ⟨_, h⟩
  | none => exact h.1 hs

theorem execRd_answersAs (reg : BitVec 8) : AnswersAs s (exec (.rd reg) s) (refusalOf (.rd reg) s) := by
  rw [refusalOf]
  split_ifs with hreg
  · obtain ⟨r, rfl⟩ := mem_mappedNumbers_iff.1 hreg
    exact answersAs_of_next (exec_rd_regNumber r s) rfl
  · exact exec_rd_unmapped hreg s

/-- The tests of `WR` in their order (60_exceptions.md R203 d). -/
theorem execWr_answersAs (reg : BitVec 8) (val : Half) :
    AnswersAs s (exec (.wr reg val) s) (refusalOf (.wr reg val) s) := by
  obtain ⟨hunmapped, hreadOnly, hbusy, hvalue, -⟩ := wrTestsThenWritesOneRegister s reg val
  rw [refusalOf]
  by_cases hreg : reg ∉ mappedNumbers
  · rw [if_pos hreg]; exact hunmapped hreg
  rw [if_neg hreg]
  cases hfind : (writableNumbers s.cfg).find? fun p => p.1 == reg with
  | none => exact hreadOnly (not_not.1 hreg) (by simpa using hfind)
  | some p =>
    obtain ⟨n, bound⟩ := p
    obtain rfl : n = reg := by simpa using List.find?_some hfind
    dsimp only
    by_cases hfrozen : n ∈ descriptorNumbers ∧ s.tx.busy = true
    · rw [if_pos hfrozen]; exact hbusy hfrozen.1 hfrozen.2
    rw [if_neg hfrozen]
    obtain ⟨hbad, hlegal⟩ := hvalue bound (List.mem_of_find?_eq_some hfind) (by simpa using hfrozen)
    by_cases hbound : bound < val.toNat
    · rw [if_pos hbound]; exact hbad hbound
    · obtain ⟨t, -, ht, -, -, -, -, -, -, hresponses, -⟩ := hlegal (Nat.le_of_not_lt hbound)
      rw [if_neg hbound]; exact answersAs_of_next ht hresponses

theorem execIbr_answersAs (addr : Half) : AnswersAs s (exec (.ibr addr) s) (refusalOf (.ibr addr) s) := by
  obtain ⟨hread, hout, -⟩ := bufferReadsAnswerTheByte s addr
  rw [refusalOf]
  split_ifs with hin
  · exact answersAs_of_next (hread hin).1 rfl
  · exact hout (Nat.le_of_not_lt hin)

theorem execPlr_answersAs (addr : Half) : AnswersAs s (exec (.plr addr) s) (refusalOf (.plr addr) s) := by
  obtain ⟨-, -, hread, hout, -⟩ := bufferReadsAnswerTheByte s addr
  rw [refusalOf]
  split_ifs with hin
  · exact answersAs_of_next (hread hin).1 rfl
  · exact hout (Nat.le_of_not_lt hin)

theorem execPlw_answersAs (addr : Half) (data : Byte) :
    AnswersAs s (exec (.plw addr data) s) (refusalOf (.plw addr data) s) := by
  obtain ⟨hbusy, hout, -⟩ := plwWritesOneByte s addr data
  rw [refusalOf]
  split_ifs with hsending hin
  · exact hbusy hsending
  · exact answersAs_of_next (exec_plw_of_lt data (Bool.eq_false_of_not_eq_true hsending) hin) rfl
  · exact hout (Bool.eq_false_of_not_eq_true hsending) (Nat.le_of_not_lt hin)

/-- A byte is refused behind a pending packet only (41_deframer.md R124). -/
theorem execRxb_answersAs (byte : Byte) : AnswersAs s (exec (.rxb byte) s) (refusalOf (.rxb byte) s) := by
  rw [refusalOf]
  split_ifs with hst
  · exact presentByte_refused byte hst
  · refine ⟨fun hs => ?_, fun t ht => ?_⟩
    · obtain ⟨t, ht, -⟩ := presentByte_ok hs byte
      exact ⟨t, ht⟩
    · obtain ⟨hpending, -⟩ | ⟨_, _, -, -, rfl⟩ := presentByte_next_iff.1 ht
      · exact absurd hpending hst
      · exact ⟨_, rfl⟩

theorem execRxack_answersAs : AnswersAs s (exec .rxack s) (refusalOf .rxack s) := by
  rw [refusalOf]
  split_ifs with hst
  · exact answersAs_of_next (execRxack_of_pending hst) rfl
  · exact execRxack_refused hst

theorem execTxgo_answersAs : AnswersAs s (exec .txgo s) (refusalOf .txgo s) := by
  rw [refusalOf]
  obtain ⟨hbusy, h⟩ | ⟨hidle, -, h⟩ | ⟨hidle, -, h⟩ := execTxgo_cases s
  · rw [if_pos hbusy]; exact h
  · rw [if_neg (by simp [hidle])]; exact answersAs_of_next h rfl
  · rw [if_neg (by simp [hidle])]; exact answersAs_of_next h rfl

/-- `TXB` is refused when nothing is being sent; while busy a good state has a byte of the frame at `tx_pos`
(10_state.md R30). -/
theorem execTxb_answersAs : AnswersAs s (exec .txb s) (refusalOf .txb s) := by
  rw [refusalOf]
  obtain ⟨hidle, h⟩ | ⟨hbusy, hend, h⟩ | ⟨_, _, hbusy, -, -, h⟩ := execTxb_cases s
  · rw [if_neg (by simp [hidle])]; exact h
  · rw [if_pos hbusy]
    exact ⟨fun hs => absurd (hs.tx.pos hbusy) hend.not_gt, fun t ht => by cases h.symm.trans ht⟩
  · rw [if_pos hbusy]; exact answersAs_of_next h rfl

/-- Every operation word is answered as the table of refusal causes says: one case per row of the opcode table. -/
theorem exec_answersAs {i : Instr} {w : Word} (hi : encode i = .word w) : AnswersAs s (exec i s) (refusalOf i s) := by
  cases i with
  | rd reg => exact execRd_answersAs reg
  | wr reg val => exact execWr_answersAs reg val
  | ibr addr => exact execIbr_answersAs addr
  | plr addr => exact execPlr_answersAs addr
  | plw addr data => exact execPlw_answersAs addr data
  | xorb byte => exact answersAs_of_next (exec_xorb byte s) rfl
  | crcb byte => exact answersAs_of_next (exec_crcb byte s) rfl
  | rxb byte => exact execRxb_answersAs byte
  | rxack => exact execRxack_answersAs
  | rxrst => exact answersAs_of_next (respond_eq ..) rfl
  | txgo => exact execTxgo_answersAs
  | txb => exact execTxb_answersAs
  | reserved0 _ | reservedD _ | reservedE _ | reservedF _ => exact refuse_eq ..
  | frameV1 _ _ _ _ | frameV1Jumbo _ _ _ _ | frameV2Native _ _ _ _ _ | frameV2OverV1 _ _ _ _ _ _ _
  | frameV2OverV1Jumbo _ _ _ _ _ _ _ => cases hi

end

/-- A wire frame is no operation and has no refusal of its own. -/
theorem refusalOf_of_encode_wire {i : Instr} {bytes : List Byte} (hi : encode i = .wire bytes) (s : State) :
    isOperation i = false ∧ refusalOf i s = none := by
  cases i with
  | frameV1 _ _ _ _ | frameV1Jumbo _ _ _ _ | frameV2Native _ _ _ _ _ | frameV2OverV1 _ _ _ _ _ _ _
  | frameV2OverV1Jumbo _ _ _ _ _ _ _ => exact ⟨rfl, rfl⟩
  | _ => cases hi

/-- Settles O18: an operation word is answered as the table says, and a wire frame is none. -/
theorem refusedExactlyWhenSpecified : Obligations.RefusedExactlyWhenSpecified := by
  intro i s
  cases hi : encode i with
  | word w =>
    have h := exec_answersAs (s := s) hi
    refine ⟨fun cause hcause => ?_, fun _ hnone => ?_⟩
    · rw [hcause] at h; exact h
    · rw [hnone] at h; exact h.2
  | wire bytes =>
    obtain ⟨hop, hnone⟩ := refusalOf_of_encode_wire hi s
    simp [hop, hnone]

/-! ### No event stops the block (60_exceptions.md R200) -/

theorem exists_exec_next {s : State} (hs : s.Inv) (i : Instr) : ∃ t, exec i s = .next t := by
  cases hi : encode i with
  | word w => exact (exec_answersAs hi).exists_next hs
  | wire bytes =>
    obtain ⟨t, ht, -⟩ := presentBytes_ok bytes hs
    exact ⟨t, (exec_of_encode_wire hi s).trans ht⟩

theorem exists_execAll_next {s : State} (hs : s.Inv) (is : List Instr) : ∃ t, execAll is s = .next t := by
  induction is generalizing s with
  | nil => exact ⟨s, rfl⟩
  | cons i is ih =>
    obtain ⟨u, hu⟩ := exists_exec_next hs i
    obtain ⟨t, ht⟩ := ih ((exec_advances hu).inv hs)
    exact ⟨t, by rw [execAll_cons, hu, andThen_next, ht]⟩

/-- Settles O13: a presentation acts as a sequence of instructions, each of which goes on and keeps the invariant. -/
theorem noStepStopsTheBlock : Obligations.NoStepStopsTheBlock := by
  intro s hs
  cases hp : s.pending with
  | nil => exact ⟨s, step_of_pending_nil hp⟩
  | cons input rest =>
    rw [step_of_pending_cons hp]
    cases input with
    | blockReset => exact ⟨_, rfl⟩
    | present e =>
      obtain ⟨is, his⟩ := exists_runEncoding_eq_execAll e
      obtain ⟨t, ht⟩ := exists_execAll_next ((advances_setPending s rest).inv hs) is
      exact ⟨t, (his _).trans ht⟩

/-! ### The table of abort causes, by receive state (60_exceptions.md R201) -/

section
variable {cap : Nat} {b : Byte} {d d' : Deframer} {cause : AbortCause}

theorem abortsFor_of_headerStart (hst : d.state = .headerStart) :
    abortsFor cause b cap d ↔ cause = .badMagic ∧ b ≠ chM ∧ b ≠ chX := by
  cases cause <;> simp [abortsFor, hst, chM, chX]

theorem abortsFor_of_direction (hst : d.state = .headerM ∨ d.state = .headerX) :
    abortsFor cause b cap d ↔ cause = .badDirection ∧ b ≠ chLess ∧ b ≠ chGreater := by
  obtain hst | hst := hst <;> cases cause <;> simp [abortsFor, hst, chLess, chGreater]

theorem abortsFor_of_headerV1 (hst : d.state = .headerV1) : abortsFor cause b cap d ↔ d.offset = 1 ∧
    (cause = .v1SizeOverCapacity ∧ cap < (hdrByte d 0).toNat ∨
      cause = .v2OverV1TooShort ∧ (hdrByte d 0).toNat ≤ cap ∧ b = sentinel ∧ (hdrByte d 0).toNat < 6) := by
  cases cause <;> simp [abortsFor, hst, sentinel]

theorem abortsFor_of_v2Header {v : WireVersion} (hv : v ≠ .v1) (hst : d.state = v.headerState) :
    abortsFor cause b cap d ↔
      d.offset = 4 ∧ cause = .v2SizeOverCapacity ∧ cap < (u16le (hdrByte d 3) b).toNat := by
  cases v with
  | v1 => exact absurd rfl hv
  | v2OverV1 | v2Native => cases cause <;> simp [abortsFor, hst, WireVersion.headerState]

theorem abortsFor_of_checksumV1 (hst : d.state = .checksumV1) :
    abortsFor cause b cap d ↔ cause = .xorMismatch ∧ b ≠ d.ck1 := by
  cases cause <;> simp [abortsFor, hst]

theorem abortsFor_of_checksumV2 (hst : d.state = .checksumV2OverV1 ∨ d.state = .checksumV2Native) :
    abortsFor cause b cap d ↔ cause = .crcMismatch ∧ b ≠ d.ck2 := by
  obtain hst | hst := hst <;> cases cause <;> simp [abortsFor, hst]

/-- In these states no byte aborts a frame: none is in progress, its payload is being taken, or it is complete. -/
theorem not_abortsFor
    (hst : d.state = .idle ∨ (∃ v : WireVersion, d.state = v.payloadState) ∨ d.state = .commandReceived) :
    ¬ abortsFor cause b cap d := by
  obtain hst | ⟨v, hst⟩ | hst := hst
  · cases cause <;> simp [abortsFor, hst]
  · cases v <;> cases cause <;> simp [abortsFor, hst, WireVersion.payloadState]
  · cases cause <;> simp [abortsFor, hst]

/-! ### The aborts of the rules (41_deframer.md R111 to R123) -/

/-- The deframer that a rule hands to the abort: the header byte staged, or the inner CRC byte folded, where the rule
does so before its test. -/
def Deframer.beforeAbort (b : Byte) (d : Deframer) : Deframer :=
  match d.state with
  | .headerV1 => d.stage .v1 b
  | .headerV2OverV1 => d.stage .v2OverV1 b
  | .headerV2Native => d.stage .v2Native b
  | .checksumV2OverV1 => foldCk1 b d
  | _ => d

theorem Deframer.beforeAbort_of_header {v : WireVersion} (hst : d.state = v.headerState) :
    d.beforeAbort b = d.stage v b := by
  rw [beforeAbort, hst]
  cases v <;> rfl

/-- What is handed to the abort has the packet registers and the input buffer as they were. -/
theorem Deframer.beforeAbort_packet (b : Byte) (d : Deframer) :
    (d.beforeAbort b).version = d.version ∧ (d.beforeAbort b).ptype = d.ptype ∧ (d.beforeAbort b).size = d.size ∧
      (d.beforeAbort b).cmd = d.cmd ∧ (d.beforeAbort b).flags = d.flags ∧ (d.beforeAbort b).inBuf = d.inBuf := by
  unfold beforeAbort
  split <;> exact ⟨rfl, rfl, rfl, rfl, rfl, rfl⟩

/-- The rule of the state aborts for exactly the causes that the table gives the state. -/
def AbortsAsTabled (cap : Nat) (b : Byte) (d : Deframer) : Prop :=
  ∀ cause d', rxRule cap b d = some (.abort cause d') ↔ abortsFor cause b cap d ∧ d' = d.beforeAbort b

/-- A rule that goes on when its test passes and aborts for the state's one cause otherwise. -/
theorem abortsAsTabled_of_test {c : Prop} [Decidable c] {named : AbortCause}
    (hrule : ∃ e, rxRule cap b d = some (if c then .go e else .abort named (d.beforeAbort b)))
    (htable : ∀ cause, abortsFor cause b cap d ↔ cause = named ∧ ¬ c) : AbortsAsTabled cap b d := by
  intro cause d'
  obtain ⟨e, hrule⟩ := hrule
  rw [hrule, Option.some_inj, htable]
  split_ifs with h <;> simp [h, eq_comm]

theorem abortsAsTabled_headerStart (hst : d.state = .headerStart) : AbortsAsTabled cap b d := by
  intro cause d'
  rw [rxRule_headerStart cap b hst, Option.some_inj, abortsFor_of_headerStart hst, Deframer.beforeAbort, hst,
    rxHeaderStart]
  split_ifs with hM hX
  · simp [hM]
  · simp [hX]
  · simp [hM, hX, eq_comm]

theorem abortsAsTabled_direction (hst : d.state = .headerM ∨ d.state = .headerX) : AbortsAsTabled cap b d := by
  refine abortsAsTabled_of_test (c := b = chLess ∨ b = chGreater) (named := .badDirection) ?_ fun cause => ?_
  · obtain hst | hst := hst
    · rw [rxRule_headerM cap b hst, Deframer.beforeAbort, hst]; exact ⟨_, rfl⟩
    · rw [rxRule_headerX cap b hst, Deframer.beforeAbort, hst]; exact ⟨_, rfl⟩
  · rw [abortsFor_of_direction hst, not_or]

/-- A header state aborts only when its last byte completes the header. -/
theorem rxRule_header_eq_abort_iff (v : WireVersion) (hst : d.state = v.headerState) (h : d.offset.toNat < 5) :
    rxRule cap b d = some (.abort cause d') ↔
      d.offset.toNat + 1 = v.headerLength ∧ v.headerDone cap (d.stage v b) = .abort cause d' := by
  rw [rxRule_header v hst h, Option.some_inj, ← offset_stage_eq_iff (b := b) v h]
  split_ifs with hlast <;> simp [hlast]

theorem v1HeaderDone_eq_abort_iff : v1HeaderDone cap d = .abort cause d' ↔
    (cause = .v1SizeOverCapacity ∧ cap < (hdrByte d 0).toNat ∨ cause = .v2OverV1TooShort ∧
      (hdrByte d 0).toNat ≤ cap ∧ hdrByte d 1 = sentinel ∧ (hdrByte d 0).toNat < 6) ∧ d' = d := by
  obtain ⟨hcap, h⟩ | ⟨hcap, hcmd, h6, h⟩ | ⟨hcap, hcmd, h6, h⟩ | ⟨hcap, hcmd, h⟩ := v1HeaderDone_cases cap d <;> rw [h]
  · simp [hcap, hcap.not_ge, eq_comm]
  · simp [hcap.not_gt, h6.not_gt]
  · simp [hcap, hcap.not_gt, hcmd, h6, eq_comm]
  · simp [hcap.not_gt, hcmd]

theorem v2HeaderDone_eq_abort_iff {payload checksum : RxState} :
    v2HeaderDone cap payload checksum d = .abort cause d' ↔
    (cause = .v2SizeOverCapacity ∧ cap < (u16le (hdrByte d 3) (hdrByte d 4)).toNat) ∧ d' = d := by
  obtain ⟨hcap, h⟩ | ⟨hcap, h⟩ := v2HeaderDone_cases cap payload checksum d <;> rw [h]
  · simp [hcap, eq_comm]
  · simp [hcap.not_gt]

theorem abortsAsTabled_headerV1 (hst : d.state = .headerV1) (h : d.offset.toNat < 5) : AbortsAsTabled cap b d := by
  intro cause d'
  rw [rxRule_header_eq_abort_iff .v1 hst h, abortsFor_of_headerV1 hst, Deframer.beforeAbort_of_header (v := .v1) hst,
    WireVersion.headerDone, v1HeaderDone_eq_abort_iff, ← and_assoc]
  have hlast : d.offset.toNat + 1 = WireVersion.headerLength .v1 ↔ d.offset = 1 := by
    rw [← BitVec.toNat_inj]; exact Nat.add_right_cancel_iff
  rw [hlast]
  refine and_congr_left fun _ => and_congr_right fun hoff => ?_
  have hsize : hdrByte (d.stage .v1 b) 0 = hdrByte d 0 := hdrByte_stage_of_ne _ _ (by rw [hoff]; decide)
  have hcmd : hdrByte (d.stage .v1 b) 1 = b := by simpa [hoff] using hdrByte_stage_self .v1 b d
  rw [hsize, hcmd]

theorem abortsAsTabled_v2Header {v : WireVersion} (hv : v ≠ .v1) (hst : d.state = v.headerState)
    (h : d.offset.toNat < 5) : AbortsAsTabled cap b d := by
  intro cause d'
  obtain ⟨payload, checksum, hdone⟩ : ∃ payload checksum, v.headerDone cap = v2HeaderDone cap payload checksum := by
    cases v with
    | v1 => exact absurd rfl hv
    | v2OverV1 | v2Native => exact ⟨_, _, rfl⟩
  rw [rxRule_header_eq_abort_iff v hst h, abortsFor_of_v2Header hv hst, Deframer.beforeAbort_of_header hst, hdone,
    v2HeaderDone_eq_abort_iff, ← and_assoc]
  have hlast : d.offset.toNat + 1 = v.headerLength ↔ d.offset = 4 := by
    rw [v.headerLength_of_ne_v1 hv, ← BitVec.toNat_inj]; exact Nat.add_right_cancel_iff
  rw [hlast]
  refine and_congr_left fun _ => and_congr_right fun hoff => ?_
  have h3 : hdrByte (d.stage v b) 3 = hdrByte d 3 := hdrByte_stage_of_ne _ _ (by rw [hoff]; decide)
  have h4 : hdrByte (d.stage v b) 4 = b := by simpa [hoff] using hdrByte_stage_self v b d
  rw [h3, h4]

theorem abortsAsTabled_checksumV1 (hst : d.state = .checksumV1) : AbortsAsTabled cap b d := by
  refine abortsAsTabled_of_test ?_ fun _ => abortsFor_of_checksumV1 hst
  rw [rxRule_checksumV1 cap b hst, Deframer.beforeAbort, hst]; exact ⟨_, rfl⟩

theorem abortsAsTabled_checksumV2OverV1 (hst : d.state = .checksumV2OverV1) : AbortsAsTabled cap b d := by
  refine abortsAsTabled_of_test ?_ fun _ => abortsFor_of_checksumV2 (.inl hst)
  rw [rxRule_checksumV2OverV1 cap b hst, Deframer.beforeAbort, hst]; exact ⟨_, rfl⟩

theorem abortsAsTabled_checksumV2Native (hst : d.state = .checksumV2Native) : AbortsAsTabled cap b d := by
  refine abortsAsTabled_of_test ?_ fun _ => abortsFor_of_checksumV2 (.inr hst)
  rw [rxRule_checksumV2Native cap b hst, Deframer.beforeAbort, hst]; exact ⟨_, rfl⟩

theorem abortsAsTabled_of_never (hnever : ∀ cause d', rxRule cap b d ≠ some (.abort cause d'))
    (hst : d.state = .idle ∨ (∃ v : WireVersion, d.state = v.payloadState) ∨ d.state = .commandReceived) :
    AbortsAsTabled cap b d :=
  fun cause d' => iff_of_false (hnever cause d') fun h => not_abortsFor hst h.1

theorem abortsAsTabled_idle (hst : d.state = .idle) : AbortsAsTabled cap b d := by
  refine abortsAsTabled_of_never (fun cause d' => ?_) (.inl hst)
  rw [rxRule_idle cap b hst, rxIdle]
  split_ifs <;> simp

/-- The rule of a payload state, when the buffer has a place for the byte, ends with the test of the count. -/
theorem exists_rxRule_eq_payloadDone {v : WireVersion} (hst : d.state = v.payloadState) (h : d.offset.toNat < cap) :
    ∃ e, rxRule cap b d = some (payloadDone v.checksumState e) := by
  cases v with
  | v1 => rw [rxRule_payloadV1 cap b hst, rxPayloadV1, stagePayload_of_lt b h]; exact ⟨_, rfl⟩
  | v2OverV1 => rw [rxRule_payloadV2OverV1 cap b hst, rxPayloadV2OverV1, stagePayload_of_lt b h]; exact ⟨_, rfl⟩
  | v2Native => rw [rxRule_payloadV2Native cap b hst, rxPayloadV2Native, stagePayload_of_lt b h]; exact ⟨_, rfl⟩

theorem Deframer.Inv.abortsAsTabled_payload {v : WireVersion} (hd : d.Inv cap) (hst : d.state = v.payloadState) :
    AbortsAsTabled cap b d := by
  refine abortsAsTabled_of_never (fun cause d' => ?_) (.inr (.inl ⟨v, hst⟩))
  obtain ⟨hlt, hle⟩ := hd.payload_bounds v hst
  obtain ⟨e, hrule⟩ := exists_rxRule_eq_payloadDone (b := b) hst (hlt.trans_le hle)
  rw [hrule]
  obtain ⟨-, hdone⟩ | ⟨-, hdone⟩ := payloadDone_cases v.checksumState e <;> rw [hdone] <;> nofun

theorem abortsAsTabled_commandReceived (hst : d.state = .commandReceived) : AbortsAsTabled cap b d :=
  abortsAsTabled_of_never (fun _ _ h => by cases ((rxRule_eq_none_iff cap b).2 hst).symm.trans h) (.inr (.inr hst))

/-- In every good state: one case per receive state. -/
theorem Deframer.Inv.abortsAsTabled (hd : d.Inv cap) : AbortsAsTabled cap b d := by
  have hheader := hd.state.headerWritten
  cases hst : d.state with
  | idle => exact abortsAsTabled_idle hst
  | headerStart => exact abortsAsTabled_headerStart hst
  | headerM => exact abortsAsTabled_direction (.inl hst)
  | headerX => exact abortsAsTabled_direction (.inr hst)
  | headerV1 => exact abortsAsTabled_headerV1 hst (hheader (.inl hst)).1
  | headerV2OverV1 => exact abortsAsTabled_v2Header (v := .v2OverV1) nofun hst (hheader (.inr (.inl hst))).1
  | headerV2Native => exact abortsAsTabled_v2Header (v := .v2Native) nofun hst (hheader (.inr (.inr hst))).1
  | payloadV1 => exact hd.abortsAsTabled_payload (v := .v1) hst
  | payloadV2OverV1 => exact hd.abortsAsTabled_payload (v := .v2OverV1) hst
  | payloadV2Native => exact hd.abortsAsTabled_payload (v := .v2Native) hst
  | checksumV1 => exact abortsAsTabled_checksumV1 hst
  | checksumV2OverV1 => exact abortsAsTabled_checksumV2OverV1 hst
  | checksumV2Native => exact abortsAsTabled_checksumV2Native hst
  | commandReceived => exact abortsAsTabled_commandReceived hst

end

/-- Settles O39: the rule aborts as the table says, and the abort only enters `Idle` (60_exceptions.md R205). -/
theorem abortsExactlyWhenSpecified : Obligations.AbortsExactlyWhenSpecified := by
  intro s b hs
  have htabled : AbortsAsTabled s.cfg.inCap b s.rx := hs.rx.abortsAsTabled
  refine ⟨fun cause => ?_, fun cause hcause => ?_⟩
  · simp [htabled cause]
  · have hrule := (htabled cause _).2 ⟨hcause, rfl⟩
    exact ⟨abortEntry (s.rx.beforeAbort b), presentByte_abort hrule, rfl, s.rx.beforeAbort_packet b⟩

end Sys2Proof.Machine
end

section
/-! The family of 70_reset_and_hazards.md: the well-formed frame inside a rejected jumbo frame (O48). -/

namespace Sys2Proof.Machine

/-! ### What a well-formed frame delivers (41_deframer.md R127, R128) -/

/-- The direction bytes that are received are those of the two directions other than `'!'` (30_encoding.md R61). -/
theorem exists_dirByte_eq {b : Byte} (hb : b = chLess ∨ b = chGreater) :
    ∃ dir, dir ≠ .replyError ∧ dirByte dir = b := by
  obtain rfl | rfl := hb
  · exact ⟨.request, nofun, rfl⟩
  · exact ⟨.replySuccess, nofun, rfl⟩

/-- Five bytes are the V2 header of the fields they spell (30_encoding.md R65). -/
theorem bytes_eq_v2Header {n : Nat} {l0 l1 : Byte} (f c0 c1 : Byte) (hlen : (u16le l0 l1).toNat = n) :
    [f, c0, c1, l0, l1] = v2Header f (u16le c0 c1) (BitVec.ofNat 16 n) := by
  rw [← hlen, BitVec.ofNat_toNat, BitVec.setWidth_eq]
  simp [v2Header]

/-- A well-formed frame delivers one packet, whatever the deframer held before: its bytes alone say which. -/
theorem AcceptedFrame.exists_packet {cap : Nat} {bytes : List Byte} (h : AcceptedFrame cap bytes) (hcap : cap ≤ 254) :
    ∃ version ptype cmd flags p, ∀ d : Deframer, d.state = .idle →
      ∃ d', runDeframer cap bytes d = some d' ∧ Delivered version ptype cmd flags p d' := by
  obtain ⟨b, hb, p, hp, hform⟩ := h
  obtain ⟨dir, hdir, rfl⟩ := exists_dirByte_eq hb
  obtain ⟨c, hc, rfl⟩ | ⟨f, c0, c1, l0, l1, hlen, rfl⟩ | ⟨v1Size, f, c0, c1, l0, l1, k, h6, hv1, hlen, hk, rfl⟩ := hform
  · refine ⟨.v1, packetTypeOf dir, c.setWidth 16, 0, p, fun d hidle => ?_⟩
    obtain ⟨d', hrun, hholds, hst⟩ := exists_runDeframer_frameV1 hidle hdir hcap hp hc
      (xorChecksum 0 ([BitVec.ofNat 8 p.length, c] ++ p))
    exact ⟨d', hrun, hst.trans (if_pos rfl), hholds⟩
  · refine ⟨.v2Native, packetTypeOf dir, u16le c0 c1, f, p, fun d hidle => ?_⟩
    obtain ⟨d', hrun, hholds, hst⟩ := exists_runDeframer_frameV2Native hidle hdir hcap hp f (u16le c0 c1)
      (crc8DvbUpdate 0 ([f, c0, c1, l0, l1] ++ p))
    rw [← v2Header_of_length_le f _ (hp.trans hcap), ← bytes_eq_v2Header f c0 c1 hlen] at hst
    rw [frameV2NativeBytes, ← bytes_eq_v2Header f c0 c1 hlen] at hrun
    exact ⟨d', hrun, hst.trans (if_pos rfl), hholds⟩
  · refine ⟨.v2OverV1, packetTypeOf dir, u16le c0 c1, f, p, fun d hidle => ?_⟩
    obtain ⟨d', hrun, hholds, hst⟩ := exists_runDeframer_frameV2OverV1 hidle hdir hcap hp h6 hv1 f (u16le c0 c1) k
      (xorChecksum 0 ([v1Size, 255, f, c0, c1, l0, l1] ++ p ++ [k]))
    rw [← v2Header_of_length_le f _ (hp.trans hcap), ← bytes_eq_v2Header f c0 c1 hlen] at hst
    rw [frameV2OverV1Bytes, ← bytes_eq_v2Header f c0 c1 hlen] at hrun
    exact ⟨d', hrun, hst.trans ((if_pos hk).trans (if_pos rfl)), hholds⟩

/-! ### A frame inside a jumbo frame (70_reset_and_hazards.md R230) -/

/-- Bytes other than `'$'` leave a deframer in `Idle` as it is (41_deframer.md R111). -/
theorem runDeframer_noise {cap : Nat} {bytes : List Byte} {d : Deframer} (hidle : d.state = .idle)
    (hnoise : ∀ b ∈ bytes, b ≠ chDollar) : runDeframer cap bytes d = some d := by
  induction bytes with
  | nil => rfl
  | cons b bs ih =>
    obtain ⟨hb, hbs⟩ := List.forall_mem_cons.1 hnoise
    rw [runDeframer_cons (nextDeframer_idle hidle), if_neg hb, ← hidle]
    exact ih hbs

/-- Bytes that arrive behind a delivered packet leave it pending (41_deframer.md R124). -/
theorem presentBytes_of_run_pending {xs : List Byte} {s : State} {d : Deframer}
    (hrun : runDeframer s.cfg.inCap xs s.rx = some d) (hst : d.state = .commandReceived) (ys : List Byte) :
    ∃ t, presentBytes (xs ++ ys) s = .next t ∧ t.rx = d := by
  obtain ⟨u, hu, rfl⟩ := presentBytes_of_run hrun
  rw [presentBytes_append, hu, andThen_next, presentBytes_pending hst]
  exact ⟨_, rfl, rfl⟩

/-- The deframer in `Idle` after the head of a jumbo frame with this direction and command byte (41_deframer.md R115,
R130). -/
def Deframer.jumboAborted (dir : Direction) (cmd : Byte) (d : Deframer) : Deframer :=
  { Deframer.stageAll .v1 [sentinel, cmd] (d.started .v1 (packetTypeOf dir)) with state := .idle }

/-- What the first payload bytes of a jumbo frame deliver after its abort is what the whole frame delivers: the jumbo
bytes are noise, and the bytes behind the packet are refused. -/
theorem exec_frameV1Jumbo_of_inner {s : State} {dir : Direction} {innerBytes : List Byte} {cmd : Byte} {d : Deframer}
    (more : List Byte) (x : Byte) (hcap : s.cfg.inCap ≤ 254) (hidle : s.rx.state = .idle) (hdir : dir ≠ .replyError)
    (hlo : lo8 (BitVec.ofNat 16 (innerBytes ++ more).length) ≠ chDollar)
    (hhi : hi8 (BitVec.ofNat 16 (innerBytes ++ more).length) ≠ chDollar)
    (hinner : runDeframer s.cfg.inCap innerBytes (s.rx.jumboAborted dir cmd) = some d)
    (hst : d.state = .commandReceived) :
    ∃ t, exec (.frameV1Jumbo dir cmd (innerBytes ++ more) x) s = .next t ∧ t.rx = d := by
  let len := BitVec.ofNat 16 (innerBytes ++ more).length
  have hnoise : ∀ b ∈ [lo8 len, hi8 len], b ≠ chDollar := by simpa using ⟨hlo, hhi⟩
  have hrun : runDeframer s.cfg.inCap
      ([chDollar, chM, dirByte dir, sentinel, cmd] ++ ([lo8 len, hi8 len] ++ innerBytes)) s.rx = some d := by
    rw [runDeframer_append, runDeframer_jumboHead hidle hdir hcap, Option.bind_some, runDeframer_append,
      runDeframer_noise rfl hnoise, Option.bind_some]
    exact hinner
  obtain ⟨t, ht, hrx⟩ := presentBytes_of_run_pending hrun hst (more ++ [x])
  have hbytes : frameV1JumboBytes dir cmd (innerBytes ++ more) x =
      [chDollar, chM, dirByte dir, sentinel, cmd] ++ ([lo8 len, hi8 len] ++ innerBytes) ++ (more ++ [x]) := by
    simp [frameV1JumboBytes, len]
  exact ⟨t, by rw [exec_of_encode_wire rfl, hbytes, ht], hrx⟩

/-- Settles O48: the inner frame arrives in `Idle` and delivers the packet its bytes say. -/
theorem innerFrameOfARejectedFrameIsDelivered : Obligations.InnerFrameOfARejectedFrameIsDelivered := by
  intro s dir cmd x innerBytes more hs hidle hdir haccepted payload hlo hhi
  obtain ⟨version, ptype, c, flags, p, hdelivers⟩ := haccepted.exists_packet hs.cfg.1
  obtain ⟨d, hrun, hdelivered⟩ := hdelivers (s.rx.jumboAborted dir cmd) rfl
  have hpending : d.state = .commandReceived := hdelivered.1
  obtain ⟨t, ht, rfl⟩ := exec_frameV1Jumbo_of_inner more x hs.cfg.1 hidle hdir hlo hhi hrun hpending
  refine ⟨t, ht, ?_, fun inner c p hinner hp hc hbytes => ?_⟩
  · obtain ⟨d', hrun', halone⟩ := hdelivers s.rx hidle
    obtain ⟨u, hu, rfl⟩ := presentBytes_of_run hrun'
    obtain ⟨hst, rfl, rfl, rfl, rfl, -, rfl⟩ := halone
    exact ⟨u, (execAll_rxFrame innerBytes s).trans hu, hst, hdelivered⟩
  · subst hbytes
    obtain ⟨d₁, hrun₁, hholds, hst⟩ := exists_runDeframer_frameV1 (d := s.rx.jumboAborted dir cmd) rfl hinner hs.cfg.1
      hp hc (xorChecksum 0 ([BitVec.ofNat 8 p.length, c] ++ p))
    cases hrun.symm.trans hrun₁
    exact ⟨hst.trans (if_pos rfl), hholds⟩

end Sys2Proof.Machine
end
